-- ==== Sys2Proof/Word.lean ====
section
/-! DEFINITION. The byte: the only data word of the block (20_memory R59, 00_scope R10). -/

namespace Sys2Proof

/-- One byte, bit 7 the most significant (R10). -/
abbrev Byte := BitVec 8

end Sys2Proof
end

