-- ==== Sys2Proof/Config.lean ====
section
/-! DEFINITION. The implementation parameters the spec fixes (00_scope R8, R9). The two it leaves open by name,
OUT_CAP and MIN_MATCH, are plain data of the state (`Machine.Platform`). -/

namespace Sys2Proof.Config

/-- W_MIN, the smallest legal windowBits (R8, D2). -/
def wMin : Nat := 4

/-- W_MAX, the largest legal windowBits (R8, D2). -/
def wMax : Nat := 15

/-- L_MIN, the smallest legal lookaheadBits (R8, D2). -/
def lMin : Nat := 3

/-- L_MAX, the largest legal lookaheadBits (R8, D2). -/
def lMax : Nat := 14

/-- DEFAULT_INBUF, the staging capacity of DEC_INIT (R8, D11). -/
def defaultInbuf : Nat := 256

/-- CAP_MAX, the largest legal staging capacity (R8, D11). -/
def capMax : Nat := 65535

end Sys2Proof.Config
end

