-- ==== Sys2Proof/Syntax.lean ====
section
/-! DEFINITION. The abstract syntax of the two instruction sets of 30_encoding: the bitstream tokens (LIT, REF, END) and
the host commands, one constructor per row of spec/opcode_table.json. -/

namespace Sys2Proof

/-- One instruction. Tokens carry the decoded operands of the assembler syntax R81 (`REF d, n` has the values, not the
biased fields); commands carry the operands of R79, whose integers are unbounded (D28). -/
inductive Instr where
  /-- LIT v: one raw byte (R71, R164). -/
  | lit (v : Byte)
  /-- REF d, n: copy `n` bytes from `d` positions back (R72, R73, R165). -/
  | ref (d n : Nat)
  /-- END: the end-of-stream condition, which takes no bits (R76, R170). -/
  | endOfStream
  /-- ENC_INIT w, l (R102). -/
  | encInit (w l : Int)
  /-- DEC_INIT w, l (R103). -/
  | decInit (w l : Int)
  /-- DEC_INIT_CAP cap, w, l (R104). -/
  | decInitCap (cap w l : Int)
  /-- ENCODE X (R141). -/
  | encode (x : List Byte)
  /-- DECODE Y (R161). -/
  | decode (y : List Byte)
  /-- A reserved command code, 0x00 or 0x06 to 0xFF (R80). -/
  | reservedCmd (code : Byte)
deriving DecidableEq, Repr

/-- A typed operand of a host command (R79). -/
inductive Operand where
  | int (z : Int)
  | bytes (bs : List Byte)
deriving DecidableEq, Repr

/-- A host request: the command code `CMD[7:0]` and its typed operands, in the order of R79. -/
structure Request where
  cmd : Byte
  args : List Operand
deriving DecidableEq, Repr

/-- What an instruction is written as: a token's stream bits, first stream bit first (R70), or a host request (R79). -/
inductive Wire where
  | bits (bs : List Bool)
  | request (r : Request)
deriving DecidableEq, Repr

end Sys2Proof
end

