-- ==== Sys2Proof/WellFormed.lean ====
section
/-! DEFINITION. Which configurations are legal (40_config R101) and which instructions exist under one (30_encoding R73,
R77, R80). -/

namespace Sys2Proof

/-- `(W, L)` passes CheckConfig (R101): each in its range and `L < W`. -/
abbrev LegalConfig (W L : Nat) : Prop :=
  Config.wMin ≤ W ∧ W ≤ Config.wMax ∧ Config.lMin ≤ L ∧ L ≤ Config.lMax ∧ L < W

/-- The instruction has an encoding under windowBits `W` and lookaheadBits `L`: a REF's offset is in 1..2^W and its
length in 1..2^L (R73); a reserved code is 0x00 or 0x06 to 0xFF (R80); everything else always has one (R77, R79). -/
def Instr.wf (W L : Nat) : Instr → Bool
  | .ref d n => decide (1 ≤ d) && decide (d ≤ 2 ^ W) && decide (1 ≤ n) && decide (n ≤ 2 ^ L)
  | .reservedCmd code => decide (code.toNat = 0) || decide (6 ≤ code.toNat)
  | .lit _ => true
  | .endOfStream => true
  | .encInit _ _ => true
  | .decInit _ _ => true
  | .decInitCap _ _ _ => true
  | .encode _ => true
  | .decode _ => true

/-- The instruction is a bitstream token that takes bits: a LIT or a REF (R71, R72). -/
def Instr.isToken : Instr → Bool
  | .lit _ => true
  | .ref _ _ => true
  | .endOfStream => false
  | .encInit _ _ => false
  | .decInit _ _ => false
  | .decInitCap _ _ _ => false
  | .encode _ => false
  | .decode _ => false
  | .reservedCmd _ => false

end Sys2Proof
end

