-- ==== Sys2Proof/Decode.lean ====
section
/-! DEFINITION. Decoding and encoding (30_encoding): stream bits and bytes, the token decoder, the command decoder, the
encoder of both, framing, and the pseudo-instructions. -/

namespace Sys2Proof

/-! ### Bits and bytes -/

/-- The eight stream bits of a byte, most significant first (R70). -/
def byteBits (b : Byte) : List Bool :=
  [b.getLsbD 7, b.getLsbD 6, b.getLsbD 5, b.getLsbD 4, b.getLsbD 3, b.getLsbD 2, b.getLsbD 1, b.getLsbD 0]

/-- The stream bits of a byte sequence: stream bit `s` is bit `7 - s mod 8` of byte `s div 8` (R70). -/
def streamBits (bs : List Byte) : List Bool :=
  bs.flatMap byteBits

/-- The `n` bits of an `n`-bit field of value `v`, most significant first (R70). -/
def fieldBits (v : Nat) : Nat → List Bool
  | 0 => []
  | n + 1 => v.testBit n :: fieldBits v n

/-- The unsigned value of a field, read most significant bit first (R70). -/
def bitsToNat (bs : List Bool) : Nat :=
  bs.foldl (fun v b => 2 * v + b.toNat) 0

/-- The byte whose stream bits are the given (at most eight) bits followed by zeros. -/
def packByte (bs : List Bool) : Byte :=
  BitVec.ofNat 8 (bitsToNat (bs ++ List.replicate (8 - bs.length) false))

/-- A bit sequence as bytes, the last byte filled with zero bits: the framing of R75. -/
def pack : List Bool → List Byte
  | b7 :: b6 :: b5 :: b4 :: b3 :: b2 :: b1 :: b0 :: rest => packByte [b7, b6, b5, b4, b3, b2, b1, b0] :: pack rest
  | [] => []
  | short => [packByte short]

/-! ### REF operand assembly (R73) -/

/-- The offset a REF's offset field stands for, `O + 1`. -/
def refOffset (o : Nat) : Nat := o + 1

/-- The length a REF's length field stands for, `F + 1`. -/
def refLength (f : Nat) : Nat := f + 1

/-- The offset field of an offset, `d - 1`. -/
def offsetField (d : Nat) : Nat := d - 1

/-- The length field of a length, `n - 1`. -/
def lengthField (n : Nat) : Nat := n - 1

/-! ### Decoding -/

/-- What stands at a token boundary: a token (END among them) and the bits after it, or a truncated token (R77, R131). -/
inductive TokenRead where
  | token (i : Instr) (rest : List Bool)
  | truncated
deriving DecidableEq, Repr

/-- Decode what stands at a token boundary before the stream bits not yet read, under `(W, L)` (R71 to R74, R76, R131):
END when no bit is left or at most seven are and all are zero, else a complete token, else truncated. Total on any bits. -/
def decodeToken (W L : Nat) (bits : List Bool) : TokenRead :=
  if bits.length ≤ 7 then
    if bits.all (fun b => !b) then .token .endOfStream bits else .truncated
  else
    match bits with
    | [] => .token .endOfStream []
    | false :: rest =>
      if rest.length < 8 then .truncated
      else .token (.lit (BitVec.ofNat 8 (bitsToNat (rest.take 8)))) (rest.drop 8)
    | true :: rest =>
      if rest.length < W + L then .truncated
      else
        .token (.ref (refOffset (bitsToNat (rest.take W))) (refLength (bitsToNat ((rest.drop W).take L))))
          (rest.drop (W + L))

/-- Why the decoder rejects what it is given. -/
inductive Reject where
  /-- The bits are neither END nor a complete token (R77, R131). -/
  | truncatedToken
  /-- The operands are not of the number and types R79 gives the command. -/
  | badOperands
deriving DecidableEq, Repr

/-- Decode a host request: the codes of R79 with operands of their types; every other code is reserved (R80). -/
def decodeRequest (r : Request) : Except Reject Instr :=
  match r.cmd.toNat, r.args with
  | 1, [.int w, .int l] => .ok (.encInit w l)
  | 2, [.int w, .int l] => .ok (.decInit w l)
  | 3, [.int cap, .int w, .int l] => .ok (.decInitCap cap w l)
  | 4, [.bytes x] => .ok (.encode x)
  | 5, [.bytes y] => .ok (.decode y)
  | c, _ => if c = 0 ∨ 6 ≤ c then .ok (.reservedCmd r.cmd) else .error .badOperands

/-- Decode one instruction in either form; of a token's bits, what follows the token is dropped. -/
def decode (W L : Nat) : Wire → Except Reject Instr
  | .bits bs =>
    match decodeToken W L bs with
    | .token i _ => .ok i
    | .truncated => .error .truncatedToken
  | .request r => decodeRequest r

/-! ### Encoding -/

/-- The stream bits of a token under `(W, L)` (R71, R72, R73); no other instruction takes any (R76, R79). -/
def tokenBits (W L : Nat) : Instr → List Bool
  | .lit v => false :: fieldBits v.toNat 8
  | .ref d n => true :: (fieldBits (offsetField d) W ++ fieldBits (lengthField n) L)
  | .endOfStream => []
  | .encInit _ _ => []
  | .decInit _ _ => []
  | .decInitCap _ _ _ => []
  | .encode _ => []
  | .decode _ => []
  | .reservedCmd _ => []

/-- The number of stream bits of an instruction under `(W, L)` (R74): 9 for a LIT, `1 + W + L` for a REF, none for the
rest. -/
def tokenSize (W L : Nat) : Instr → Nat
  | .lit _ => 9
  | .ref _ _ => 1 + W + L
  | .endOfStream => 0
  | .encInit _ _ => 0
  | .decInit _ _ => 0
  | .decInitCap _ _ _ => 0
  | .encode _ => 0
  | .decode _ => 0
  | .reservedCmd _ => 0

/-- The encoding of an instruction: a token's bits or a command's request (R71, R72, R76, R79, R80). -/
def encode (W L : Nat) : Instr → Wire
  | .lit v => .bits (tokenBits W L (.lit v))
  | .ref d n => .bits (tokenBits W L (.ref d n))
  | .endOfStream => .bits []
  | .encInit w l => .request { cmd := 0x01, args := [.int w, .int l] }
  | .decInit w l => .request { cmd := 0x02, args := [.int w, .int l] }
  | .decInitCap cap w l => .request { cmd := 0x03, args := [.int cap, .int w, .int l] }
  | .encode x => .request { cmd := 0x04, args := [.bytes x] }
  | .decode y => .request { cmd := 0x05, args := [.bytes y] }
  | .reservedCmd code => .request { cmd := code, args := [] }

/-- The bits of a token list, concatenated (R75). -/
def tokensBits (W L : Nat) (toks : List Instr) : List Bool :=
  toks.flatMap (tokenBits W L)

/-- The complete stream of a token list: the tokens' bits, zero-padded to a byte boundary (R75). -/
def assemble (W L : Nat) (toks : List Instr) : List Byte :=
  pack (tokensBits W L toks)

/-! ### Pseudo-instructions (R83) -/

/-- STR "text": one LIT per byte. -/
def expandStr (text : List Byte) : List Instr :=
  text.map .lit

/-- COPY d, n: `n / LMAX` times `REF d, LMAX`, then one REF for the remainder if there is one. -/
def expandCopy (L d n : Nat) : List Instr :=
  List.replicate (n / 2 ^ L) (.ref d (2 ^ L)) ++ (if n % 2 ^ L = 0 then [] else [.ref d (n % 2 ^ L)])

/-- RUN b, n: `LIT b` and then `COPY 1, n - 1`. -/
def expandRun (L : Nat) (b : Byte) (n : Nat) : List Instr :=
  .lit b :: expandCopy L 1 (n - 1)

/-! ### The opcode table's words -/

/-- The request of a command code whose operands are all zero words: integers 0, byte sequences empty. -/
def zeroOperandRequest (cmd : Byte) : Request :=
  match cmd.toNat with
  | 1 => { cmd := cmd, args := [.int 0, .int 0] }
  | 2 => { cmd := cmd, args := [.int 0, .int 0] }
  | 3 => { cmd := cmd, args := [.int 0, .int 0, .int 0] }
  | 4 => { cmd := cmd, args := [.bytes []] }
  | 5 => { cmd := cmd, args := [.bytes []] }
  | _ => { cmd := cmd, args := [] }

/-- The windowBits of the configuration the table shows a REF's pattern for. -/
def tableW : Nat := 8

/-- The lookaheadBits of the configuration the table shows a REF's pattern for. -/
def tableL : Nat := 4

/-- The words of the opcode table as the block receives them. A command row is its 8-bit code (R79). A token row is a
number whose last stream bit is bit 0: a LIT is 9 bits (R71), a REF 13 bits under the table's `W = 8, L = 4` (R72), each
counted as 16 in whole bytes; END takes no bits (R76). -/
def tableWire (nbits w : Nat) : Option Wire :=
  if nbits = 0 then some (.bits [])
  else if nbits = 8 then some (.request (zeroOperandRequest (BitVec.ofNat 8 w)))
  else if (nbits = 9 ∨ nbits = 16) ∧ w < 2 ^ 8 then some (.bits (fieldBits w 9))
  else if (nbits = 13 ∨ nbits = 16) ∧ 2 ^ 12 ≤ w ∧ w < 2 ^ 13 then some (.bits (fieldBits w 13))
  else none

/-- The instruction the decoder reads from a word of the opcode table. -/
def decodeTableWord (nbits w : Nat) : Option Instr :=
  match tableWire nbits w with
  | none => none
  | some wire =>
    match decode tableW tableL wire with
    | .ok i => some i
    | .error _ => none

end Sys2Proof
end

