-- ==== Sys2Proof/Machine/State.lean ====
section
/-! DEFINITION. The state of the block (10_state), as plain data, its value after power-on (70_reset R220), and the
reasons a step can stop (60_exceptions R199, 93_implementation_defined S6 to S9). -/

namespace Sys2Proof.Machine

/-- Why an instruction takes no step. Every refusal is SAFE: the block writes no state (R199) and nothing follows. -/
inductive Refusal where
  /-- Only the dispatcher raises it, for an instruction that has no meaning yet. SAFE. -/
  | notModelled (mnemonic : String)
  /-- RESERVED_CMD raises it: command codes 0x00 and 0x06 to 0xFF (R80, R199). SAFE. -/
  | reservedCommand (code : Byte)
  /-- ENCODE raises it when `ROLE` is not ENCODER (R141, R199). SAFE. -/
  | notEncoder
  /-- DECODE raises it when `ROLE` is not DECODER (R161, R199). SAFE. -/
  | notDecoder
  /-- Every command raises it while another operation on the instance is in progress (R64, R199). SAFE. -/
  | busy
  /-- The end of an ENCODE or DECODE raises it when the output exceeds a finite OUT_CAP (R150, R199). SAFE. -/
  | outCapExceeded
  /-- A token raises it when no DECODE stands at a token boundary: only a running DECODE executes tokens (R163). SAFE. -/
  | tokenOutsideDecode
  /-- The fetch raises it for a request whose operands are not of the types R79 gives the command. SAFE. -/
  | badOperands
deriving DecidableEq, Repr

/-- Where the model stops because a rule's precondition does not hold. The spec calls each unreachable and asks for a
fault of the model (93_implementation_defined S6 to S9). Every fault is SAFE. -/
inductive Fault where
  /-- HistRead raises it for an offset outside `1..HCOUNT` (R53, S7). SAFE. -/
  | histReadOutOfRange
  /-- GetBits raises it when fewer bits remain than it is asked for (R126, S8). SAFE. -/
  | getBitsPastEnd
  /-- PutBits raises it for a value that does not fit its width (R121, S9). SAFE. -/
  | putBitsOverflow
  /-- The bit reader raises it for a staging entry at or beyond `STAGE_FILL`, or one that holds nothing (R58, S6). SAFE. -/
  | stageReadUnfilled
  /-- EmitRef raises it for an offset outside `1..N` or a length outside `1..LMAX` (R146). SAFE. -/
  | emitRefOutOfRange
  /-- The encoder raises it for an index at or beyond the end of `IN` (R142, R144). SAFE. -/
  | inputOutOfRange
  /-- An operation's loop raises it past the bound the spec gives it (R144, R172). SAFE. -/
  | stepBoundExceeded
  /-- The decoder's step raises it in `IDLE`, `DRAINED` or `FAILED`, where R161 calls none. SAFE. -/
  | noDecodeStep
deriving DecidableEq, Repr

/-- ROLE: what the slot holds (R20, R22). The reserved value 3 cannot occur (S5). -/
inductive Role where
  | none
  | encoder
  | decoder
deriving DecidableEq, Repr

/-- DSTATE: the decoder's state (R30). The reserved value 7 cannot occur (S5). -/
inductive DState where
  | idle
  | awaitTag
  | readLit
  | readRef
  | copy
  | drained
  | failed
deriving DecidableEq, Repr

/-- The causes of InvalidParameter (R191). -/
inductive InvalidCause where
  | wRange
  | lRange
  | lNotLess
  | capRange
deriving DecidableEq, Repr

/-- The causes of MalformedStream (R191). -/
inductive MalformedCause where
  | dangling
  | truncated
deriving DecidableEq, Repr

/-- The two failures of the block (R190). -/
inductive Failure where
  | invalidParameter (cause : InvalidCause)
  | malformedStream (cause : MalformedCause)
deriving DecidableEq, Repr

/-- The result of an operation, as the host receives it (R13, R79). -/
inductive Reply where
  /-- No operation has completed yet. -/
  | none
  /-- `Ok(())`, of a construction. -/
  | okUnit
  /-- `Ok(bytes)`, of an ENCODE or a DECODE. -/
  | okBytes (bs : List Byte)
  /-- `Err(code, cause)`. -/
  | err (f : Failure)
deriving DecidableEq, Repr

/-- A byte memory: its (index, byte) cells, strictly rising, none equal to what an unlisted index reads as. -/
abbrev Memory := List Host.Cell

/-- The configuration registers (R22); reference numbers 0 to 4. -/
structure ConfigRegs where
  /-- ROLE, number 0, 2 bits. -/
  role : Role
  /-- WBITS, number 1, 4 bits. -/
  wbits : Nat
  /-- LBITS, number 2, 4 bits. -/
  lbits : Nat
  /-- INBUF_CAP, number 3, 16 bits. -/
  inbufCap : Nat
  /-- MINM, number 4, 15 bits. -/
  minm : Nat
deriving DecidableEq, Repr

/-- The history buffer (R26). -/
structure History where
  /-- HBUF, indices `0..N-1`. -/
  hbuf : Memory
  /-- HEAD, the index the next push writes. -/
  head : Nat
  /-- HCOUNT, the number of valid history bytes. -/
  hcount : Nat
deriving DecidableEq, Repr

/-- The encoder datapath (R27). -/
structure EncoderRegs where
  /-- IN, captured at issue. -/
  input : List Byte
  /-- IPOS, the input cursor. -/
  ipos : Nat
  /-- MATCH_OFF. -/
  matchOff : Nat
  /-- MATCH_LEN. -/
  matchLen : Nat
  /-- DESIGN CHOICE: an ENCODE is in progress (the encoder's counterpart of a DSTATE that is not IDLE; R64). -/
  running : Bool
deriving DecidableEq, Repr

/-- The bit writer (R28). -/
structure Writer where
  /-- BW_ACC, the bits of the partial byte, right-aligned. -/
  acc : Byte
  /-- BW_NBITS, 3 bits. -/
  nbits : Nat
  /-- OUT of the encoder. -/
  out : List Byte
deriving DecidableEq, Repr

/-- The bit reader and its staging buffer (R29). -/
structure Reader where
  /-- SRC, captured at issue. -/
  src : List Byte
  /-- SRC_POS. -/
  srcPos : Nat
  /-- STAGE, indices `0..INBUF_CAP-1`. -/
  stage : Memory
  /-- STAGE_FILL, 17 bits. -/
  fill : Nat
  /-- STAGE_RD, 17 bits. -/
  rd : Nat
  /-- BIT_OFF, 3 bits. -/
  bitOff : Nat
deriving DecidableEq, Repr

/-- The decoder's control state and its output (R30, R31). -/
structure DecoderRegs where
  /-- DSTATE. -/
  dstate : DState
  /-- REF_OFF. -/
  refOff : Nat
  /-- REF_REM. -/
  refRem : Nat
  /-- OUT of the decoder. -/
  out : List Byte
  /-- The cause the last MalformedStream raise recorded (R162, R193). -/
  cause : MalformedCause
deriving DecidableEq, Repr

/-- The platform's settings of the parameters the spec leaves open; no operation writes them. -/
structure Platform where
  /-- OUT_CAP (R8, R150); `none` is unbounded, the default. -/
  outCap : Option Nat
  /-- MIN_MATCH (R8, R143); `none` is the default formula. -/
  minMatch : Option Nat
deriving DecidableEq, Repr

/-- Everything the block holds, the host's requests still to be issued, and the last result. -/
structure State where
  cfg : ConfigRegs
  /-- STATUS, number 5, 8 bits: ERR [1:0], CAUSE [4:2], [7:5] zero (R24). -/
  status : BitVec 8
  hist : History
  enc : EncoderRegs
  writer : Writer
  reader : Reader
  dec : DecoderRegs
  /-- DESIGN CHOICE: the operations the host still issues, each after the result of the one before it (R204). -/
  requests : List Request
  /-- The result of the last operation that completed with Ok or Err (R24). -/
  reply : Reply
  platform : Platform
deriving DecidableEq, Repr

/-- Power-on (R220, R221): `ROLE` NONE, `STATUS` 0, `DSTATE` IDLE. The other registers are unspecified at power-on; the
values here are a DESIGN CHOICE (log entries 1 to 3), and no rule reads one before writing it. -/
def State.reset : State where
  cfg := { role := .none, wbits := 0, lbits := 0, inbufCap := 0, minm := 0 }
  status := 0
  hist := { hbuf := [], head := 0, hcount := 0 }
  enc := { input := [], ipos := 0, matchOff := 0, matchLen := 0, running := false }
  writer := { acc := 0, nbits := 0, out := [] }
  reader := { src := [], srcPos := 0, stage := [], fill := 0, rd := 0, bitOff := 0 }
  dec := { dstate := .idle, refOff := 0, refRem := 0, out := [], cause := .dangling }
  requests := []
  reply := .none
  platform := { outCap := none, minMatch := none }

end Sys2Proof.Machine
end

