-- ==== Sys2Proof/Machine/Flags.lean ====
section
/-! DEFINITION. The status register's fields and codes (10_state R24, 60_exceptions R191), and the register codes of ROLE
and DSTATE (R22, R30). The block has no other flags (R25). -/

namespace Sys2Proof.Machine

/-- The CAUSE code of an InvalidParameter cause (R191). -/
def InvalidCause.code : InvalidCause → BitVec 3
  | .wRange => 1
  | .lRange => 2
  | .lNotLess => 3
  | .capRange => 4

/-- The CAUSE code of a MalformedStream cause (R191). -/
def MalformedCause.code : MalformedCause → BitVec 3
  | .dangling => 1
  | .truncated => 2

/-- The ERR code of a failure (R191). -/
def Failure.errCode : Failure → BitVec 2
  | .invalidParameter _ => 1
  | .malformedStream _ => 2

/-- The CAUSE code of a failure (R191). -/
def Failure.causeCode : Failure → BitVec 3
  | .invalidParameter c => c.code
  | .malformedStream c => c.code

/-- STATUS after Ok (R24). -/
def statusOk : BitVec 8 := 0

/-- STATUS after a failure: `(cause << 2) | err`, the upper bits zero (R24, R193). -/
def statusOf (f : Failure) : BitVec 8 :=
  (f.causeCode.zeroExtend 8 <<< 2) ||| f.errCode.zeroExtend 8

/-- The ERR field of a STATUS word (R24). -/
def statusErr (w : BitVec 8) : BitVec 2 := w.extractLsb' 0 2

/-- The CAUSE field of a STATUS word (R24). -/
def statusCause (w : BitVec 8) : BitVec 3 := w.extractLsb' 2 3

/-- The code of ROLE (R22). -/
def Role.code : Role → BitVec 2
  | .none => 0
  | .encoder => 1
  | .decoder => 2

/-- The code of DSTATE (R30). -/
def DState.code : DState → BitVec 3
  | .idle => 0
  | .awaitTag => 1
  | .readLit => 2
  | .readRef => 3
  | .copy => 4
  | .drained => 5
  | .failed => 6

end Sys2Proof.Machine
end

