-- ==== Sys2Proof/Machine/Operands.lean ====
section
/-! DEFINITION. The operands of the constructions: CheckConfig, the capacity test and MIN_MATCH (40_config R101, R104,
42_encoder R143), and the sizes a configuration gives (00_scope R8). -/

namespace Sys2Proof.Machine

/-- `N = 2^WBITS`, the window size in bytes (R22). -/
def ConfigRegs.window (c : ConfigRegs) : Nat := 2 ^ c.wbits

/-- `LMAX = 2^LBITS`, the maximum match length (R22). -/
def ConfigRegs.lmax (c : ConfigRegs) : Nat := 2 ^ c.lbits

/-- CheckConfig: the first test that fails, in the order W_RANGE, L_RANGE, L_NOT_LESS (R101, R194). -/
def checkConfig (w l : Int) : Option InvalidCause :=
  if ¬((Config.wMin : Int) ≤ w ∧ w ≤ (Config.wMax : Int)) then some .wRange
  else if ¬((Config.lMin : Int) ≤ l ∧ l ≤ (Config.lMax : Int)) then some .lRange
  else if ¬(l < w) then some .lNotLess
  else none

/-- The tests of DEC_INIT_CAP: the bit widths first, then the capacity (R104, R194). -/
def checkDecoder (cap w l : Int) : Option InvalidCause :=
  match checkConfig w l with
  | some c => some c
  | none => if ¬(1 ≤ cap ∧ cap ≤ (Config.capMax : Int)) then some .capRange else none

/-- The default MIN_MATCH, `floor((1 + W + L) / 9) + 1` (R143). -/
def defaultMinMatch (w l : Nat) : Nat := (1 + w + l) / 9 + 1

/-- MIN_MATCH on a platform: its own threshold where it sets one in `1..LMAX`, else the default (R143, D7). -/
def minMatch (p : Platform) (w l : Nat) : Nat :=
  match p.minMatch with
  | none => defaultMinMatch w l
  | some m => if 1 ≤ m ∧ m ≤ 2 ^ l then m else defaultMinMatch w l

end Sys2Proof.Machine
end

