-- ==== Sys2Proof/Machine/Ops.lean ====
section
/-! DEFINITION. The named operations over the block's memories and registers: byte memories, the history buffer
(20_memory), the bit writer and the bit reader (41_bit_io), taking a failure (60_exceptions R193), and the outcome of an
operation. -/

namespace Sys2Proof.Machine

/-! ### Byte memories -/

/-- The byte at index `k`: the listed one, else what an unlisted index reads as. -/
def Memory.read (unlisted : Option Byte) : Memory → Nat → Option Byte
  | [], _ => unlisted
  | (a, b) :: m, k => if k = a then some b else Memory.read unlisted m k

/-- Write `v` at index `k`, keeping the cells rising and listing none that equals what an unlisted index reads as. -/
def Memory.write (unlisted : Option Byte) : Memory → Nat → Byte → Memory
  | [], k, v => if some v = unlisted then [] else [(k, v)]
  | (a, b) :: m, k, v =>
    if k < a then (if some v = unlisted then (a, b) :: m else (k, v) :: (a, b) :: m)
    else if k = a then (if some v = unlisted then m else (k, v) :: m)
    else (a, b) :: Memory.write unlisted m k v

/-- Write a byte sequence at consecutive indices from `k`. -/
def Memory.writeSeq (unlisted : Option Byte) : Memory → Nat → List Byte → Memory
  | m, _, [] => m
  | m, k, v :: vs => Memory.writeSeq unlisted (Memory.write unlisted m k v) (k + 1) vs

/-- The canonical form: indices strictly rising, no cell equal to what an unlisted index reads as. -/
abbrev Memory.wf (unlisted : Option Byte) (m : Memory) : Prop :=
  m.Pairwise (fun x y => x.1 < y.1) ∧ ∀ c ∈ m, some c.2 ≠ unlisted

/-- What an unlisted HBUF index reads as: the zero fill of a construction (R102, D18). -/
def hbufUnlisted : Option Byte := some 0

/-- What an unlisted STAGE index reads as: no value (R29, R58, S6). -/
def stageUnlisted : Option Byte := none

/-! ### The history buffer -/

/-- The index `(HEAD - d) mod N` of the byte `d` positions back (R53; `mod` as R10 defines it, for any `d`). -/
def histIndex (n d : Nat) (h : History) : Nat := (h.head + n - d % n) % n

/-- HistPush (R52), in a window of `n` bytes. -/
def histPush (n : Nat) (b : Byte) (h : History) : History :=
  { hbuf := Memory.write hbufUnlisted h.hbuf h.head b
    head := (h.head + 1) % n
    hcount := min (h.hcount + 1) n }

/-- HistPush of each byte of a sequence, in order. -/
def histPushAll (n : Nat) (bs : List Byte) (h : History) : History :=
  bs.foldl (fun h b => histPush n b h) h

/-- HistRead (R53), in a window of `n` bytes; outside its precondition a fault (S7). -/
def histRead (n d : Nat) (h : History) : Except Fault Byte :=
  if 1 ≤ d ∧ d ≤ h.hcount then
    match Memory.read hbufUnlisted h.hbuf (histIndex n d h) with
    | some b => .ok b
    | none => .error .histReadOutOfRange
  else .error .histReadOutOfRange

/-- The history at a call start: emptied, HBUF kept (R26, R141, R161). -/
def histCallStart (h : History) : History := { h with head := 0, hcount := 0 }

/-- The history after a construction: HBUF zero-filled, emptied (R102, R104). -/
def histConstructed : History := { hbuf := [], head := 0, hcount := 0 }

/-! ### The bit writer (R120 to R122) -/

/-- The cleared writer of an ENCODE call start (R28). -/
def writerCleared : Writer := { acc := 0, nbits := 0, out := [] }

/-- One turn of PutBits' loop: append one bit, and the byte it completes (R121). -/
def putBit (bit : Bool) (w : Writer) : Writer :=
  let acc := (w.acc <<< 1) ||| BitVec.ofNat 8 bit.toNat
  if w.nbits + 1 = 8 then { acc := 0, nbits := 0, out := w.out ++ [acc] }
  else { acc := acc, nbits := w.nbits + 1, out := w.out }

/-- PutBits' loop over the bits `n-1` down to 0 of `v` (R121). -/
def putBitsLoop (v : Nat) : Nat → Writer → Writer
  | 0, w => w
  | n + 1, w => putBitsLoop v n (putBit (v.testBit n) w)

/-- PutBits (R121); a value that does not fit is a fault (S9). -/
def putBits (v n : Nat) (w : Writer) : Except Fault Writer :=
  if v < 2 ^ n then .ok (putBitsLoop v n w) else .error .putBitsOverflow

/-- FlushBits (R122). -/
def flushBits (w : Writer) : Writer :=
  if 0 < w.nbits then { acc := 0, nbits := 0, out := w.out ++ [w.acc <<< (8 - w.nbits)] } else w

/-! ### The bit reader (R124 to R131) -/

/-- The reader at a DECODE call start (R29, R161): nothing staged, STAGE kept. -/
def readerCallStart (y : List Byte) (r : Reader) : Reader :=
  { r with src := y, srcPos := 0, fill := 0, rd := 0, bitOff := 0 }

/-- RemainingBits (R127). -/
def remainingBits (r : Reader) : Nat :=
  8 * (r.fill - r.rd) - r.bitOff + 8 * (r.src.length - r.srcPos)

/-- The reader cursor, the absolute position of the next bit (R125). -/
def readCursor (r : Reader) : Nat :=
  8 * (r.srcPos - r.fill + r.rd) + r.bitOff

/-- Refill (R128), into a staging buffer of `cap` bytes. -/
def refill (cap : Nat) (r : Reader) : Reader :=
  let k := min cap (r.src.length - r.srcPos)
  { r with
    stage := Memory.writeSeq stageUnlisted r.stage 0 ((r.src.drop r.srcPos).take k)
    srcPos := r.srcPos + k
    fill := k
    rd := 0 }

/-- The byte `STAGE[STAGE_RD]`; at or beyond `STAGE_FILL` a fault (R58, S6). -/
def stagedByte (r : Reader) : Except Fault Byte :=
  if r.rd < r.fill then
    match Memory.read stageUnlisted r.stage r.rd with
    | some b => .ok b
    | none => .error .stageReadUnfilled
  else .error .stageReadUnfilled

/-- Refill when every staged byte is consumed, as GetBits does before each bit (R126). -/
def refillIfEmpty (cap : Nat) (r : Reader) : Reader :=
  if r.rd = r.fill then refill cap r else r

/-- Advance the cursor by one bit (R126). -/
def advanceBit (r : Reader) : Reader :=
  if r.bitOff + 1 = 8 then { r with bitOff := 0, rd := r.rd + 1 } else { r with bitOff := r.bitOff + 1 }

/-- One turn of GetBits' loop (R126). -/
def getBit (cap : Nat) (r : Reader) : Except Fault (Bool × Reader) :=
  match stagedByte (refillIfEmpty cap r) with
  | .error f => .error f
  | .ok b => .ok (b.getLsbD (7 - (refillIfEmpty cap r).bitOff), advanceBit (refillIfEmpty cap r))

/-- GetBits' loop: `n` more bits onto the value `v` (R126). -/
def getBitsLoop (cap : Nat) : Nat → Nat → Reader → Except Fault (Nat × Reader)
  | 0, v, r => .ok (v, r)
  | n + 1, v, r =>
    match getBit cap r with
    | .error f => .error f
    | .ok (bit, r') => getBitsLoop cap n (2 * v + bit.toNat) r'

/-- GetBits (R126); past the end of SRC a fault (S8). -/
def getBits (cap n : Nat) (r : Reader) : Except Fault (Nat × Reader) :=
  if n ≤ remainingBits r then getBitsLoop cap n 0 r else .error .getBitsPastEnd

/-- TailIsZero (R129): the low `RemainingBits()` bits of the staged byte are zero. -/
def tailIsZero (r : Reader) : Except Fault Bool :=
  match stagedByte r with
  | .error f => .error f
  | .ok b => .ok (b &&& BitVec.ofNat 8 (2 ^ remainingBits r - 1) == 0)

/-- The answers of AtBoundary (R131). -/
inductive Boundary where
  | endOfStream
  | truncated
  | token (tag : Bool)
deriving DecidableEq, Repr

/-- AtBoundary (R131): classify what follows the cursor; a tag, once eight bits are there, is read. -/
def atBoundary (cap w l : Nat) (r : Reader) : Except Fault (Boundary × Reader) :=
  if remainingBits r = 0 then .ok (.endOfStream, r)
  else if remainingBits r ≤ 7 then
    match tailIsZero r with
    | .error f => .error f
    | .ok true => .ok (.endOfStream, r)
    | .ok false => .ok (.truncated, r)
  else
    match getBits cap 1 r with
    | .error f => .error f
    | .ok (tag, r') =>
      if remainingBits r' < (if tag = 0 then 8 else w + l) then .ok (.truncated, r')
      else .ok (.token (tag != 0), r')

/-! ### Failures and outcomes -/

/-- `raise` (R193), the one entry of both failures. InvalidParameter writes `STATUS` and is the result; MalformedStream
moves the decoder to FAILED and records the cause, and Finish does the rest. -/
def raise (f : Failure) (s : State) : State :=
  match f with
  | .invalidParameter c => { s with status := statusOf (.invalidParameter c), reply := .err (.invalidParameter c) }
  | .malformedStream c => { s with dec := { s.dec with dstate := .failed, cause := c } }

/-- An operation on the instance is in progress (R64). -/
def State.busy (s : State) : Bool :=
  decide (s.dec.dstate ≠ .idle) || s.enc.running

/-- An output exceeds the platform's OUT_CAP (R150). -/
def exceedsOutCap (p : Platform) (out : List Byte) : Bool :=
  match p.outCap with
  | none => false
  | some cap => decide (cap < out.length)

/-- The outcome of a step that either faults or goes on. -/
def toOutcome : Except Fault State → Host.Outcome State Fault Refusal
  | .ok s => .next s
  | .error f => .fault f

end Sys2Proof.Machine
end

