-- ==== Sys2Proof/Machine/Construct.lean ====
section
/-! DEFINITION. The constructions ENC_INIT, DEC_INIT, DEC_INIT_CAP (40_config). -/

namespace Sys2Proof.Machine

/-- The register writes of a successful ENC_INIT (R102); the staging contents are discarded (R106). -/
def constructEncoder (w l : Nat) (s : State) : State :=
  { s with
    cfg := { role := .encoder, wbits := w, lbits := l, inbufCap := 0, minm := minMatch s.platform w l }
    hist := histConstructed
    reader := { s.reader with stage := [] }
    dec := { s.dec with dstate := .idle }
    status := statusOk
    reply := .okUnit }

/-- The register writes of a successful DEC_INIT_CAP (R104); STAGE's contents are unspecified. -/
def constructDecoder (cap w l : Nat) (s : State) : State :=
  { s with
    cfg := { role := .decoder, wbits := w, lbits := l, inbufCap := cap, minm := 0 }
    hist := histConstructed
    reader := { s.reader with stage := [] }
    dec := { s.dec with dstate := .idle }
    status := statusOk
    reply := .okUnit }

/-- ENC_INIT w, l (R102): refused while an operation is in progress, else InvalidParameter or an Encoder. -/
def execEncInit (w l : Int) (s : State) : Host.Outcome State Fault Refusal :=
  if s.busy then .refused .busy
  else
    match checkConfig w l with
    | some c => .next (raise (.invalidParameter c) s)
    | none => .next (constructEncoder w.toNat l.toNat s)

/-- DEC_INIT_CAP's pseudocode (R104), which DEC_INIT shares. -/
def decoderConstruction (cap w l : Int) (s : State) : Host.Outcome State Fault Refusal :=
  if s.busy then .refused .busy
  else
    match checkDecoder cap w l with
    | some c => .next (raise (.invalidParameter c) s)
    | none => .next (constructDecoder cap.toNat w.toNat l.toNat s)

/-- DEC_INIT w, l (R103): DEC_INIT_CAP with DEFAULT_INBUF. -/
def execDecInit (w l : Int) (s : State) : Host.Outcome State Fault Refusal :=
  decoderConstruction (Config.defaultInbuf : Int) w l s

/-- DEC_INIT_CAP cap, w, l (R104). -/
def execDecInitCap (cap w l : Int) (s : State) : Host.Outcome State Fault Refusal :=
  decoderConstruction cap w l s

end Sys2Proof.Machine
end

