-- ==== Sys2Proof/Machine/Decoder.lean ====
section
/-! DEFINITION. The decoder's state machine and DECODE (43_decoder R160 to R167). -/

namespace Sys2Proof.Machine

/-! ### The effects the token steps share with the token instructions -/

/-- Emit(b): one decoded byte into OUT and into the history (R166). -/
def emit (b : Byte) (s : State) : State :=
  { s with
    dec := { s.dec with out := s.dec.out ++ [b] }
    hist := histPush s.cfg.window b s.hist }

/-- The decoder moves to state `q` (R160). -/
def setDState (q : DState) (s : State) : State :=
  { s with dec := { s.dec with dstate := q } }

/-- What a LIT does once its bits are read (R164). -/
def litEffect (v : Byte) (s : State) : State :=
  setDState .awaitTag (emit v s)

/-- What a REF does once its fields are read: the dangling check, then the registers of the copy (R165, R168). -/
def refEffect (d n : Nat) (s : State) : State :=
  if s.hist.hcount < d then raise (.malformedStream .dangling) s
  else { s with dec := { s.dec with refOff := d, refRem := n, dstate := .copy } }

/-! ### The steps of the state machine -/

/-- AwaitTagStep (R163). -/
def awaitTagStep (s : State) : Except Fault State :=
  match atBoundary s.cfg.inbufCap s.cfg.wbits s.cfg.lbits s.reader with
  | .error f => .error f
  | .ok (.endOfStream, r) => .ok (setDState .drained { s with reader := r })
  | .ok (.truncated, r) => .ok (raise (.malformedStream .truncated) { s with reader := r })
  | .ok (.token false, r) => .ok (setDState .readLit { s with reader := r })
  | .ok (.token true, r) => .ok (setDState .readRef { s with reader := r })

/-- ReadLitStep (R164). -/
def readLitStep (s : State) : Except Fault State :=
  match getBits s.cfg.inbufCap 8 s.reader with
  | .error f => .error f
  | .ok (v, r) => .ok (litEffect (BitVec.ofNat 8 v) { s with reader := r })

/-- ReadRefStep (R165). -/
def readRefStep (s : State) : Except Fault State :=
  match getBits s.cfg.inbufCap s.cfg.wbits s.reader with
  | .error f => .error f
  | .ok (o, r1) =>
    match getBits s.cfg.inbufCap s.cfg.lbits r1 with
    | .error f => .error f
    | .ok (len, r2) => .ok (refEffect (refOffset o) (refLength len) { s with reader := r2 })

/-- CopyStep (R167): one byte, read after the byte before it was pushed. -/
def copyStep (s : State) : Except Fault State :=
  if s.dec.refRem = 0 then .ok (setDState .awaitTag s)
  else
    match histRead s.cfg.window s.dec.refOff s.hist with
    | .error f => .error f
    | .ok b =>
      let t := emit b s
      .ok { t with dec := { t.dec with refRem := t.dec.refRem - 1 } }

/-- DecodeStep: the dispatch on DSTATE (R161). -/
def decodeStep (s : State) : Except Fault State :=
  match s.dec.dstate with
  | .awaitTag => awaitTagStep s
  | .readLit => readLitStep s
  | .readRef => readRefStep s
  | .copy => copyStep s
  | .idle => .error .noDecodeStep
  | .drained => .error .noDecodeStep
  | .failed => .error .noDecodeStep

/-- DSTATE is DRAINED or FAILED, which ends DECODE's loop (R161). -/
def State.decodeEnded (s : State) : Bool :=
  decide (s.dec.dstate = .drained) || decide (s.dec.dstate = .failed)

/-- DECODE's loop (R161), at most `fuel` steps. -/
def decodeLoop : Nat → State → Except Fault State
  | 0, s => if s.decodeEnded then .ok s else .error .stepBoundExceeded
  | fuel + 1, s =>
    if s.decodeEnded then .ok s
    else
      match decodeStep s with
      | .error f => .error f
      | .ok s' => decodeLoop fuel s'

/-- The bound `(3 + LMAX) * |Y| + 1` on the steps of a DECODE (R172). -/
def decodeBound (c : ConfigRegs) (y : List Byte) : Nat := (3 + c.lmax) * y.length + 1

/-- The call start of DECODE (R161). -/
def startDecode (y : List Byte) (s : State) : State :=
  { s with
    reader := readerCallStart y s.reader
    hist := histCallStart s.hist
    dec := { s.dec with out := [], dstate := .awaitTag } }

/-- Finish (R162): `Ok(OUT)` from DRAINED, refused beyond a finite OUT_CAP (R199); else `Err(MalformedStream, cause)`
with nothing of OUT. -/
def finishDecode (s : State) : Host.Outcome State Fault Refusal :=
  if s.dec.dstate = .drained then
    if exceedsOutCap s.platform s.dec.out then .refused .outCapExceeded
    else
      .next { s with
        dec := { s.dec with dstate := .idle }
        status := statusOk
        reply := .okBytes s.dec.out }
  else
    .next { s with
      dec := { s.dec with dstate := .idle, out := [] }
      status := statusOf (.malformedStream s.dec.cause)
      reply := .err (.malformedStream s.dec.cause) }

/-- DECODE Y (R161), one indivisible operation (R64). -/
def execDecode (y : List Byte) (s : State) : Host.Outcome State Fault Refusal :=
  if s.busy then .refused .busy
  else if s.cfg.role ≠ .decoder then .refused .notDecoder
  else
    match decodeLoop (decodeBound s.cfg y) (startDecode y s) with
    | .error f => .fault f
    | .ok t => finishDecode t

end Sys2Proof.Machine
end

