-- ==== Sys2Proof/Machine/Encoder.lean ====
section
/-! DEFINITION. The encoder: match search, token emission, EncodeStep and ENCODE (42_encoder). -/

namespace Sys2Proof.Machine

/-! ### Match search -/

/-- `Src(d, k)`, the byte a REF of offset `d` would copy into position `IPOS + k`, in a window of `n` bytes (R142). -/
def matchSource (n : Nat) (h : History) (e : EncoderRegs) (d k : Nat) : Except Fault Byte :=
  if k < d then histRead n (d - k) h
  else
    match e.input[e.ipos + k - d]? with
    | some b => .ok b
    | none => .error .inputOutOfRange

/-- FindMatch's inner loop: the length of the match at offset `d`, from `len` on, at most `fuel` bytes more (R145). -/
def matchFrom (n : Nat) (h : History) (e : EncoderRegs) (d : Nat) : Nat → Nat → Except Fault Nat
  | 0, len => .ok len
  | fuel + 1, len =>
    match matchSource n h e d len with
    | .error f => .error f
    | .ok b =>
      match e.input[e.ipos + len]? with
      | none => .error .inputOutOfRange
      | some c => if b = c then matchFrom n h e d fuel (len + 1) else .ok len

/-- `maxlen`, the bound of a match at `IPOS` (R145). -/
def maxMatch (lmax : Nat) (e : EncoderRegs) : Nat := min lmax (e.input.length - e.ipos)

/-- FindMatch's outer loop over `count` offsets from `d` up; only a longer match replaces the best (R145). -/
def searchFrom (n lmax : Nat) (h : History) (e : EncoderRegs) : Nat → Nat → Nat × Nat → Except Fault (Nat × Nat)
  | 0, _, best => .ok best
  | count + 1, d, best =>
    match matchFrom n h e d (maxMatch lmax e) 0 with
    | .error f => .error f
    | .ok len => searchFrom n lmax h e count (d + 1) (if best.2 < len then (d, len) else best)

/-- FindMatch: the offset and length of the longest match, the smallest offset among equals, `(0, 0)` if no byte matches
(R145). -/
def findMatch (n lmax : Nat) (h : History) (e : EncoderRegs) : Except Fault (Nat × Nat) :=
  searchFrom n lmax h e h.hcount 1 (0, 0)

/-! ### Token emission (R146) -/

/-- EmitLit(b). -/
def emitLit (b : Byte) (w : Writer) : Except Fault Writer :=
  match putBits 0 1 w with
  | .error f => .error f
  | .ok w1 => putBits b.toNat 8 w1

/-- EmitRef(d, n), for `1 <= d <= N` and `1 <= n <= LMAX`. -/
def emitRef (c : ConfigRegs) (d n : Nat) (w : Writer) : Except Fault Writer :=
  if 1 ≤ d ∧ d ≤ c.window ∧ 1 ≤ n ∧ n ≤ c.lmax then
    match putBits 1 1 w with
    | .error f => .error f
    | .ok w1 =>
      match putBits (offsetField d) c.wbits w1 with
      | .error f => .error f
      | .ok w2 => putBits (lengthField n) c.lbits w2
  else .error .emitRefOutOfRange

/-! ### EncodeStep and ENCODE -/

/-- The REF arm of EncodeStep for the match `(d, n)` (R144, R147). -/
def encodeRef (d n : Nat) (s : State) : Except Fault State :=
  match emitRef s.cfg d n s.writer with
  | .error f => .error f
  | .ok w =>
    .ok { s with
      writer := w
      hist := histPushAll s.cfg.window ((s.enc.input.drop s.enc.ipos).take n) s.hist
      enc := { s.enc with ipos := s.enc.ipos + n } }

/-- The LIT arm of EncodeStep for the byte `b` at `IPOS` (R144, R147). -/
def encodeLit (b : Byte) (s : State) : Except Fault State :=
  match emitLit b s.writer with
  | .error f => .error f
  | .ok w =>
    .ok { s with
      writer := w
      hist := histPush s.cfg.window b s.hist
      enc := { s.enc with ipos := s.enc.ipos + 1 } }

/-- EncodeStep (R144), with its precondition `IPOS < |IN|`. -/
def encodeStep (s : State) : Except Fault State :=
  match s.enc.input[s.enc.ipos]? with
  | none => .error .inputOutOfRange
  | some b =>
    match findMatch s.cfg.window s.cfg.lmax s.hist s.enc with
    | .error f => .error f
    | .ok (off, len) =>
      let s1 := { s with enc := { s.enc with matchOff := off, matchLen := len } }
      if s.cfg.minm ≤ len then encodeRef off len s1 else encodeLit b s1

/-- ENCODE's loop, `while IPOS < |IN|`, under the bound of R144. -/
def encodeLoop : Nat → State → Except Fault State
  | 0, s => if s.enc.ipos < s.enc.input.length then .error .stepBoundExceeded else .ok s
  | fuel + 1, s =>
    if s.enc.ipos < s.enc.input.length then
      match encodeStep s with
      | .error f => .error f
      | .ok s' => encodeLoop fuel s'
    else .ok s

/-- The call start of ENCODE (R141). -/
def startEncode (x : List Byte) (s : State) : State :=
  { s with
    enc := { input := x, ipos := 0, matchOff := 0, matchLen := 0, running := true }
    hist := histCallStart s.hist
    writer := writerCleared }

/-- The end of ENCODE: FlushBits, `STATUS` 0, `Ok(OUT)` (R141); refused beyond a finite OUT_CAP (R150). -/
def finishEncode (s : State) : Host.Outcome State Fault Refusal :=
  if exceedsOutCap s.platform (flushBits s.writer).out then .refused .outCapExceeded
  else
    .next { s with
      writer := flushBits s.writer
      enc := { s.enc with running := false }
      status := statusOk
      reply := .okBytes (flushBits s.writer).out }

/-- ENCODE X (R141), one indivisible operation (R64). -/
def execEncode (x : List Byte) (s : State) : Host.Outcome State Fault Refusal :=
  if s.busy then .refused .busy
  else if s.cfg.role ≠ .encoder then .refused .notEncoder
  else
    match encodeLoop x.length (startEncode x s) with
    | .error f => .fault f
    | .ok t => finishEncode t

/-- One step of an ENCODE in progress: the next EncodeStep, or the end of the operation (R141). -/
def continueEncode (s : State) : Host.Outcome State Fault Refusal :=
  if s.enc.ipos < s.enc.input.length then toOutcome (encodeStep s) else finishEncode s

end Sys2Proof.Machine
end

