-- ==== Sys2Proof/Machine/Reserved.lean ====
section
/-! DEFINITION. The reserved command codes (30_encoding R80, 60_exceptions R199). -/

namespace Sys2Proof.Machine

/-- RESERVED_CMD (R80): the request is refused, the block changes no state and writes no STATUS. -/
def execReservedCmd (code : Byte) (_s : State) : Host.Outcome State Fault Refusal :=
  .refused (.reservedCommand code)

end Sys2Proof.Machine
end

