-- ==== Sys2Proof/Machine/Token.lean ====
section
/-! DEFINITION. The token instructions LIT, REF, END as whole instructions (43_decoder R164, R165, R170): each runs from a
token boundary of a DECODE in progress to the next one, or ends the DECODE. The cursor advances through the reader, so
staging and refills happen as in the state machine (R126, R128). -/

namespace Sys2Proof.Machine

/-- A DECODE stands at a token boundary, the only place a token executes (R163). -/
def State.atTokenBoundary (s : State) : Bool :=
  decide (s.cfg.role = .decoder) && decide (s.dec.dstate = .awaitTag)

/-- Read the tag of a token that needs `need` bits after it, and tell whether all of them are there (R131, R163). -/
def takeTag (cap need : Nat) (r : Reader) : Except Fault (Bool × Reader) :=
  if remainingBits r ≤ 7 then .ok (false, r)
  else
    match getBits cap 1 r with
    | .error f => .error f
    | .ok (_, r') => .ok (decide (need ≤ remainingBits r'), r')

/-- A truncated token ends the DECODE (R163, R193). -/
def truncatedToken (s : State) : Host.Outcome State Fault Refusal :=
  finishDecode (raise (.malformedStream .truncated) s)

/-- The copy of a REF, at most `fuel` CopySteps, until DSTATE leaves COPY (R167). -/
def copyLoop : Nat → State → Except Fault State
  | 0, s => if s.dec.dstate = .copy then .error .stepBoundExceeded else .ok s
  | fuel + 1, s =>
    if s.dec.dstate = .copy then
      match copyStep s with
      | .error f => .error f
      | .ok s' => copyLoop fuel s'
    else .ok s

/-- LIT v (R164). -/
def execLit (v : Byte) (s : State) : Host.Outcome State Fault Refusal :=
  if s.atTokenBoundary then
    match takeTag s.cfg.inbufCap 8 s.reader with
    | .error f => .fault f
    | .ok (false, r) => truncatedToken { s with reader := r }
    | .ok (true, r) =>
      match getBits s.cfg.inbufCap 8 r with
      | .error f => .fault f
      | .ok (_, r') => .next (litEffect v { s with reader := r' })
  else .refused .tokenOutsideDecode

/-- What follows a REF's dangling check: the whole copy, or the end of the DECODE (R165). -/
def runRef (n : Nat) (s : State) : Host.Outcome State Fault Refusal :=
  if s.dec.dstate = .failed then finishDecode s else toOutcome (copyLoop (n + 1) s)

/-- REF d, n (R165, R167, R168). -/
def execRef (d n : Nat) (s : State) : Host.Outcome State Fault Refusal :=
  if s.atTokenBoundary then
    match takeTag s.cfg.inbufCap (s.cfg.wbits + s.cfg.lbits) s.reader with
    | .error f => .fault f
    | .ok (false, r) => truncatedToken { s with reader := r }
    | .ok (true, r) =>
      match getBits s.cfg.inbufCap s.cfg.wbits r with
      | .error f => .fault f
      | .ok (_, r1) =>
        match getBits s.cfg.inbufCap s.cfg.lbits r1 with
        | .error f => .fault f
        | .ok (_, r2) => runRef n (refEffect d n { s with reader := r2 })
  else .refused .tokenOutsideDecode

/-- END (R170): DRAINED, then Finish. -/
def execEndOfStream (s : State) : Host.Outcome State Fault Refusal :=
  if s.atTokenBoundary then finishDecode (setDState .drained s) else .refused .tokenOutsideDecode

end Sys2Proof.Machine
end

