-- ==== Sys2Proof/Machine/Dispatch.lean ====
section
/-! DEFINITION. The dispatch: one arm per row of spec/opcode_table.json. -/

namespace Sys2Proof.Machine

def exec (i : Instr) (s : State) : Host.Outcome State Fault Refusal :=
  match i with
  | .lit v => Sys2Proof.Machine.execLit v s
  | .ref d n => Sys2Proof.Machine.execRef d n s
  | .endOfStream => Sys2Proof.Machine.execEndOfStream s
  | .encInit w l => Sys2Proof.Machine.execEncInit w l s
  | .decInit w l => Sys2Proof.Machine.execDecInit w l s
  | .decInitCap cap w l => Sys2Proof.Machine.execDecInitCap cap w l s
  | .encode x => Sys2Proof.Machine.execEncode x s
  | .decode y => Sys2Proof.Machine.execDecode y s
  | .reservedCmd code => Sys2Proof.Machine.execReservedCmd code s

end Sys2Proof.Machine
end

