-- ==== Sys2Proof/Machine/Fetch.lean ====
section
/-! DEFINITION. What the next step does: the token at the reader cursor of a DECODE in progress (43_decoder R163), the
operation in progress, or the host's next request (60_exceptions R204); and how a word of the opcode table is placed where
the next step fetches it. -/

namespace Sys2Proof.Machine

/-- The bytes of STAGE not yet consumed, the one the cursor is in first (R29). -/
def stagedBytes (r : Reader) : List Byte :=
  (List.range (r.fill - r.rd)).filterMap (fun i => Memory.read stageUnlisted r.stage (r.rd + i))

/-- The stream bits not yet read: the rest of STAGE, then what SRC still holds (R125, R127). -/
def pendingBits (r : Reader) : List Bool :=
  (streamBits (stagedBytes r)).drop r.bitOff ++ streamBits (r.src.drop r.srcPos)

/-- What a step does. -/
inductive Fetched where
  /-- It runs an instruction in a state. -/
  | run (i : Instr) (s : State)
  /-- It has no instruction to run; this is its outcome. -/
  | other (o : Host.Outcome State Fault Refusal)

/-- A token boundary with a truncated token: the tag, if eight bits are left, is read, and the DECODE fails (R131, R163). -/
def truncatedFetch (s : State) : Host.Outcome State Fault Refusal :=
  match takeTag s.cfg.inbufCap 0 s.reader with
  | .error f => .fault f
  | .ok (_, r) => truncatedToken { s with reader := r }

/-- The token at the reader cursor (R163). -/
def fetchToken (s : State) : Fetched :=
  match decodeToken s.cfg.wbits s.cfg.lbits (pendingBits s.reader) with
  | .token i _ => .run i s
  | .truncated => .other (truncatedFetch s)

/-- The host's next request, taken off the list; with none the block waits (R223). -/
def fetchRequest (s : State) : Fetched :=
  match s.requests with
  | [] => .other (.next s)
  | r :: rest =>
    match decodeRequest r with
    | .ok i => .run i { s with requests := rest }
    | .error _ => .other (.refused .badOperands)

/-- What the next step does, by what is in progress: a DECODE at a token boundary, inside a token or at its end (R160), an
ENCODE (R141), or nothing. -/
def fetch (s : State) : Fetched :=
  match s.dec.dstate with
  | .awaitTag => fetchToken s
  | .readLit => .other (toOutcome (decodeStep s))
  | .readRef => .other (toOutcome (decodeStep s))
  | .copy => .other (toOutcome (decodeStep s))
  | .drained => .other (finishDecode s)
  | .failed => .other (finishDecode s)
  | .idle => if s.enc.running then .other (continueEncode s) else fetchRequest s

/-- Nothing is in progress. -/
def State.settled (s : State) : State :=
  { s with dec := { s.dec with dstate := .idle }, enc := { s.enc with running := false } }

/-- The slot holds what a request's command is admitted on (R224): ENCODE an Encoder, DECODE a Decoder; a slot that does
not is constructed with the opcode table's `W = 8, L = 4`. -/
def prepareSlot (r : Request) (s : State) : State :=
  if r.cmd = 0x04 ∧ s.cfg.role ≠ .encoder then constructEncoder tableW tableL s
  else if r.cmd = 0x05 ∧ s.cfg.role ≠ .decoder then constructDecoder Config.defaultInbuf tableW tableL s
  else s

/-- A word of the opcode table, placed where the next step fetches it: a command as the host's next request; a token as
the whole stream of a DECODE just begun on a Decoder of the table's `W = 8, L = 4`. -/
def placeWord (nbits w : Nat) (s : State) : State :=
  match tableWire nbits w with
  | none => s
  | some (.request r) =>
    let t := prepareSlot r s.settled
    { t with requests := r :: t.requests }
  | some (.bits bs) => startDecode (pack bs) (constructDecoder Config.defaultInbuf tableW tableL s.settled)

end Sys2Proof.Machine
end

