-- ==== Sys2Proof/Machine/Step.lean ====
section
/-! DEFINITION. One step of the block: fetch, then run (43_decoder R163, 60_exceptions R204). -/

namespace Sys2Proof.Machine

/-- One step: the instruction fetched is run; with none to run, the step is what the fetch says. -/
def step (s : State) : Host.Outcome State Fault Refusal :=
  match fetch s with
  | .run i t => exec i t
  | .other o => o

/-- The state with a word of the opcode table where `step` fetches its next instruction. -/
def State.withFetchWord (s : State) (nbits w : Nat) : State :=
  placeWord nbits w s

end Sys2Proof.Machine
end

