-- ==== Sys2Proof/Machine/System.lean ====
section
/-! DEFINITION. A system of several instances: copies of the block with disjoint state and independent steps (10_state
R20, 20_memory R65, 60_exceptions R202). -/

namespace Sys2Proof.Machine

/-- Instance `k` of the system takes one step; with no such instance nothing does. -/
def systemStep (k : Nat) (ss : List State) : Host.Outcome (List State) Fault Refusal :=
  match ss[k]? with
  | none => .next ss
  | some s =>
    match step s with
    | .next t => .next (ss.set k t)
    | .fault f => .fault f
    | .refused r => .refused r

end Sys2Proof.Machine
end

