-- ==== Sys2Proof/Safety.lean ====
section
/-! DEFINITION. The terms claims are stated in: the invariant of the block's registers, a safe outcome, and the reference
meaning of a stream and of the greedy parse, written over plain lists with no register, window buffer or staging. -/

namespace Sys2Proof.Machine

/-! ### The invariant -/

/-- The configuration registers hold what a construction writes, or power-on values, within their widths (R22, R23). -/
def ConfigRegs.wf (c : ConfigRegs) : Prop :=
  (c.role = .none → c.wbits < 2 ^ 4 ∧ c.lbits < 2 ^ 4 ∧ c.inbufCap < 2 ^ 16 ∧ c.minm < 2 ^ 15) ∧
    (c.role = .encoder → LegalConfig c.wbits c.lbits ∧ c.inbufCap = 0 ∧ 1 ≤ c.minm ∧ c.minm ≤ c.lmax) ∧
    (c.role = .decoder →
      LegalConfig c.wbits c.lbits ∧ 1 ≤ c.inbufCap ∧ c.inbufCap ≤ Config.capMax ∧ c.minm = 0)
deriving Decidable

/-- The words STATUS ever holds: OK, the four InvalidParameter causes, the two MalformedStream causes (R24, R191). -/
def statusWords : List (BitVec 8) := [0x00, 0x05, 0x09, 0x0D, 0x11, 0x06, 0x0A]

/-- The history buffer: canonical cells inside `0..N-1`, `HEAD < N`, `HCOUNT <= N`, and until the window is full the next
push goes to the entry after the last one (R26, R52, R54). -/
def History.wf (n : Nat) (h : History) : Prop :=
  Memory.wf hbufUnlisted h.hbuf ∧ (∀ c ∈ h.hbuf, c.1 < n) ∧ h.head < n ∧ h.hcount ≤ n ∧
    (h.hcount < n → h.head = h.hcount)
deriving Decidable

/-- The bit writer: fewer than eight bits are held, and nothing above them (R28). -/
def Writer.wf (w : Writer) : Prop :=
  w.nbits < 8 ∧ w.acc.toNat < 2 ^ w.nbits
deriving Decidable

/-- The staging buffer's cells are canonical and inside `0..INBUF_CAP-1`; the reader's registers keep their widths (R29). -/
def Reader.wf (cap : Nat) (r : Reader) : Prop :=
  Memory.wf stageUnlisted r.stage ∧ (∀ c ∈ r.stage, c.1 < cap) ∧ r.fill < 2 ^ 17 ∧ r.rd < 2 ^ 17 ∧ r.bitOff < 8
deriving Decidable

/-- The reader of a DECODE in progress: its cursor lies inside what is staged, and STAGE holds the bytes of SRC that end
at `SRC_POS` (R29, R125, R128). -/
def Reader.coherent (cap : Nat) (r : Reader) : Prop :=
  r.bitOff < 8 ∧ r.rd ≤ r.fill ∧ r.fill ≤ cap ∧ r.fill ≤ r.srcPos ∧ r.srcPos ≤ r.src.length ∧
    (0 < r.bitOff → r.rd < r.fill) ∧
    ∀ i ∈ List.range r.fill, Memory.read stageUnlisted r.stage i = r.src[r.srcPos - r.fill + i]?
deriving Decidable

/-- The window holds the last `min(|out|, N)` bytes of `out`: what HistRead answers for each valid offset (R54, R166). -/
def History.holds (n : Nat) (out : List Byte) (h : History) : Prop :=
  h.hcount = min out.length n ∧ h.head = out.length % n ∧
    ∀ d ∈ List.range (h.hcount + 1), 1 ≤ d → (histRead n d h).toOption = out[out.length - d]?
deriving Decidable

/-- What a DECODE in progress keeps: a Decoder, a coherent reader, a window of its own output, and in each DSTATE the
bits or the offset that state relies on (R163, R166, R167). -/
def State.decoding (s : State) : Prop :=
  s.dec.dstate ≠ .idle →
    s.cfg.role = .decoder ∧ s.enc.running = false ∧ Reader.coherent s.cfg.inbufCap s.reader ∧
      History.holds s.cfg.window s.dec.out s.hist ∧
      (s.dec.dstate = .readLit → 8 ≤ remainingBits s.reader) ∧
      (s.dec.dstate = .readRef → s.cfg.wbits + s.cfg.lbits ≤ remainingBits s.reader) ∧
      (s.dec.dstate = .copy → 1 ≤ s.dec.refOff ∧ s.dec.refOff ≤ s.hist.hcount ∧ s.dec.refRem ≤ s.cfg.lmax)
deriving Decidable

/-- What an ENCODE in progress keeps: an Encoder, `IPOS <= |IN|`, a window of the input consumed, match registers in
their ranges (R27, R33, R147). -/
def State.encoding (s : State) : Prop :=
  s.enc.running = true →
    s.cfg.role = .encoder ∧ s.enc.ipos ≤ s.enc.input.length ∧
      History.holds s.cfg.window (s.enc.input.take s.enc.ipos) s.hist ∧
      s.enc.matchOff ≤ s.cfg.window ∧ s.enc.matchLen ≤ s.cfg.lmax
deriving Decidable

/-- The invariant of the block. -/
def State.Inv (s : State) : Prop :=
  s.cfg.wf ∧ s.status ∈ statusWords ∧ s.hist.wf s.cfg.window ∧ s.writer.wf ∧ s.reader.wf s.cfg.inbufCap ∧
    s.decoding ∧ s.encoding
deriving Decidable

/-- The slot holds an idle Encoder, which admits an ENCODE (R141). -/
def State.readyToEncode (s : State) : Prop :=
  s.Inv ∧ s.busy = false ∧ s.cfg.role = .encoder
deriving Decidable

/-- The slot holds an idle Decoder, which admits a DECODE (R161). -/
def State.readyToDecode (s : State) : Prop :=
  s.Inv ∧ s.busy = false ∧ s.cfg.role = .decoder
deriving Decidable

/-- An output does not exceed the platform's OUT_CAP, if it has one (R8, R150, R199). -/
def Platform.admits (p : Platform) (out : List Byte) : Prop :=
  ∀ cap ∈ p.outCap, out.length ≤ cap
deriving Decidable

/-- The outcome is no model fault: the step goes on, or the request is refused. -/
def Safe (o : Host.Outcome State Fault Refusal) : Prop :=
  match o with
  | .next _ => True
  | .fault _ => False
  | .refused _ => True

/-! ### Reference meanings -/

/-- `n` bytes copied from `d` back of the end of `out`, each after the one before it was appended (R167). -/
def copyBytes (d : Nat) : Nat → List Byte → List Byte
  | 0, out => out
  | n + 1, out => copyBytes d n (out ++ [out.getD (out.length - d) 0])

/-- The meaning of what follows a token boundary, after the output `out`, at most `fuel` tokens (R163 to R170). -/
def decodeTokens (W L : Nat) : Nat → List Bool → List Byte → Except MalformedCause (List Byte)
  | 0, _, _ => .error .truncated
  | fuel + 1, bits, out =>
    match decodeToken W L bits with
    | .truncated => .error .truncated
    | .token (.lit v) rest => decodeTokens W L fuel rest (out ++ [v])
    | .token (.ref d n) rest =>
      if out.length < d then .error .dangling else decodeTokens W L fuel rest (copyBytes d n out)
    | .token _ _ => .ok out

/-- The meaning of a whole stream: the bytes DECODE returns, or the cause it fails with (R161, R171). -/
def decodeStream (W L : Nat) (y : List Byte) : Except MalformedCause (List Byte) :=
  decodeTokens W L (8 * y.length + 1) (streamBits y) []

/-- The length of the match of offset `d` at position `p` of `x`, at most `fuel` bytes (R142, R145). -/
def matchLength (x : List Byte) (p d : Nat) : Nat → Nat → Nat
  | 0, len => len
  | fuel + 1, len => if x[p + len - d]? = x[p + len]? then matchLength x p d fuel (len + 1) else len

/-- The best of the offsets `d`, `d + 1`, … (`count` of them) at position `p`, the smallest among equals (R145). -/
def bestMatch (x : List Byte) (p maxlen : Nat) : Nat → Nat → Nat × Nat → Nat × Nat
  | 0, _, best => best
  | count + 1, d, best =>
    let len := matchLength x p d maxlen 0
    bestMatch x p maxlen count (d + 1) (if best.2 < len then (d, len) else best)

/-- The longest match at position `p` of `x` in a window of `2^W` bytes, with a length of at most `2^L` (R145, R147). -/
def longestMatch (W L : Nat) (x : List Byte) (p : Nat) : Nat × Nat :=
  bestMatch x p (min (2 ^ L) (x.length - p)) (min p (2 ^ W)) 1 (0, 0)

/-- The greedy parse of `x` from position `p` with threshold `minm`, at most `fuel` tokens (R140, R144). -/
def greedyFrom (W L minm : Nat) (x : List Byte) : Nat → Nat → List Instr
  | 0, _ => []
  | fuel + 1, p =>
    match x[p]? with
    | none => []
    | some b =>
      if minm ≤ (longestMatch W L x p).2 then
        .ref (longestMatch W L x p).1 (longestMatch W L x p).2 ::
          greedyFrom W L minm x fuel (p + (longestMatch W L x p).2)
      else .lit b :: greedyFrom W L minm x fuel (p + 1)

/-- The tokens ENCODE emits for `x` (R140, R149). -/
def greedyTokens (W L minm : Nat) (x : List Byte) : List Instr :=
  greedyFrom W L minm x x.length 0

/-- The stream the Encoder in the slot makes of `x`: the framed greedy parse under its configuration (R75, R140). -/
def State.greedyStream (s : State) (x : List Byte) : List Byte :=
  assemble s.cfg.wbits s.cfg.lbits (greedyTokens s.cfg.wbits s.cfg.lbits s.cfg.minm x)

/-- The output of a DECODE of `y`, if the stream has one, does not exceed the platform's OUT_CAP (R199; that a stream with
a malformation is never refused for it is the model's choice, log entry 11). -/
def State.decodeFits (s : State) (y : List Byte) : Prop :=
  ∀ out ∈ (decodeStream s.cfg.wbits s.cfg.lbits y).toOption, s.platform.admits out
deriving Decidable

end Sys2Proof.Machine
end

