-- ==== Sys2Proof/Certificates/Slice0/Obligations.lean ====
section
/-! DEFINITION. The statements for the provers. Each docstring names the rule of spec/ it formalises. -/

open Sys2Proof Sys2Proof.Machine

/-! ### Encoding (30_encoding) -/

/-- R78, R79: words written out from the spec's formats decode to the instructions they stand for. -/
def Obligations.SpecWordsDecode : Prop :=
  decode 8 4 (.bits [false, false, true, true, false, false, false, false, true]) = .ok (.lit 0x61) ∧
    decode 8 4 (.bits [true, false, false, false, false, false, false, false, true, false, false, true, true]) =
      .ok (.ref 2 4) ∧
    decode 4 3 (.bits [true, true, true, true, true, false, false, false]) = .ok (.ref 16 1) ∧
    decode 8 4 (.bits [false, false, false, false, false, false, false]) = .ok .endOfStream ∧
    decode 8 4 (.request { cmd := 0x03, args := [.int 64, .int 8, .int 4] }) = .ok (.decInitCap 64 8 4) ∧
    decode 8 4 (.request { cmd := 0x05, args := [.bytes [0x30, 0x80]] }) = .ok (.decode [0x30, 0x80]) ∧
    decode 8 4 (.request { cmd := 0x07, args := [] }) = .ok (.reservedCmd 0x07)

/-- R71 to R74: the token decoder reads back every well-formed LIT and REF, whatever follows it. -/
def Obligations.TokenDecodeOfEncode : Prop :=
  ∀ (W L : Nat) (i : Instr) (rest : List Bool), LegalConfig W L → i.isToken = true → i.wf W L = true →
    decodeToken W L (tokenBits W L i ++ rest) = .token i rest

/-- R71 to R73, R76, R79, R80: decoding the encoding of a well-formed instruction gives it back. -/
def Obligations.DecodeOfEncode : Prop :=
  ∀ (W L : Nat) (i : Instr), LegalConfig W L → i.wf W L = true → decode W L (encode W L i) = .ok i

/-- R71 to R74, R77: a token the decoder reads is well-formed, and the bits it was read from are its encoding. -/
def Obligations.TokenEncodeOfDecode : Prop :=
  ∀ (W L : Nat) (bits rest : List Bool) (i : Instr), i.isToken = true → decodeToken W L bits = .token i rest →
    i.wf W L = true ∧ bits = tokenBits W L i ++ rest

/-- R76: a token boundary is END exactly when no bit remains, or one to seven remain and all are 0; END takes no bits. -/
def Obligations.EndOfStreamCondition : Prop :=
  ∀ (W L : Nat) (bits rest : List Bool),
    decodeToken W L bits = .token .endOfStream rest ↔
      rest = bits ∧ (bits.length = 0 ∨ 1 ≤ bits.length ∧ bits.length ≤ 7 ∧ ∀ b ∈ bits, b = false)

/-- R70: the bit order of bytes and of fields. -/
def Obligations.StreamBitOrder : Prop :=
  (∀ (bs : List Byte) (k : Nat), k < 8 * bs.length →
      (streamBits bs)[k]? = (bs[k / 8]?).map (fun b => b.getLsbD (7 - k % 8))) ∧
    ∀ (v n i : Nat), i < n → (fieldBits v n)[i]? = some (v.testBit (n - 1 - i))

/-- R75: a complete stream is the tokens' bits and zero padding to the byte boundary, with nothing else. -/
def Obligations.StreamFraming : Prop :=
  ∀ (W L : Nat) (toks : List Instr),
    let T := (tokensBits W L toks).length
    streamBits (assemble W L toks) = tokensBits W L toks ++ List.replicate ((8 - T % 8) % 8) false ∧
      (assemble W L toks).length = (T + 7) / 8 ∧ assemble W L [] = []

/-! ### The history buffer (20_memory) -/

/-- R54: after pushes from a call start, HCOUNT, HEAD and every HistRead are those of the most recent N bytes. -/
def Obligations.HistoryHoldsRecentBytes : Prop :=
  ∀ (w : Nat) (bs : List Byte) (h : History), Memory.wf hbufUnlisted h.hbuf →
    let n := 2 ^ w
    let h' := histPushAll n bs (histCallStart h)
    h'.hcount = min bs.length n ∧ h'.head = bs.length % n ∧
      ∀ d, 1 ≤ d → d ≤ h'.hcount → ∃ b, bs[bs.length - d]? = some b ∧ histRead n d h' = .ok b

/-- R52: one push writes HBUF[HEAD] and no other entry, advances HEAD modulo N, and counts up to N. -/
def Obligations.HistPushWritesOneEntry : Prop :=
  ∀ (w : Nat) (b : Byte) (h : History), Memory.wf hbufUnlisted h.hbuf →
    let n := 2 ^ w
    let h' := histPush n b h
    Memory.read hbufUnlisted h'.hbuf h.head = some b ∧
      (∀ a, a ≠ h.head → Memory.read hbufUnlisted h'.hbuf a = Memory.read hbufUnlisted h.hbuf a) ∧
      h'.head = (h.head + 1) % n ∧ h'.hcount = min (h.hcount + 1) n

/-! ### The bit writer and the bit reader (41_bit_io) -/

/-- R123: PutBits calls that write the bits `B`, and one FlushBits, leave `ceil(T / 8)` bytes whose first `T` stream bits
are `B` and whose other bits are 0. -/
def Obligations.WriterFraming : Prop :=
  ∀ fields : List (Nat × Nat), (∀ f ∈ fields, f.1 < 2 ^ f.2) →
    let B := fields.flatMap (fun f => fieldBits f.1 f.2)
    ∃ w, fields.foldlM (fun w f => putBits f.1 f.2 w) writerCleared = .ok w ∧
      (flushBits w).out.length = (B.length + 7) / 8 ∧
      (streamBits (flushBits w).out).take B.length = B ∧
      ∀ b ∈ (streamBits (flushBits w).out).drop B.length, b = false

/-- R125 to R127, R130: from a coherent reader of any capacity, GetBits reads the next `n` bits of the stream, most
significant first, and advances the cursor by `n`; RemainingBits is what the cursor leaves. -/
def Obligations.GetBitsReadsTheStream : Prop :=
  ∀ (cap n : Nat) (r : Reader), 1 ≤ cap → r.coherent cap → n ≤ remainingBits r →
    remainingBits r = (streamBits r.src).length - readCursor r ∧ readCursor r ≤ (streamBits r.src).length ∧
      ∃ r', getBits cap n r = .ok (bitsToNat (((streamBits r.src).drop (readCursor r)).take n), r') ∧
        readCursor r' = readCursor r + n ∧ r'.src = r.src ∧ r'.coherent cap

/-- R131: AtBoundary of a coherent reader classifies the bits after the cursor as the token decoder does, and reads no
more than the tag. -/
def Obligations.AtBoundaryClassifies : Prop :=
  ∀ (cap W L : Nat) (r : Reader), 1 ≤ cap → r.coherent cap →
    match decodeToken W L ((streamBits r.src).drop (readCursor r)) with
    | .truncated => ∃ r', atBoundary cap W L r = .ok (.truncated, r')
    | .token (.lit _) _ =>
      ∃ r', atBoundary cap W L r = .ok (.token false, r') ∧ readCursor r' = readCursor r + 1 ∧ r'.coherent cap
    | .token (.ref _ _) _ =>
      ∃ r', atBoundary cap W L r = .ok (.token true, r') ∧ readCursor r' = readCursor r + 1 ∧ r'.coherent cap
    | .token _ _ => atBoundary cap W L r = .ok (.endOfStream, r)

/-- R125: what the fetch decodes, the rest of STAGE and then of SRC, is the stream after the cursor. -/
def Obligations.FetchSeesTheStream : Prop :=
  ∀ (cap : Nat) (r : Reader), r.coherent cap → pendingBits r = (streamBits r.src).drop (readCursor r)

/-! ### Construction (40_config) -/

/-- R102: ENC_INIT with a legal configuration, in any slot that is not busy, makes an Encoder: its registers, a zero-filled
empty history, DSTATE IDLE, STATUS 0; the host's requests and the platform are as before. -/
def Obligations.EncInitMakesAnEncoder : Prop :=
  ∀ (w l : Nat) (s : State), LegalConfig w l → s.busy = false →
    ∃ t, exec (.encInit w l) s = .next t ∧
      t.cfg = { role := .encoder, wbits := w, lbits := l, inbufCap := 0, minm := minMatch s.platform w l } ∧
      (∀ a, Memory.read hbufUnlisted t.hist.hbuf a = some 0) ∧ t.hist.head = 0 ∧ t.hist.hcount = 0 ∧
      t.dec.dstate = .idle ∧ t.status = 0 ∧ t.reply = .okUnit ∧ t.requests = s.requests ∧ t.platform = s.platform

/-- R103, R104: DEC_INIT_CAP with a legal configuration and capacity, in any slot that is not busy, makes a Decoder; DEC_INIT
makes one of capacity 256. -/
def Obligations.DecInitMakesADecoder : Prop :=
  ∀ (cap w l : Nat) (s : State), LegalConfig w l → 1 ≤ cap → cap ≤ 65535 → s.busy = false →
    (∃ t, exec (.decInitCap cap w l) s = .next t ∧
      t.cfg = { role := .decoder, wbits := w, lbits := l, inbufCap := cap, minm := 0 } ∧
      (∀ a, Memory.read hbufUnlisted t.hist.hbuf a = some 0) ∧ t.hist.head = 0 ∧ t.hist.hcount = 0 ∧
      t.dec.dstate = .idle ∧ t.status = 0 ∧ t.reply = .okUnit ∧ t.requests = s.requests ∧ t.platform = s.platform) ∧
    ∃ t, exec (.decInit w l) s = .next t ∧
      t.cfg = { role := .decoder, wbits := w, lbits := l, inbufCap := 256, minm := 0 } ∧
      (∀ a, Memory.read hbufUnlisted t.hist.hbuf a = some 0) ∧ t.hist.head = 0 ∧ t.hist.hcount = 0 ∧
      t.dec.dstate = .idle ∧ t.status = 0 ∧ t.reply = .okUnit ∧ t.requests = s.requests ∧ t.platform = s.platform

/-- The model's choice of log entry 5, not the spec's (R220 promises nothing): what a construction does not write keeps its
value. -/
def Obligations.ConstructionKeepsTheRest : Prop :=
  ∀ (i : Instr) (s t : State),
    (∃ w l, i = .encInit w l) ∨ (∃ w l, i = .decInit w l) ∨ (∃ cap w l, i = .decInitCap cap w l) →
    exec i s = .next t →
      t.enc = s.enc ∧ t.writer = s.writer ∧ t.dec.refOff = s.dec.refOff ∧ t.dec.refRem = s.dec.refRem ∧
        t.dec.out = s.dec.out ∧ t.dec.cause = s.dec.cause ∧ t.reader.src = s.reader.src ∧
        t.reader.srcPos = s.reader.srcPos ∧ t.reader.fill = s.reader.fill ∧ t.reader.rd = s.reader.rd ∧
        t.reader.bitOff = s.reader.bitOff

/-- R101, R105: a construction with operands that fail a test, in the order of the tests, changes STATUS and nothing else
of the block (the host's reply apart). -/
def Obligations.FailedConstructionChangesOnlyStatus : Prop :=
  ∀ (cap w l : Int) (s : State), s.busy = false →
    let fails (i : Instr) (word : BitVec 8) (c : InvalidCause) : Prop :=
      exec i s = .next { s with status := word, reply := .err (.invalidParameter c) }
    let failsAll (word : BitVec 8) (c : InvalidCause) : Prop :=
      fails (.encInit w l) word c ∧ fails (.decInit w l) word c ∧ fails (.decInitCap cap w l) word c
    (w < 4 ∨ 15 < w → failsAll 0x05 .wRange) ∧
      (4 ≤ w ∧ w ≤ 15 ∧ (l < 3 ∨ 14 < l) → failsAll 0x09 .lRange) ∧
      (4 ≤ w ∧ w ≤ 15 ∧ 3 ≤ l ∧ l ≤ 14 ∧ w ≤ l → failsAll 0x0D .lNotLess) ∧
      (4 ≤ w ∧ w ≤ 15 ∧ 3 ≤ l ∧ l ≤ 14 ∧ l < w ∧ (cap < 1 ∨ 65535 < cap) →
        fails (.decInitCap cap w l) 0x11 .capRange)

/-- R143: MINM after ENC_INIT is the least length whose REF is shorter than its literals, or a platform's own threshold in
`1..LMAX`. -/
def Obligations.EncInitSetsTheThreshold : Prop :=
  ∀ (w l : Nat) (s : State), LegalConfig w l → s.busy = false →
    ∃ t, exec (.encInit w l) s = .next t ∧
      (s.platform.minMatch = none →
        1 ≤ t.cfg.minm ∧ 1 + w + l < 9 * t.cfg.minm ∧ (∀ k, 1 ≤ k → 1 + w + l < 9 * k → t.cfg.minm ≤ k) ∧
          t.cfg.minm = (1 + w + l) / 9 + 1) ∧
      ∀ m, s.platform.minMatch = some m → 1 ≤ m → m ≤ 2 ^ l → t.cfg.minm = m

/-- R106, R22: no instruction but a construction changes a configuration register, and none changes the platform. -/
def Obligations.OnlyConstructionsWriteConfig : Prop :=
  ∀ (i : Instr) (s t : State), exec i s = .next t →
    t.platform = s.platform ∧
      ((∀ w l, i ≠ .encInit w l) → (∀ w l, i ≠ .decInit w l) → (∀ cap w l, i ≠ .decInitCap cap w l) → t.cfg = s.cfg)

/-! ### Refusals (60_exceptions) -/

/-- R199: the refused requests: a reserved code with any operands; a command while an operation is in progress; ENCODE or
DECODE on another role; an output beyond a finite OUT_CAP. -/
def Obligations.RefusedRequests : Prop :=
  (∀ (r : Request) (rest : List Request) (s : State), r.cmd.toNat = 0 ∨ 6 ≤ r.cmd.toNat → s.busy = false →
      s.requests = r :: rest → step s = .refused (.reservedCommand r.cmd)) ∧
    (∀ (s : State) (cap w l : Int) (x : List Byte), s.busy = true →
      exec (.encInit w l) s = .refused .busy ∧ exec (.decInit w l) s = .refused .busy ∧
        exec (.decInitCap cap w l) s = .refused .busy ∧ exec (.encode x) s = .refused .busy ∧
        exec (.decode x) s = .refused .busy) ∧
    (∀ (s : State) (x : List Byte), s.busy = false →
      (s.cfg.role ≠ .encoder → exec (.encode x) s = .refused .notEncoder) ∧
        (s.cfg.role ≠ .decoder → exec (.decode x) s = .refused .notDecoder)) ∧
    ∀ (s : State) (x : List Byte),
      (s.readyToEncode → ¬ s.platform.admits (s.greedyStream x) → exec (.encode x) s = .refused .outCapExceeded) ∧
      (s.readyToDecode → ∀ out, decodeStream s.cfg.wbits s.cfg.lbits x = .ok out → ¬ s.platform.admits out →
        exec (.decode x) s = .refused .outCapExceeded)

/-- R80: the codes 0x00 and 0x06 to 0xFF are RESERVED_CMD whatever their operands, and it is refused in every state. -/
def Obligations.ReservedCommandIsRefused : Prop :=
  ∀ (r : Request) (s : State), r.cmd.toNat = 0 ∨ (6 ≤ r.cmd.toNat ∧ r.cmd.toNat ≤ 0xFF) →
    decodeRequest r = .ok (.reservedCmd r.cmd) ∧ exec (.reservedCmd r.cmd) s = .refused (.reservedCommand r.cmd)

/-- R163, and the model's reading of it in log entry 15: a token executes only at a token boundary of a DECODE. -/
def Obligations.TokensNeedARunningDecode : Prop :=
  ∀ (s : State) (v : Byte) (d n : Nat), s.cfg.role ≠ .decoder ∨ s.dec.dstate ≠ .awaitTag →
    exec (.lit v) s = .refused .tokenOutsideDecode ∧ exec (.ref d n) s = .refused .tokenOutsideDecode ∧
      exec .endOfStream s = .refused .tokenOutsideDecode

/-! ### The encoder (42_encoder) -/

/-- R145: FindMatch returns the longest match and, among the longest, the one with the smallest offset; `(0, 0)` exactly
when no byte matches. -/
def Obligations.FindMatchIsLongestNearest : Prop :=
  ∀ (W L : Nat) (h : History) (e : EncoderRegs), e.ipos ≤ e.input.length →
    h.holds (2 ^ W) (e.input.take e.ipos) →
    let maxlen := min (2 ^ L) (e.input.length - e.ipos)
    let isMatch (d len : Nat) : Prop := ∀ k < len, e.input[e.ipos + k - d]? = e.input[e.ipos + k]?
    ∃ off len, findMatch (2 ^ W) (2 ^ L) h e = .ok (off, len) ∧
      len ≤ maxlen ∧ off ≤ h.hcount ∧ (off = 0 ↔ len = 0) ∧ isMatch off len ∧
      (∀ d m, 1 ≤ d → d ≤ h.hcount → m ≤ maxlen → isMatch d m → m ≤ len) ∧
      ∀ d, 1 ≤ d → d < off → ¬ isMatch d len

/-- R141, R144 to R147: ENCODE on an idle Encoder returns the framed stream of the greedy parse of `X`, STATUS 0, and is
over, on every platform whose OUT_CAP, if it has one, that stream does not exceed (R150, R199); configuration, requests and
platform are as before. -/
def Obligations.EncodeEmitsTheGreedyParse : Prop :=
  ∀ (x : List Byte) (s : State), s.readyToEncode → s.platform.admits (s.greedyStream x) →
    ∃ t, exec (.encode x) s = .next t ∧ t.reply = .okBytes (s.greedyStream x) ∧ t.writer.out = s.greedyStream x ∧
      t.status = 0 ∧ t.enc.ipos = x.length ∧ t.busy = false ∧ t.cfg = s.cfg ∧ t.requests = s.requests ∧
      t.platform = s.platform

/-- R151: an empty input gives an empty output, on every platform. -/
def Obligations.EncodeOfEmptyIsEmpty : Prop :=
  ∀ s : State, s.busy = false → s.cfg.role = .encoder →
    ∃ t, exec (.encode []) s = .next t ∧ t.reply = .okBytes [] ∧ t.status = 0

/-- R150: with the default threshold the output has at most `ceil(9 * |X| / 8)` bytes, so an ENCODE completes on every
platform whose OUT_CAP, if it has one, is at least that or at least the output. -/
def Obligations.EncodeOutputBound : Prop :=
  ∀ (x : List Byte) (s : State), s.readyToEncode → s.cfg.minm = defaultMinMatch s.cfg.wbits s.cfg.lbits →
    let bound := (9 * x.length + 7) / 8
    (s.greedyStream x).length ≤ bound ∧
      ((∀ cap ∈ s.platform.outCap, bound ≤ cap) ∨ s.platform.admits (s.greedyStream x) →
        ∃ t, exec (.encode x) s = .next t ∧ t.writer.out.length ≤ bound)

/-- R149: the ENCODE result is a function of `X`, `W`, `L` and MIN_MATCH alone: two idle Encoders that agree on them answer
alike under the same OUT_CAP, whatever their histories, other registers and the platform's own threshold hold. -/
def Obligations.EncodeDependsOnConfigAlone : Prop :=
  ∀ (x : List Byte) (s s' : State), s.readyToEncode → s'.readyToEncode → s.cfg.wbits = s'.cfg.wbits →
    s.cfg.lbits = s'.cfg.lbits → s.cfg.minm = s'.cfg.minm → s.platform.outCap = s'.platform.outCap →
    (exec (.encode x) s = .refused .outCapExceeded ∧ exec (.encode x) s' = .refused .outCapExceeded) ∨
      ∃ t t', exec (.encode x) s = .next t ∧ exec (.encode x) s' = .next t' ∧ t.reply = t'.reply ∧
        t.status = t'.status

/-- What an ENCODE leaves unchanged. By the spec: the configuration (R106), the requests and the platform, and of HBUF every
entry at or beyond `HCOUNT` after it (R52, R141). By the model's choice of log entry 5: the reader and the decoder's
registers, which R220 calls unspecified from an ENCODE call start on. -/
def Obligations.EncodeFrame : Prop :=
  ∀ (x : List Byte) (s t : State), exec (.encode x) s = .next t →
    t.cfg = s.cfg ∧ t.reader = s.reader ∧ t.dec = s.dec ∧ t.requests = s.requests ∧ t.platform = s.platform ∧
      ∀ a, t.hist.hcount ≤ a →
        Memory.read hbufUnlisted t.hist.hbuf a = Memory.read hbufUnlisted s.hist.hbuf a

/-! ### The decoder (43_decoder) -/

/-- R160: the transitions of the decoder's state machine, with the causes the failing ones record. -/
def Obligations.DecoderTransitions : Prop :=
  (∀ (s t : State), decodeStep s = .ok t →
    (s.dec.dstate = .awaitTag →
      t.dec.dstate = .drained ∨ (t.dec.dstate = .failed ∧ t.dec.cause = .truncated) ∨ t.dec.dstate = .readLit ∨
        t.dec.dstate = .readRef) ∧
      (s.dec.dstate = .readLit → t.dec.dstate = .awaitTag) ∧
      (s.dec.dstate = .readRef → (t.dec.dstate = .failed ∧ t.dec.cause = .dangling) ∨ t.dec.dstate = .copy) ∧
      (s.dec.dstate = .copy → t.dec.dstate = if s.dec.refRem = 0 then .awaitTag else .copy)) ∧
    (∀ (y : List Byte) (s : State), (startDecode y s).dec.dstate = .awaitTag) ∧
    ∀ (s t : State), s.dec.dstate = .drained ∨ s.dec.dstate = .failed → step s = .next t → t.dec.dstate = .idle

/-- R164: a complete LIT at a token boundary appends its byte to OUT and pushes it, and advances the cursor by 9; every
other entry of HBUF, and everything outside the reader, the history and OUT, is as before (of the encoder's registers and
its writer, which R220 calls unspecified during a DECODE, the model's choice of log entry 5). -/
def Obligations.LitAppendsItsByte : Prop :=
  ∀ (v : Byte) (s : State), s.Inv → s.atTokenBoundary = true → 9 ≤ remainingBits s.reader →
    ∃ t, exec (.lit v) s = .next t ∧ t.dec = { s.dec with out := s.dec.out ++ [v] } ∧
      t.hist.head = (s.hist.head + 1) % 2 ^ s.cfg.wbits ∧ t.hist.hcount = min (s.hist.hcount + 1) (2 ^ s.cfg.wbits) ∧
      Memory.read hbufUnlisted t.hist.hbuf s.hist.head = some v ∧
      (∀ a, a ≠ s.hist.head →
        Memory.read hbufUnlisted t.hist.hbuf a = Memory.read hbufUnlisted s.hist.hbuf a) ∧
      readCursor t.reader = readCursor s.reader + 9 ∧ t.reader.src = s.reader.src ∧
      (∀ a, s.cfg.inbufCap ≤ a →
        Memory.read stageUnlisted t.reader.stage a = Memory.read stageUnlisted s.reader.stage a) ∧
      t.cfg = s.cfg ∧ t.status = s.status ∧ t.enc = s.enc ∧ t.writer = s.writer ∧ t.requests = s.requests ∧
      t.reply = s.reply ∧ t.platform = s.platform

/-- R165, R167: a complete REF that is not dangling appends `n` bytes; the `k`-th equals the byte `d` before it in OUT, be
it one this REF has written; the cursor advances by `1 + W + L`; HBUF changes only in the entries of the `n` pushes. That
the encoder's registers and its writer keep their values is the model's choice of log entry 5. -/
def Obligations.RefCopiesByteSerially : Prop :=
  ∀ (d n : Nat) (s : State), s.Inv → s.atTokenBoundary = true →
    1 + s.cfg.wbits + s.cfg.lbits ≤ remainingBits s.reader → 1 ≤ d → d ≤ s.hist.hcount → 1 ≤ n →
    n ≤ 2 ^ s.cfg.lbits →
    let p := s.dec.out.length
    ∃ t, exec (.ref d n) s = .next t ∧ t.dec.out.length = p + n ∧ t.dec.out.take p = s.dec.out ∧
      (∀ k < n, t.dec.out[p + k]? = t.dec.out[p - d + k]?) ∧ t.dec.dstate = .awaitTag ∧
      History.holds (2 ^ s.cfg.wbits) t.dec.out t.hist ∧
      (∀ a, (∀ k < n, a ≠ (s.hist.head + k) % 2 ^ s.cfg.wbits) →
        Memory.read hbufUnlisted t.hist.hbuf a = Memory.read hbufUnlisted s.hist.hbuf a) ∧
      readCursor t.reader = readCursor s.reader + (1 + s.cfg.wbits + s.cfg.lbits) ∧ t.reader.src = s.reader.src ∧
      (∀ a, s.cfg.inbufCap ≤ a →
        Memory.read stageUnlisted t.reader.stage a = Memory.read stageUnlisted s.reader.stage a) ∧
      t.cfg = s.cfg ∧ t.status = s.status ∧ t.enc = s.enc ∧ t.writer = s.writer ∧ t.requests = s.requests ∧
      t.reply = s.reply ∧ t.platform = s.platform

/-- R168, R162: a REF whose offset exceeds the bytes this DECODE has output ends it with MalformedStream(DANGLING), and
`d > HCOUNT` is exactly `d > |OUT|`. That OUT_CAP plays no part in a failure is the model's choice of log entry 11. -/
def Obligations.DanglingRefFails : Prop :=
  ∀ (d n : Nat) (s : State), s.Inv → s.atTokenBoundary = true →
    1 + s.cfg.wbits + s.cfg.lbits ≤ remainingBits s.reader → d ≤ 2 ^ s.cfg.wbits →
    (s.hist.hcount < d ↔ s.dec.out.length < d) ∧
      (s.dec.out.length < d →
        ∃ t, exec (.ref d n) s = .next t ∧ t.status = 0x06 ∧ t.reply = .err (.malformedStream .dangling) ∧
          t.dec.out = [] ∧ t.dec.dstate = .idle ∧ t.hist = s.hist ∧ t.cfg = s.cfg)

/-- R163, R194: a LIT or REF with bits missing ends the DECODE with MalformedStream(TRUNCATED), a REF before any dangling
check. That OUT_CAP plays no part in a failure is the model's choice of log entry 11. -/
def Obligations.IncompleteTokenFails : Prop :=
  ∀ (i : Instr) (s : State), s.Inv → s.atTokenBoundary = true → i.isToken = true →
    remainingBits s.reader < tokenSize s.cfg.wbits s.cfg.lbits i →
    ∃ t, exec i s = .next t ∧ t.status = 0x0A ∧ t.reply = .err (.malformedStream .truncated) ∧ t.dec.out = [] ∧
      t.dec.dstate = .idle ∧ t.hist = s.hist ∧ t.cfg = s.cfg

/-- R170, R162: at a token boundary of a DECODE where END's condition (R76) holds at the cursor, END ends the DECODE with
`Ok(OUT)`, STATUS 0, DSTATE IDLE, and it is what the step runs there; OUT_CAP, if there is one, is not exceeded. That every
other register keeps its value, those R220 calls unspecified at the end of a DECODE among them, is the model's choice of
log entry 5; that a token is run by a step of its own is its reading of R163 in log entries 6 and 15. -/
def Obligations.EndReturnsTheOutput : Prop :=
  ∀ s : State, s.Inv → s.atTokenBoundary = true →
    let unread := (streamBits s.reader.src).drop (readCursor s.reader)
    unread.length ≤ 7 → (∀ b ∈ unread, b = false) → s.platform.admits s.dec.out →
    let t := { s with dec := { s.dec with dstate := .idle }, status := 0, reply := .okBytes s.dec.out }
    exec .endOfStream s = .next t ∧ step s = .next t

/-- R161 to R171, R197: DECODE of any bytes on an idle Decoder returns what the stream means, or its first malformation with
nothing of the output, on every platform whose OUT_CAP, if it has one, the output does not exceed (R199). A malformed
stream is judged so whatever OUT_CAP is: the model's choice of log entry 11. -/
def Obligations.DecodeReturnsTheStreamsMeaning : Prop :=
  ∀ (y : List Byte) (s : State), s.readyToDecode → s.decodeFits y →
    ∃ t, exec (.decode y) s = .next t ∧ t.dec.dstate = .idle ∧
      (match decodeStream s.cfg.wbits s.cfg.lbits y with
        | .ok out => t.reply = .okBytes out ∧ t.dec.out = out ∧ t.status = 0
        | .error .dangling => t.reply = .err (.malformedStream .dangling) ∧ t.dec.out = [] ∧ t.status = 0x06
        | .error .truncated => t.reply = .err (.malformedStream .truncated) ∧ t.dec.out = [] ∧ t.status = 0x0A)

/-- What a DECODE leaves unchanged. By the spec: the configuration (R22, R106), the requests and the platform, of HBUF every
entry at or beyond `HCOUNT` after it (R52, R161), and of STAGE every entry at or beyond `INBUF_CAP` (R128). By the model's
choice of log entry 5: the encoder's registers and the bit writer, and SRC, which still holds `Y`; R220 calls them
unspecified from a DECODE call start on, or at the end of a DECODE. -/
def Obligations.DecodeFrame : Prop :=
  ∀ (y : List Byte) (s t : State), exec (.decode y) s = .next t →
    t.cfg = s.cfg ∧ t.enc = s.enc ∧ t.writer = s.writer ∧ t.requests = s.requests ∧ t.platform = s.platform ∧
      t.reader.src = y ∧
      (∀ a, t.hist.hcount ≤ a →
        Memory.read hbufUnlisted t.hist.hbuf a = Memory.read hbufUnlisted s.hist.hbuf a) ∧
      ∀ a, s.cfg.inbufCap ≤ a →
        Memory.read stageUnlisted t.reader.stage a = Memory.read stageUnlisted s.reader.stage a

/-- R172: the state machine of a DECODE reaches DRAINED or FAILED within `(3 + LMAX) * |Y| + 1` steps. -/
def Obligations.DecodeEndsWithinItsBound : Prop :=
  ∀ (y : List Byte) (s : State), s.readyToDecode →
    ∃ t, decodeLoop ((3 + 2 ^ s.cfg.lbits) * y.length + 1) (startDecode y s) = .ok t ∧ t.decodeEnded = true

/-- R174, R35: the DECODE result is a function of `Y`, `W` and `L` alone: two idle Decoders that agree on them answer alike
under the same OUT_CAP, whatever their capacities, earlier calls, buffers and the platform's threshold. -/
def Obligations.DecodeDependsOnConfigAlone : Prop :=
  ∀ (y : List Byte) (s s' : State), s.readyToDecode → s'.readyToDecode → s.cfg.wbits = s'.cfg.wbits →
    s.cfg.lbits = s'.cfg.lbits → s.platform.outCap = s'.platform.outCap →
    (exec (.decode y) s = .refused .outCapExceeded ∧ exec (.decode y) s' = .refused .outCapExceeded) ∨
      ∃ t t', exec (.decode y) s = .next t ∧ exec (.decode y) s' = .next t' ∧ t.reply = t'.reply ∧
        t.status = t'.status

/-- R153, R3: a Decoder with the Encoder's `W` and `L` decodes what the Encoder made of `X` to `X`, for every threshold, on
platforms whose OUT_CAP, if they have one, the two outputs do not exceed (R199). -/
def Obligations.DecodeOfEncodeIsIdentity : Prop :=
  ∀ (x : List Byte) (s s' : State), s.readyToEncode → s'.readyToDecode →
    s.cfg.wbits = s'.cfg.wbits → s.cfg.lbits = s'.cfg.lbits →
    s.platform.admits (s.greedyStream x) → s'.platform.admits x →
    ∃ t y t', exec (.encode x) s = .next t ∧ t.reply = .okBytes y ∧ exec (.decode y) s' = .next t' ∧
      t'.reply = .okBytes x

/-- R173: a stream of literals, made under any configuration, decodes to the same bytes under every configuration (an
OUT_CAP they do not exceed, R199). -/
def Obligations.LiteralStreamsDecodeEverywhere : Prop :=
  ∀ (text : List Byte) (W L : Nat) (s : State), s.readyToDecode → s.platform.admits text →
    ∃ t, exec (.decode (assemble W L (expandStr text))) s = .next t ∧ t.reply = .okBytes text

/-- R83: the expansion of RUN decodes to `n` copies of its byte, and that of COPY after a text to the text continued with
period `d` (an OUT_CAP they do not exceed, R199). -/
def Obligations.PseudoInstructionsExpand : Prop :=
  ∀ s : State, s.readyToDecode →
    (∀ (b : Byte) (n : Nat), 2 ≤ n → s.platform.admits (List.replicate n b) →
      ∃ t, exec (.decode (assemble s.cfg.wbits s.cfg.lbits (expandRun s.cfg.lbits b n))) s = .next t ∧
        t.reply = .okBytes (List.replicate n b)) ∧
    ∀ (text : List Byte) (d n : Nat), 1 ≤ d → d ≤ text.length → d ≤ 2 ^ s.cfg.wbits → 1 ≤ n →
      s.platform.admits (copyBytes d n text) →
      ∃ t, exec (.decode (assemble s.cfg.wbits s.cfg.lbits (expandStr text ++ expandCopy s.cfg.lbits d n))) s = .next t ∧
        t.reply = .okBytes (copyBytes d n text)

/-- R232: encoded streams of which the first needs no padding decode, concatenated, to the concatenation (an OUT_CAP it
does not exceed, R199). -/
def Obligations.UnpaddedStreamsConcatenate : Prop :=
  ∀ (a b : List Byte) (m : Nat) (s : State), s.readyToDecode → 1 ≤ m → s.platform.admits (a ++ b) →
    let parse (x : List Byte) := greedyTokens s.cfg.wbits s.cfg.lbits m x
    (tokensBits s.cfg.wbits s.cfg.lbits (parse a)).length % 8 = 0 →
    ∃ t, exec (.decode (assemble s.cfg.wbits s.cfg.lbits (parse a) ++ assemble s.cfg.wbits s.cfg.lbits (parse b))) s =
        .next t ∧ t.reply = .okBytes (a ++ b)

/-! ### Results and the whole machine -/

/-- R24, R193: every command, and END, that completes writes STATUS with the result the host receives: 0 with an Ok, the
failure's word with an Err. -/
def Obligations.StatusReportsTheResult : Prop :=
  ∀ (i : Instr) (s t : State), i.isToken = false → exec i s = .next t →
    (t.status = 0 ∧ (t.reply = .okUnit ∨ ∃ bs, t.reply = .okBytes bs)) ∨
      ∃ f, t.reply = .err f ∧ t.status = statusOf f ∧ statusErr t.status = f.errCode ∧
        statusCause t.status = f.causeCode ∧ t.status.extractLsb' 5 3 = 0

/-- R108: no instruction but a construction raises InvalidParameter: it leaves STATUS and the result as they are, or sets
others. -/
def Obligations.OnlyConstructionsRaiseInvalidParameter : Prop :=
  ∀ (i : Instr) (s t : State), (∀ w l, i ≠ .encInit w l) → (∀ w l, i ≠ .decInit w l) →
    (∀ cap w l, i ≠ .decInitCap cap w l) → exec i s = .next t →
    (i.isToken = true ∧ t.status = s.status ∧ t.reply = s.reply) ∨
      (statusErr t.status ≠ 1 ∧ ∀ c, t.reply ≠ .err (.invalidParameter c))

/-- What a step runs: at a token boundary of a DECODE the token at the reader cursor (R163), or, where the bits left are
neither END nor a whole token, the truncated boundary (TruncatedBoundaryFails says what it does); inside a token or at its
end the DECODE's next action (R160), inside an ENCODE its next (R141); with nothing in progress the host's next request,
taken off the list, a request of wrong operand types being refused; with no request nothing. These are the model's: the
request list and taking its head off (log entry 8, DESIGN CHOICE), the refusal of wrong operands (entry 16, DESIGN CHOICE),
waiting unchanged (entry 9, DEDUCED from R223), one step per whole operation and the steps inside one (entry 6, DEDUCED
from R61 and R64), a token as one step (entry 15, DEDUCED from R163). -/
def Obligations.StepRunsTheDecodedInstruction : Prop :=
  (∀ (s : State) (i : Instr) (rest : List Bool), s.dec.dstate = .awaitTag →
      decodeToken s.cfg.wbits s.cfg.lbits (pendingBits s.reader) = .token i rest → step s = exec i s) ∧
    (∀ s : State, s.dec.dstate = .awaitTag →
      decodeToken s.cfg.wbits s.cfg.lbits (pendingBits s.reader) = .truncated → step s = truncatedFetch s) ∧
    (∀ s : State, s.dec.dstate = .readLit ∨ s.dec.dstate = .readRef ∨ s.dec.dstate = .copy →
      step s = toOutcome (decodeStep s)) ∧
    (∀ s : State, s.dec.dstate = .drained ∨ s.dec.dstate = .failed → step s = finishDecode s) ∧
    (∀ s : State, s.dec.dstate = .idle → s.enc.running = true → step s = continueEncode s) ∧
    (∀ (s : State) (r : Request) (rest : List Request) (i : Instr), s.busy = false → s.requests = r :: rest →
      decodeRequest r = .ok i → step s = exec i { s with requests := rest }) ∧
    (∀ (s : State) (r : Request) (rest : List Request) (e : Reject), s.busy = false → s.requests = r :: rest →
      decodeRequest r = .error e → step s = .refused .badOperands) ∧
    ∀ s : State, s.busy = false → s.requests = [] → step s = .next s

/-- R163, R131, R162: where a DECODE stands at a boundary with one to seven bits left that hold a 1, or eight or more that
are no whole LIT or REF, the step ends it with MalformedStream(TRUNCATED) and nothing of the output. That the failure is
reported within this one step is the model's reading of R64 in log entry 6; that OUT_CAP plays no part in a failure is its
choice of log entry 11. -/
def Obligations.TruncatedBoundaryFails : Prop :=
  ∀ s : State, s.Inv → s.atTokenBoundary = true →
    let unread := (streamBits s.reader.src).drop (readCursor s.reader)
    (unread.length ≤ 7 ∧ (∃ b ∈ unread, b = true)) ∨
        (8 ≤ unread.length ∧
          ((unread.head? = some false ∧ unread.length < 9) ∨
            (unread.head? = some true ∧ unread.length < 1 + s.cfg.wbits + s.cfg.lbits))) →
      ∃ t, step s = .next t ∧ t.status = 0x0A ∧ t.reply = .err (.malformedStream .truncated) ∧ t.dec.out = [] ∧
        t.dec.dstate = .idle ∧ t.hist = s.hist ∧ t.cfg = s.cfg ∧ t.requests = s.requests ∧ t.platform = s.platform

/-- R63, R64, and the model's reading of them in log entry 6: a whole ENCODE or DECODE, run as one step, has the outcome
that its steps reach one by one, a refusal for OUT_CAP (R199) at their end included; and it goes on wherever the output
does not exceed OUT_CAP, which plays no part for a malformed stream (the model's choice of log entry 11). -/
def Obligations.OperationsAreTheirSteps : Prop :=
  (∀ (y : List Byte) (s : State), s.readyToDecode →
      (∃ n, Host.Core.run Sys2Proof.core n (startDecode y s) = exec (.decode y) s) ∧
        (s.decodeFits y → ∃ t, exec (.decode y) s = .next t)) ∧
    ∀ (x : List Byte) (s : State), s.readyToEncode →
      (∃ n, Host.Core.run Sys2Proof.core n (startEncode x s) = exec (.encode x) s) ∧
        (s.platform.admits (s.greedyStream x) → ∃ t, exec (.encode x) s = .next t)

/-- R220, R221: power-on leaves an empty slot with STATUS 0 and DSTATE IDLE, where ENCODE and DECODE are refused and a legal
construction is admitted. -/
def Obligations.PowerOnIsAnEmptySlot : Prop :=
  State.reset.cfg.role = .none ∧ State.reset.status = 0 ∧ State.reset.dec.dstate = .idle ∧
    (∀ x, exec (.encode x) State.reset = .refused .notEncoder ∧ exec (.decode x) State.reset = .refused .notDecoder) ∧
    ∀ (cap w l : Int), (∃ t, exec (.encInit w l) State.reset = .next t) ∧
      (∃ t, exec (.decInit w l) State.reset = .next t) ∧ ∃ t, exec (.decInitCap cap w l) State.reset = .next t

/-- The invariant (R22 to R33) holds after power-on. -/
def Obligations.ResetMeetsTheInvariant : Prop :=
  State.reset.Inv

/-- R22 to R33, R54, R163, R166: every step keeps the invariant. -/
def Obligations.StepKeepsTheInvariant : Prop :=
  ∀ s t : State, s.Inv → step s = .next t → t.Inv

/-- The same of every well-formed instruction, wherever it comes from. -/
def Obligations.ExecKeepsTheInvariant : Prop :=
  ∀ (i : Instr) (s t : State), s.Inv → i.wf s.cfg.wbits s.cfg.lbits = true → exec i s = .next t → t.Inv

/-- R53, R121, R127, R172 and 93 S6 to S9: from a state that meets the invariant no step reaches a model fault. -/
def Obligations.StepNeverFaults : Prop :=
  ∀ s : State, s.Inv → Safe (step s)

/-- R20, R65, R202, with the system of instances that log entry 17 (DEDUCED) deduces from them: a step of instance `j` makes
of it what `step` makes of its own state, operands included, and of no other: it stops where that stops, leaves the other
instances alone, and gives the same instance in every system that holds the same one at `j`; steps of different instances
interleave in any order with one result. -/
def Obligations.InstancesAreIndependent : Prop :=
  (∀ (j : Nat) (ss : List State) (s : State) (r : Refusal), ss[j]? = some s → step s = .refused r →
      systemStep j ss = .refused r) ∧
    ∀ (j k : Nat) (ss sj sk : List State), j ≠ k → systemStep j ss = .next sj → systemStep k ss = .next sk →
      (∀ s, ss[j]? = some s → ∃ t, step s = .next t ∧ sj[j]? = some t) ∧
        (∀ i, i ≠ j → sj[i]? = ss[i]?) ∧
        (∀ ss' : List State, ss'[j]? = ss[j]? → ∃ sj', systemStep j ss' = .next sj' ∧ sj'[j]? = sj[j]?) ∧
        ∃ u, systemStep k sj = .next u ∧ systemStep j sk = .next u
end

