-- ==== Sys2Proof/Laws/Memory.lean ====
section
/-! SUPPORT. The byte memories: a read after a write, and the canonical form every memory operation keeps. -/

namespace Sys2Proof.Machine

variable {u : Option Byte}

theorem Memory.wf_nil : Memory.wf u [] := by simp [Memory.wf]

theorem Memory.wf_cons {a : Nat} {b : Byte} {m : Memory} :
    Memory.wf u ((a, b) :: m) ↔ (∀ c ∈ m, a < c.1) ∧ some b ≠ u ∧ Memory.wf u m := by
  simp only [Memory.wf, List.pairwise_cons, List.forall_mem_cons]
  tauto

/-- A read finds nothing listed below the first cell of a canonical memory. -/
theorem Memory.read_of_lt {m : Memory} {k : Nat} (h : ∀ c ∈ m, k < c.1) : Memory.read u m k = u := by
  induction m with
  | nil => rfl
  | cons c m ih =>
    obtain ⟨a, b⟩ := c
    have ha : k < a := h (a, b) (by simp)
    simp [Memory.read, ha.ne, ih fun c hc => h c (by simp [hc])]

/-- A write leaves every other index as it was. -/
theorem Memory.read_write_ne (m : Memory) {k a : Nat} (v : Byte) (h : a ≠ k) :
    Memory.read u (Memory.write u m k v) a = Memory.read u m a := by
  induction m with
  | nil => simp only [Memory.write]; split <;> simp [Memory.read, h]
  | cons c m ih =>
    obtain ⟨c, b⟩ := c
    simp only [Memory.write]
    split_ifs with h1 h2 h3 h4 <;> simp_all [Memory.read]

/-- A read after a write to the same index of a canonical memory gives the byte written. -/
theorem Memory.read_write_self {m : Memory} (k : Nat) (v : Byte) (h : Memory.wf u m) :
    Memory.read u (Memory.write u m k v) k = some v := by
  induction m with
  | nil => simp only [Memory.write]; split <;> simp_all [Memory.read]
  | cons c m ih =>
    obtain ⟨a, b⟩ := c
    obtain ⟨hlt, -, hm⟩ := Memory.wf_cons.mp h
    simp only [Memory.write]
    split_ifs with h1 hv h2 hv
    · rw [hv]
      exact Memory.read_of_lt (by
        rintro c hc
        rcases List.mem_cons.mp hc with rfl | hc
        · exact h1
        · exact h1.trans (hlt c hc))
    · simp [Memory.read]
    · rw [hv, h2]
      exact Memory.read_of_lt hlt
    · simp [Memory.read]
    · simp [Memory.read, h2, ih hm]

/-- The cells of a memory after a write are cells of it before, or the one written. -/
theorem Memory.mem_write {m : Memory} {k : Nat} {v : Byte} {c : Host.Cell} (h : c ∈ Memory.write u m k v) :
    c = (k, v) ∨ c ∈ m := by
  induction m with
  | nil => simp only [Memory.write] at h; split at h <;> simp_all
  | cons d m ih =>
    obtain ⟨a, b⟩ := d
    simp only [Memory.write] at h
    split_ifs at h <;> simp_all <;> tauto

/-- A write keeps the canonical form. -/
theorem Memory.write_wf {m : Memory} (k : Nat) (v : Byte) (h : Memory.wf u m) : Memory.wf u (Memory.write u m k v) := by
  induction m with
  | nil =>
    simp only [Memory.write]
    split
    · exact Memory.wf_nil
    · simpa [Memory.wf]
  | cons c m ih =>
    obtain ⟨a, b⟩ := c
    obtain ⟨hlt, hb, hm⟩ := Memory.wf_cons.mp h
    simp only [Memory.write]
    split_ifs with h1 hv h2 hv
    · exact h
    · refine Memory.wf_cons.mpr ⟨?_, hv, h⟩
      rintro c hc
      rcases List.mem_cons.mp hc with rfl | hc
      · exact h1
      · exact h1.trans (hlt c hc)
    · exact hm
    · exact Memory.wf_cons.mpr ⟨h2 ▸ hlt, hv, hm⟩
    · refine Memory.wf_cons.mpr ⟨?_, hb, ih hm⟩
      intro c hc
      rcases Memory.mem_write hc with rfl | hc
      · show a < k; omega
      · exact hlt c hc

/-- A sequence of writes keeps the canonical form. -/
theorem Memory.writeSeq_wf {m : Memory} (k : Nat) (vs : List Byte) (h : Memory.wf u m) :
    Memory.wf u (Memory.writeSeq u m k vs) := by
  induction vs generalizing m k with
  | nil => exact h
  | cons v vs ih => exact ih _ (Memory.write_wf k v h)

/-- Outside the indices it writes, a sequence of writes leaves a memory as it was. -/
theorem Memory.read_writeSeq_outside (m : Memory) (k : Nat) (vs : List Byte) {a : Nat}
    (h : a < k ∨ k + vs.length ≤ a) : Memory.read u (Memory.writeSeq u m k vs) a = Memory.read u m a := by
  induction vs generalizing m k with
  | nil => rfl
  | cons v vs ih =>
    simp only [List.length_cons] at h
    rw [Memory.writeSeq, ih _ _ (by omega), Memory.read_write_ne _ _ (by omega)]

/-- A sequence of writes to a canonical memory is read back index by index. -/
theorem Memory.read_writeSeq {m : Memory} (k : Nat) (vs : List Byte) (h : Memory.wf u m) {i : Nat}
    (hi : i < vs.length) : Memory.read u (Memory.writeSeq u m k vs) (k + i) = vs[i]? := by
  induction vs generalizing m k i with
  | nil => simp at hi
  | cons v vs ih =>
    cases i with
    | zero =>
      rw [Memory.writeSeq, Memory.read_writeSeq_outside _ _ _ (by omega)]
      simpa using Memory.read_write_self k v h
    | succ i =>
      have := ih (k + 1) (Memory.write_wf k v h) (i := i) (by simpa using hi)
      rw [Memory.writeSeq, show k + (i + 1) = k + 1 + i by omega, this]
      simp

/-- The memories of the block after power-on are canonical. -/
theorem reset_memories_wf :
    Memory.wf hbufUnlisted State.reset.hist.hbuf ∧ Memory.wf stageUnlisted State.reset.reader.stage :=
  ⟨Memory.wf_nil, Memory.wf_nil⟩

/-- HistPush keeps HBUF canonical (R52). -/
theorem histPush_wf (n : Nat) (b : Byte) {h : History} (hw : Memory.wf hbufUnlisted h.hbuf) :
    Memory.wf hbufUnlisted (histPush n b h).hbuf :=
  Memory.write_wf _ _ hw

/-- Every push of a sequence keeps HBUF canonical. -/
theorem histPushAll_wf (n : Nat) (bs : List Byte) {h : History} (hw : Memory.wf hbufUnlisted h.hbuf) :
    Memory.wf hbufUnlisted (histPushAll n bs h).hbuf := by
  induction bs generalizing h with
  | nil => exact hw
  | cons b bs ih => exact ih (histPush_wf n b hw)

/-- Refill keeps STAGE canonical (R128). -/
theorem refill_wf (cap : Nat) {r : Reader} (hw : Memory.wf stageUnlisted r.stage) :
    Memory.wf stageUnlisted (refill cap r).stage :=
  Memory.writeSeq_wf _ _ hw

/-- An HBUF read always gives a byte: an unlisted entry is the zero fill (R102). -/
theorem hbuf_read_isSome (m : Memory) (k : Nat) : ∃ b, Memory.read hbufUnlisted m k = some b := by
  induction m with
  | nil => exact ⟨0, rfl⟩
  | cons c m ih =>
    obtain ⟨a, b⟩ := c
    simp only [Memory.read]
    split
    · exact ⟨b, rfl⟩
    · exact ih

end Sys2Proof.Machine
end

