-- ==== Sys2Proof/Laws/State.lean ====
section
/-! SUPPORT. One lemma per field per named update of State, each true by rfl. -/

namespace Sys2Proof.Machine

@[simp] theorem raise_invalid_cfg (c : InvalidCause) (s : State) : (raise (.invalidParameter c) s).cfg = s.cfg := rfl
@[simp] theorem raise_invalid_status (c : InvalidCause) (s : State) :
    (raise (.invalidParameter c) s).status =
      statusOf (.invalidParameter c) := rfl
@[simp] theorem raise_invalid_hist (c : InvalidCause) (s : State) :
    (raise (.invalidParameter c) s).hist =
      s.hist := rfl
@[simp] theorem raise_invalid_enc (c : InvalidCause) (s : State) : (raise (.invalidParameter c) s).enc = s.enc := rfl
@[simp] theorem raise_invalid_writer (c : InvalidCause) (s : State) :
    (raise (.invalidParameter c) s).writer =
      s.writer := rfl
@[simp] theorem raise_invalid_reader (c : InvalidCause) (s : State) :
    (raise (.invalidParameter c) s).reader =
      s.reader := rfl
@[simp] theorem raise_invalid_dec (c : InvalidCause) (s : State) : (raise (.invalidParameter c) s).dec = s.dec := rfl
@[simp] theorem raise_invalid_requests (c : InvalidCause) (s : State) :
    (raise (.invalidParameter c) s).requests =
      s.requests := rfl
@[simp] theorem raise_invalid_reply (c : InvalidCause) (s : State) :
    (raise (.invalidParameter c) s).reply =
      .err (.invalidParameter c) := rfl
@[simp] theorem raise_invalid_platform (c : InvalidCause) (s : State) :
    (raise (.invalidParameter c) s).platform =
      s.platform := rfl

@[simp] theorem raise_malformed_cfg (c : MalformedCause) (s : State) :
    (raise (.malformedStream c) s).cfg =
      s.cfg := rfl
@[simp] theorem raise_malformed_status (c : MalformedCause) (s : State) :
    (raise (.malformedStream c) s).status =
      s.status := rfl
@[simp] theorem raise_malformed_hist (c : MalformedCause) (s : State) :
    (raise (.malformedStream c) s).hist =
      s.hist := rfl
@[simp] theorem raise_malformed_enc (c : MalformedCause) (s : State) :
    (raise (.malformedStream c) s).enc =
      s.enc := rfl
@[simp] theorem raise_malformed_writer (c : MalformedCause) (s : State) :
    (raise (.malformedStream c) s).writer =
      s.writer := rfl
@[simp] theorem raise_malformed_reader (c : MalformedCause) (s : State) :
    (raise (.malformedStream c) s).reader =
      s.reader := rfl
@[simp] theorem raise_malformed_dec (c : MalformedCause) (s : State) :
    (raise (.malformedStream c) s).dec =
      { s.dec with dstate := .failed, cause := c } := rfl
@[simp] theorem raise_malformed_requests (c : MalformedCause) (s : State) :
    (raise (.malformedStream c) s).requests =
      s.requests := rfl
@[simp] theorem raise_malformed_reply (c : MalformedCause) (s : State) :
    (raise (.malformedStream c) s).reply =
      s.reply := rfl
@[simp] theorem raise_malformed_platform (c : MalformedCause) (s : State) :
    (raise (.malformedStream c) s).platform =
      s.platform := rfl

@[simp] theorem emit_cfg (b : Byte) (s : State) : (emit b s).cfg = s.cfg := rfl
@[simp] theorem emit_status (b : Byte) (s : State) : (emit b s).status = s.status := rfl
@[simp] theorem emit_hist (b : Byte) (s : State) : (emit b s).hist = histPush s.cfg.window b s.hist := rfl
@[simp] theorem emit_enc (b : Byte) (s : State) : (emit b s).enc = s.enc := rfl
@[simp] theorem emit_writer (b : Byte) (s : State) : (emit b s).writer = s.writer := rfl
@[simp] theorem emit_reader (b : Byte) (s : State) : (emit b s).reader = s.reader := rfl
@[simp] theorem emit_dec (b : Byte) (s : State) : (emit b s).dec = { s.dec with out := s.dec.out ++ [b] } := rfl
@[simp] theorem emit_requests (b : Byte) (s : State) : (emit b s).requests = s.requests := rfl
@[simp] theorem emit_reply (b : Byte) (s : State) : (emit b s).reply = s.reply := rfl
@[simp] theorem emit_platform (b : Byte) (s : State) : (emit b s).platform = s.platform := rfl

@[simp] theorem setDState_cfg (q : DState) (s : State) : (setDState q s).cfg = s.cfg := rfl
@[simp] theorem setDState_status (q : DState) (s : State) : (setDState q s).status = s.status := rfl
@[simp] theorem setDState_hist (q : DState) (s : State) : (setDState q s).hist = s.hist := rfl
@[simp] theorem setDState_enc (q : DState) (s : State) : (setDState q s).enc = s.enc := rfl
@[simp] theorem setDState_writer (q : DState) (s : State) : (setDState q s).writer = s.writer := rfl
@[simp] theorem setDState_reader (q : DState) (s : State) : (setDState q s).reader = s.reader := rfl
@[simp] theorem setDState_dec (q : DState) (s : State) : (setDState q s).dec = { s.dec with dstate := q } := rfl
@[simp] theorem setDState_requests (q : DState) (s : State) : (setDState q s).requests = s.requests := rfl
@[simp] theorem setDState_reply (q : DState) (s : State) : (setDState q s).reply = s.reply := rfl
@[simp] theorem setDState_platform (q : DState) (s : State) : (setDState q s).platform = s.platform := rfl

@[simp] theorem litEffect_cfg (v : Byte) (s : State) : (litEffect v s).cfg = s.cfg := rfl
@[simp] theorem litEffect_status (v : Byte) (s : State) : (litEffect v s).status = s.status := rfl
@[simp] theorem litEffect_hist (v : Byte) (s : State) : (litEffect v s).hist = histPush s.cfg.window v s.hist := rfl
@[simp] theorem litEffect_enc (v : Byte) (s : State) : (litEffect v s).enc = s.enc := rfl
@[simp] theorem litEffect_writer (v : Byte) (s : State) : (litEffect v s).writer = s.writer := rfl
@[simp] theorem litEffect_reader (v : Byte) (s : State) : (litEffect v s).reader = s.reader := rfl
@[simp] theorem litEffect_dec (v : Byte) (s : State) :
    (litEffect v s).dec =
      { s.dec with out := s.dec.out ++ [v], dstate := .awaitTag } := rfl
@[simp] theorem litEffect_requests (v : Byte) (s : State) : (litEffect v s).requests = s.requests := rfl
@[simp] theorem litEffect_reply (v : Byte) (s : State) : (litEffect v s).reply = s.reply := rfl
@[simp] theorem litEffect_platform (v : Byte) (s : State) : (litEffect v s).platform = s.platform := rfl

@[simp] theorem startEncode_cfg (x : List Byte) (s : State) : (startEncode x s).cfg = s.cfg := rfl
@[simp] theorem startEncode_status (x : List Byte) (s : State) : (startEncode x s).status = s.status := rfl
@[simp] theorem startEncode_hist (x : List Byte) (s : State) : (startEncode x s).hist = histCallStart s.hist := rfl
@[simp] theorem startEncode_enc (x : List Byte) (s : State) :
    (startEncode x s).enc =
      { input := x, ipos := 0, matchOff := 0, matchLen := 0, running := true } := rfl
@[simp] theorem startEncode_writer (x : List Byte) (s : State) : (startEncode x s).writer = writerCleared := rfl
@[simp] theorem startEncode_reader (x : List Byte) (s : State) : (startEncode x s).reader = s.reader := rfl
@[simp] theorem startEncode_dec (x : List Byte) (s : State) : (startEncode x s).dec = s.dec := rfl
@[simp] theorem startEncode_requests (x : List Byte) (s : State) : (startEncode x s).requests = s.requests := rfl
@[simp] theorem startEncode_reply (x : List Byte) (s : State) : (startEncode x s).reply = s.reply := rfl
@[simp] theorem startEncode_platform (x : List Byte) (s : State) : (startEncode x s).platform = s.platform := rfl

@[simp] theorem startDecode_cfg (y : List Byte) (s : State) : (startDecode y s).cfg = s.cfg := rfl
@[simp] theorem startDecode_status (y : List Byte) (s : State) : (startDecode y s).status = s.status := rfl
@[simp] theorem startDecode_hist (y : List Byte) (s : State) : (startDecode y s).hist = histCallStart s.hist := rfl
@[simp] theorem startDecode_enc (y : List Byte) (s : State) : (startDecode y s).enc = s.enc := rfl
@[simp] theorem startDecode_writer (y : List Byte) (s : State) : (startDecode y s).writer = s.writer := rfl
@[simp] theorem startDecode_reader (y : List Byte) (s : State) :
    (startDecode y s).reader =
      readerCallStart y s.reader := rfl
@[simp] theorem startDecode_dec (y : List Byte) (s : State) :
    (startDecode y s).dec =
      { s.dec with out := [], dstate := .awaitTag } := rfl
@[simp] theorem startDecode_requests (y : List Byte) (s : State) : (startDecode y s).requests = s.requests := rfl
@[simp] theorem startDecode_reply (y : List Byte) (s : State) : (startDecode y s).reply = s.reply := rfl
@[simp] theorem startDecode_platform (y : List Byte) (s : State) : (startDecode y s).platform = s.platform := rfl

@[simp] theorem constructEncoder_cfg (w l : Nat) (s : State) :
    (constructEncoder w l s).cfg =
      { role := .encoder, wbits := w, lbits := l, inbufCap := 0, minm := minMatch s.platform w l } := rfl
@[simp] theorem constructEncoder_status (w l : Nat) (s : State) : (constructEncoder w l s).status = statusOk := rfl
@[simp] theorem constructEncoder_hist (w l : Nat) (s : State) : (constructEncoder w l s).hist = histConstructed := rfl
@[simp] theorem constructEncoder_enc (w l : Nat) (s : State) : (constructEncoder w l s).enc = s.enc := rfl
@[simp] theorem constructEncoder_writer (w l : Nat) (s : State) : (constructEncoder w l s).writer = s.writer := rfl
@[simp] theorem constructEncoder_reader (w l : Nat) (s : State) :
    (constructEncoder w l s).reader =
      { s.reader with stage := [] } := rfl
@[simp] theorem constructEncoder_dec (w l : Nat) (s : State) :
    (constructEncoder w l s).dec =
      { s.dec with dstate := .idle } := rfl
@[simp] theorem constructEncoder_requests (w l : Nat) (s : State) :
    (constructEncoder w l s).requests =
      s.requests := rfl
@[simp] theorem constructEncoder_reply (w l : Nat) (s : State) : (constructEncoder w l s).reply = .okUnit := rfl
@[simp] theorem constructEncoder_platform (w l : Nat) (s : State) :
    (constructEncoder w l s).platform =
      s.platform := rfl

@[simp] theorem constructDecoder_cfg (cap w l : Nat) (s : State) :
    (constructDecoder cap w l s).cfg =
      { role := .decoder, wbits := w, lbits := l, inbufCap := cap, minm := 0 } := rfl
@[simp] theorem constructDecoder_status (cap w l : Nat) (s : State) :
    (constructDecoder cap w l s).status =
      statusOk := rfl
@[simp] theorem constructDecoder_hist (cap w l : Nat) (s : State) :
    (constructDecoder cap w l s).hist =
      histConstructed := rfl
@[simp] theorem constructDecoder_enc (cap w l : Nat) (s : State) : (constructDecoder cap w l s).enc = s.enc := rfl
@[simp] theorem constructDecoder_writer (cap w l : Nat) (s : State) :
    (constructDecoder cap w l s).writer =
      s.writer := rfl
@[simp] theorem constructDecoder_reader (cap w l : Nat) (s : State) :
    (constructDecoder cap w l s).reader =
      { s.reader with stage := [] } := rfl
@[simp] theorem constructDecoder_dec (cap w l : Nat) (s : State) :
    (constructDecoder cap w l s).dec =
      { s.dec with dstate := .idle } := rfl
@[simp] theorem constructDecoder_requests (cap w l : Nat) (s : State) :
    (constructDecoder cap w l s).requests =
      s.requests := rfl
@[simp] theorem constructDecoder_reply (cap w l : Nat) (s : State) :
    (constructDecoder cap w l s).reply =
      .okUnit := rfl
@[simp] theorem constructDecoder_platform (cap w l : Nat) (s : State) :
    (constructDecoder cap w l s).platform =
      s.platform := rfl

@[simp] theorem settled_cfg (s : State) : (s.settled).cfg = s.cfg := rfl
@[simp] theorem settled_status (s : State) : (s.settled).status = s.status := rfl
@[simp] theorem settled_hist (s : State) : (s.settled).hist = s.hist := rfl
@[simp] theorem settled_enc (s : State) : (s.settled).enc = { s.enc with running := false } := rfl
@[simp] theorem settled_writer (s : State) : (s.settled).writer = s.writer := rfl
@[simp] theorem settled_reader (s : State) : (s.settled).reader = s.reader := rfl
@[simp] theorem settled_dec (s : State) : (s.settled).dec = { s.dec with dstate := .idle } := rfl
@[simp] theorem settled_requests (s : State) : (s.settled).requests = s.requests := rfl
@[simp] theorem settled_reply (s : State) : (s.settled).reply = s.reply := rfl
@[simp] theorem settled_platform (s : State) : (s.settled).platform = s.platform := rfl

end Sys2Proof.Machine
end

