-- ==== Sys2Proof/Laws/Ops.lean ====
section
/-! SUPPORT. For each shared operation, one lemma that says everything it can do. Callers cite these and do not unfold the
operation. -/

namespace Sys2Proof.Machine

/-! ### The history buffer -/

/-- HistRead answers the byte at its index inside `1..HCOUNT` and faults outside (R53). -/
theorem histRead_cases (n d : Nat) (h : History) :
    (1 ≤ d ∧ d ≤ h.hcount ∧
        ∃ b, Memory.read hbufUnlisted h.hbuf (histIndex n d h) = some b ∧ histRead n d h = .ok b) ∨
      (¬(1 ≤ d ∧ d ≤ h.hcount) ∧ histRead n d h = .error .histReadOutOfRange) := by
  by_cases hd : 1 ≤ d ∧ d ≤ h.hcount
  · obtain ⟨b, hb⟩ := hbuf_read_isSome h.hbuf (histIndex n d h)
    exact .inl ⟨hd.1, hd.2, b, hb, by simp [histRead, hd, hb]⟩
  · exact .inr ⟨hd, by simp [histRead, hd]⟩

@[simp] theorem histPushAll_nil (n : Nat) (h : History) : histPushAll n [] h = h := rfl

@[simp] theorem histPushAll_cons (n : Nat) (b : Byte) (bs : List Byte) (h : History) :
    histPushAll n (b :: bs) h = histPushAll n bs (histPush n b h) := rfl

theorem histPushAll_append (n : Nat) (as bs : List Byte) (h : History) :
    histPushAll n (as ++ bs) h = histPushAll n bs (histPushAll n as h) := by
  simp [histPushAll, List.foldl_append]

/-! ### The bit writer -/

/-- PutBits appends its bits exactly when the value fits, and faults otherwise (R121). -/
theorem putBits_eq_ok {v n : Nat} {w w' : Writer} :
    putBits v n w = .ok w' ↔ v < 2 ^ n ∧ putBitsLoop v n w = w' := by
  by_cases h : v < 2 ^ n <;> simp [putBits, h]

/-- A LIT is always emitted: the tag 0 and the eight bits of the byte (R146). -/
theorem emitLit_eq (b : Byte) (w : Writer) :
    emitLit b w = .ok (putBitsLoop b.toNat 8 (putBitsLoop 0 1 w)) := by
  have h := b.isLt
  simp only [emitLit, putBits, show (0 : Nat) < 2 ^ 1 from by decide, if_true]
  simp [h]

/-- A REF in its ranges is always emitted: the tag 1, the offset field, the length field (R146). -/
theorem emitRef_eq {c : ConfigRegs} {d n : Nat} (hd : 1 ≤ d) (hd' : d ≤ c.window) (hn : 1 ≤ n) (hn' : n ≤ c.lmax)
    (w : Writer) :
    emitRef c d n w =
      .ok (putBitsLoop (lengthField n) c.lbits (putBitsLoop (offsetField d) c.wbits (putBitsLoop 1 1 w))) := by
  have h1 : offsetField d < 2 ^ c.wbits := by simp only [ConfigRegs.window] at hd'; simp only [offsetField]; omega
  have h2 : lengthField n < 2 ^ c.lbits := by simp only [ConfigRegs.lmax] at hn'; simp only [lengthField]; omega
  simp [emitRef, hd, hd', hn, hn', putBits, h1, h2]

/-! ### The bit reader -/

/-- One bit read: the bit of the staged byte at the cursor, after a refill where one is due (R126). -/
theorem getBit_eq_ok {cap : Nat} {r r' : Reader} {bit : Bool} :
    getBit cap r = .ok (bit, r') ↔
      ∃ b, stagedByte (refillIfEmpty cap r) = .ok b ∧ bit = b.getLsbD (7 - (refillIfEmpty cap r).bitOff) ∧
        r' = advanceBit (refillIfEmpty cap r) := by
  unfold getBit
  cases stagedByte (refillIfEmpty cap r) <;> simp [eq_comm]

/-- The staged byte is there exactly below `STAGE_FILL` where STAGE holds one (R58). -/
theorem stagedByte_eq_ok {r : Reader} {b : Byte} :
    stagedByte r = .ok b ↔ r.rd < r.fill ∧ Memory.read stageUnlisted r.stage r.rd = some b := by
  unfold stagedByte
  split
  · split <;> simp_all
  · simp_all

/-- GetBits reads inside the stream only (R126, R127). -/
theorem getBits_eq_ok {cap n v : Nat} {r r' : Reader} :
    getBits cap n r = .ok (v, r') ↔ n ≤ remainingBits r ∧ getBitsLoop cap n 0 r = .ok (v, r') := by
  by_cases h : n ≤ remainingBits r <;> simp [getBits, h]

/-- What AtBoundary can answer (R131). -/
theorem atBoundary_cases {cap w l : Nat} {r r' : Reader} {a : Boundary} (h : atBoundary cap w l r = .ok (a, r')) :
    (remainingBits r = 0 ∧ a = .endOfStream ∧ r' = r) ∨
      (0 < remainingBits r ∧ remainingBits r ≤ 7 ∧ r' = r ∧
        ((tailIsZero r = .ok true ∧ a = .endOfStream) ∨ (tailIsZero r = .ok false ∧ a = .truncated))) ∨
      (7 < remainingBits r ∧ ∃ tag, getBits cap 1 r = .ok (tag, r') ∧
        ((remainingBits r' < (if tag = 0 then 8 else w + l) ∧ a = .truncated) ∨
          ((if tag = 0 then 8 else w + l) ≤ remainingBits r' ∧ a = .token (tag != 0)))) := by
  simp only [atBoundary] at h
  split at h
  · next h0 => simp_all
  · next h0 =>
    split at h
    · next h7 =>
      right; left
      split at h <;> simp_all
      all_goals omega
    · next h7 =>
      right; right
      refine ⟨by omega, ?_⟩
      split at h
      · cases h
      · next tag r1 heq =>
        by_cases hlt : remainingBits r1 < (if tag = 0 then 8 else w + l)
        · rw [if_pos hlt] at h
          cases h
          exact ⟨tag, heq, .inl ⟨hlt, rfl⟩⟩
        · rw [if_neg hlt] at h
          cases h
          exact ⟨tag, heq, .inr ⟨by omega, rfl⟩⟩

/-! ### The steps of the decoder -/

/-- A REF's effect after its fields are read: a dangling failure, or the start of the copy (R165, R168). -/
theorem refEffect_cases (d n : Nat) (s : State) :
    (s.hist.hcount < d ∧ refEffect d n s = raise (.malformedStream .dangling) s) ∨
      (d ≤ s.hist.hcount ∧
        refEffect d n s = { s with dec := { s.dec with refOff := d, refRem := n, dstate := .copy } }) := by
  by_cases h : s.hist.hcount < d
  · exact .inl ⟨h, by simp [refEffect, h]⟩
  · exact .inr ⟨by omega, by simp [refEffect, h]⟩

/-- What one AwaitTagStep can do (R163). -/
theorem awaitTagStep_cases {s t : State} (h : awaitTagStep s = .ok t) :
    ∃ a r, atBoundary s.cfg.inbufCap s.cfg.wbits s.cfg.lbits s.reader = .ok (a, r) ∧
      ((a = .endOfStream ∧ t = setDState .drained { s with reader := r }) ∨
        (a = .truncated ∧ t = raise (.malformedStream .truncated) { s with reader := r }) ∨
        (a = .token false ∧ t = setDState .readLit { s with reader := r }) ∨
        (a = .token true ∧ t = setDState .readRef { s with reader := r })) := by
  unfold awaitTagStep at h
  split at h
  · cases h
  all_goals
    next r hr =>
    injection h with h
    subst h
    exact ⟨_, r, hr, by simp⟩

/-- What one ReadLitStep can do (R164). -/
theorem readLitStep_cases {s t : State} (h : readLitStep s = .ok t) :
    ∃ v r, getBits s.cfg.inbufCap 8 s.reader = .ok (v, r) ∧ t = litEffect (BitVec.ofNat 8 v) { s with reader := r } := by
  unfold readLitStep at h
  split at h
  · cases h
  · next v r hr =>
    injection h with h
    exact ⟨v, r, hr, h.symm⟩

/-- What one ReadRefStep can do (R165). -/
theorem readRefStep_cases {s t : State} (h : readRefStep s = .ok t) :
    ∃ o len r1 r2, getBits s.cfg.inbufCap s.cfg.wbits s.reader = .ok (o, r1) ∧
      getBits s.cfg.inbufCap s.cfg.lbits r1 = .ok (len, r2) ∧
      t = refEffect (refOffset o) (refLength len) { s with reader := r2 } := by
  unfold readRefStep at h
  split at h
  · cases h
  · next o r1 h1 =>
    split at h
    · cases h
    · next len r2 h2 => exact ⟨o, len, r1, r2, h1, h2, by simpa [eq_comm] using h⟩

/-- What one CopyStep can do (R167). -/
theorem copyStep_cases {s t : State} (h : copyStep s = .ok t) :
    (s.dec.refRem = 0 ∧ t = setDState .awaitTag s) ∨
      (s.dec.refRem ≠ 0 ∧ ∃ b, histRead s.cfg.window s.dec.refOff s.hist = .ok b ∧
        t = { emit b s with dec := { (emit b s).dec with refRem := s.dec.refRem - 1 } }) := by
  unfold copyStep at h
  split at h
  · next h0 => exact .inl ⟨h0, by simpa [eq_comm] using h⟩
  · next h0 =>
    split at h
    · cases h
    · next b hb => exact .inr ⟨h0, b, hb, by simpa [eq_comm] using h⟩

/-- No step of the decoder writes a configuration register, STATUS, the encoder, its writer, or the host's side (R22, R63). -/
theorem decodeStep_frame {s t : State} (h : decodeStep s = .ok t) :
    t.cfg = s.cfg ∧ t.status = s.status ∧ t.enc = s.enc ∧ t.writer = s.writer ∧ t.requests = s.requests ∧
      t.reply = s.reply ∧ t.platform = s.platform := by
  unfold decodeStep at h
  split at h
  · obtain ⟨a, r, -, ⟨-, rfl⟩ | ⟨-, rfl⟩ | ⟨-, rfl⟩ | ⟨-, rfl⟩⟩ := awaitTagStep_cases h <;> simp
  · obtain ⟨v, r, -, rfl⟩ := readLitStep_cases h; simp
  · obtain ⟨o, len, r1, r2, -, -, rfl⟩ := readRefStep_cases h
    rcases refEffect_cases (refOffset o) (refLength len) { s with reader := r2 } with ⟨-, e⟩ | ⟨-, e⟩ <;> simp [e]
  · obtain ⟨-, rfl⟩ | ⟨-, b, -, rfl⟩ := copyStep_cases h <;> simp
  all_goals cases h

/-! ### The encoder's step -/

/-- What one EncodeStep can do: the match found, then its REF, or the literal (R144). -/
theorem encodeStep_cases {s t : State} (h : encodeStep s = .ok t) :
    ∃ b off len, s.enc.input[s.enc.ipos]? = some b ∧
      findMatch s.cfg.window s.cfg.lmax s.hist s.enc = .ok (off, len) ∧
      ((s.cfg.minm ≤ len ∧ ∃ w, emitRef s.cfg off len s.writer = .ok w ∧
          t = { s with
            writer := w
            hist := histPushAll s.cfg.window ((s.enc.input.drop s.enc.ipos).take len) s.hist
            enc := { s.enc with ipos := s.enc.ipos + len, matchOff := off, matchLen := len } }) ∨
        (len < s.cfg.minm ∧ ∃ w, emitLit b s.writer = .ok w ∧
          t = { s with
            writer := w
            hist := histPush s.cfg.window b s.hist
            enc := { s.enc with ipos := s.enc.ipos + 1, matchOff := off, matchLen := len } })) := by
  simp only [encodeStep] at h
  split at h
  · cases h
  · next b hb =>
    split at h
    · cases h
    · next off len hm =>
      refine ⟨b, off, len, hb, hm, ?_⟩
      split at h
      · next hle =>
        simp only [encodeRef] at h
        split at h
        · cases h
        · next w hw => exact .inl ⟨hle, w, hw, by simpa [eq_comm] using h⟩
      · next hlt =>
        simp only [encodeLit] at h
        split at h
        · cases h
        · next w hw => exact .inr ⟨by omega, w, hw, by simpa [eq_comm] using h⟩

/-! ### The ends of the operations -/

/-- An output is in bounds exactly where the platform admits it (R150). -/
theorem exceedsOutCap_eq_false {p : Platform} {out : List Byte} : exceedsOutCap p out = false ↔ p.admits out := by
  unfold exceedsOutCap Platform.admits
  cases p.outCap <;> simp

/-- What the end of an ENCODE can do (R141, R150). -/
theorem finishEncode_cases (s : State) :
    (exceedsOutCap s.platform (flushBits s.writer).out = true ∧ finishEncode s = .refused .outCapExceeded) ∨
      (exceedsOutCap s.platform (flushBits s.writer).out = false ∧
        finishEncode s = .next { s with
          writer := flushBits s.writer
          enc := { s.enc with running := false }
          status := statusOk
          reply := .okBytes (flushBits s.writer).out }) := by
  unfold finishEncode
  cases exceedsOutCap s.platform (flushBits s.writer).out <;> simp

/-- What the end of a DECODE can do (R162, R199). -/
theorem finishDecode_cases (s : State) :
    (s.dec.dstate = .drained ∧ exceedsOutCap s.platform s.dec.out = true ∧ finishDecode s = .refused .outCapExceeded) ∨
      (s.dec.dstate = .drained ∧ exceedsOutCap s.platform s.dec.out = false ∧
        finishDecode s = .next { s with
          dec := { s.dec with dstate := .idle }
          status := statusOk
          reply := .okBytes s.dec.out }) ∨
      (s.dec.dstate ≠ .drained ∧
        finishDecode s = .next { s with
          dec := { s.dec with dstate := .idle, out := [] }
          status := statusOf (.malformedStream s.dec.cause)
          reply := .err (.malformedStream s.dec.cause) }) := by
  unfold finishDecode
  by_cases h : s.dec.dstate = .drained
  · cases exceedsOutCap s.platform s.dec.out <;> simp [h]
  · simp [h]

end Sys2Proof.Machine
end

