-- ==== Sys2Proof/Laws/PerInstr.lean ====
section
/-! SUPPORT. A statement per instruction: its encoding takes exactly the bits R71 to R76 give it. -/

namespace Sys2Proof

/-- A field has as many bits as its width. -/
@[simp] theorem length_fieldBits (v n : Nat) : (fieldBits v n).length = n := by
  induction n with
  | zero => rfl
  | succ n ih => simp [fieldBits, ih]

end Sys2Proof

namespace Sys2Proof.Laws.EncodedSize

/-- The instruction's stream bits number what its format says (R74), and a command takes none of the stream (R79). -/
def Statement (i : Instr) : Prop :=
  ∀ W L : Nat, (tokenBits W L i).length = tokenSize W L i

theorem lit (v : Byte) : Statement (.lit v) := fun W L => by simp [tokenBits, tokenSize]

theorem ref (d n : Nat) : Statement (.ref d n) := fun W L => by simp [tokenBits, tokenSize]; omega

theorem endOfStream : Statement .endOfStream := fun _ _ => rfl

theorem encInit (w l : Int) : Statement (.encInit w l) := fun _ _ => rfl

theorem decInit (w l : Int) : Statement (.decInit w l) := fun _ _ => rfl

theorem decInitCap (cap w l : Int) : Statement (.decInitCap cap w l) := fun _ _ => rfl

theorem encode (x : List Byte) : Statement (.encode x) := fun _ _ => rfl

theorem decode (y : List Byte) : Statement (.decode y) := fun _ _ => rfl

theorem reservedCmd (code : Byte) : Statement (.reservedCmd code) := fun _ _ => rfl

end Sys2Proof.Laws.EncodedSize
end

