-- ==== Sys2Proof/Machine/Asm.lean ====
section
/-! DEFINITION. The written form of instructions: the token syntax of 30_encoding R81 and the host-operation syntax of R82,
as characters. No step depends on it. -/

namespace Sys2Proof

/-- A hexadecimal digit, upper case (R11, R81). -/
def hexDigit (n : Nat) : Char :=
  ['0', '1', '2', '3', '4', '5', '6', '7', '8', '9', 'A', 'B', 'C', 'D', 'E', 'F'].getD n '0'

/-- A byte as `0xHH` (R81). -/
def byteText (b : Byte) : List Char :=
  ['0', 'x', hexDigit (b.toNat / 16), hexDigit (b.toNat % 16)]

/-- A natural number in decimal. -/
def natText (n : Nat) : List Char := Nat.toDigits 10 n

/-- An integer in decimal. -/
def intText : Int → List Char
  | .ofNat n => natText n
  | .negSucc n => '-' :: natText (n + 1)

/-- A byte sequence as `[0x.., 0x..]` (R82). -/
def bytesText (bs : List Byte) : List Char :=
  ['['] ++ ((bs.map byteText).intersperse [',', ' ']).flatten ++ [']']

/-- Operands after a mnemonic, separated by commas (R81, R82). -/
def operandsText (mnemonic : List Char) (ops : List (List Char)) : List Char :=
  mnemonic ++ [' '] ++ (ops.intersperse [',', ' ']).flatten

/-- An instruction as R81 and R82 write it: `LIT 0x61`, `REF 2, 4` (offset and length, not the fields), `END`,
`ENC_INIT 8, 4`, …; a reserved code as `CMD 0x07`. -/
def Instr.text : Instr → List Char
  | .lit v => operandsText ['L', 'I', 'T'] [byteText v]
  | .ref d n => operandsText ['R', 'E', 'F'] [natText d, natText n]
  | .endOfStream => ['E', 'N', 'D']
  | .encInit w l => operandsText ['E', 'N', 'C', '_', 'I', 'N', 'I', 'T'] [intText w, intText l]
  | .decInit w l => operandsText ['D', 'E', 'C', '_', 'I', 'N', 'I', 'T'] [intText w, intText l]
  | .decInitCap cap w l =>
    operandsText ['D', 'E', 'C', '_', 'I', 'N', 'I', 'T', '_', 'C', 'A', 'P'] [intText cap, intText w, intText l]
  | .encode x => operandsText ['E', 'N', 'C', 'O', 'D', 'E'] [bytesText x]
  | .decode y => operandsText ['D', 'E', 'C', 'O', 'D', 'E'] [bytesText y]
  | .reservedCmd code => operandsText ['C', 'M', 'D'] [byteText code]

/-- A stream written with its configuration first, `.config W=8 L=4`, one token a line, END last (R81). -/
def streamText (W L : Nat) (toks : List Instr) : List Char :=
  ['.', 'c', 'o', 'n', 'f', 'i', 'g', ' ', 'W', '='] ++ natText W ++ [' ', 'L', '='] ++ natText L ++
    (toks.flatMap fun i => '\n' :: i.text) ++ ['\n', 'E', 'N', 'D']

end Sys2Proof
end

