-- ==== Sys2Proof/Tests/Slice0.lean ====
section
/-! SUPPORT. Tests: the checks of WellFormed, words written out from the spec's formats, the spec's own vectors
(95_test_vectors) one operation each, and for every statement with hypotheses a state and operands that meet them. -/

namespace Sys2Proof.Tests

open Sys2Proof.Machine

/-! ### Helpers -/

/-- The next state of an outcome. -/
def nextOf : Host.Outcome State Fault Refusal → Option State
  | .next s => some s
  | .fault _ => none
  | .refused _ => none

/-- The refusal of an outcome. -/
def refusalOf : Host.Outcome State Fault Refusal → Option Refusal
  | .next _ => none
  | .fault _ => none
  | .refused r => some r

/-- The result the host receives of an instruction, and STATUS after it. -/
def answer (i : Instr) (s : State) : Option (Reply × BitVec 8) :=
  (nextOf (exec i s)).map fun t => (t.reply, t.status)

/-- An idle Encoder. -/
def encoder (W L : Nat) : State := constructEncoder W L State.reset

/-- An idle Decoder. -/
def decoder (cap W L : Nat) : State := constructDecoder cap W L State.reset

/-- A Decoder whose DECODE of `y` has just begun. -/
def decoding (cap W L : Nat) (y : List Byte) : State := startDecode y (decoder cap W L)

/-- A Decoder (4, 3) after the LIT 'x' of `LIT 'x'; REF 1, 8` (95 program 2). -/
def afterLit : State := (nextOf (exec (.lit 0x78) (decoding 1 4 3 [0x3C, 0x43, 0x80]))).getD State.reset

/-- A Decoder (8, 4) after the LIT that begins `0x30` and the next byte: the other seven bits of that byte are left. -/
def afterLitOf (y1 : Byte) : State := (nextOf (exec (.lit 0x61) (decoding 1 8 4 [0x30, y1]))).getD State.reset

/-- A state on a platform with a finite OUT_CAP. -/
def capped (cap : Nat) (s : State) : State := { s with platform := ⟨some cap, none⟩ }

/-- What an operation answered with Ok. -/
def ok (bs : List Byte) : Option (Reply × BitVec 8) := some (.okBytes bs, 0)

/-- What an operation answered with a failure. -/
def failed (f : Failure) (word : BitVec 8) : Option (Reply × BitVec 8) := some (.err f, word)

/-! ### WellFormed refuses an ill-formed term for each of its checks -/

theorem test_wf_ref_offset_zero : (Instr.ref 0 1).wf 4 3 = false := by decide
theorem test_wf_ref_offset_above_window : (Instr.ref 17 1).wf 4 3 = false := by decide
theorem test_wf_ref_length_zero : (Instr.ref 1 0).wf 4 3 = false := by decide
theorem test_wf_ref_length_above_lmax : (Instr.ref 1 9).wf 4 3 = false := by decide
theorem test_wf_ref_limits : (Instr.ref 16 8).wf 4 3 = true := by decide
theorem test_wf_reserved_code_assigned : (Instr.reservedCmd 0x05).wf 4 3 = false := by decide
theorem test_wf_reserved_code_six : (Instr.reservedCmd 0x06).wf 4 3 = true := by decide
/-- 95 section 1.10: the corners accepted, and one refused configuration for each test of R101. -/
theorem test_legalConfig :
    LegalConfig 4 3 ∧ LegalConfig 15 14 ∧ ¬LegalConfig 3 2 ∧ ¬LegalConfig 16 4 ∧ ¬LegalConfig 8 2 ∧
      ¬LegalConfig 15 15 ∧ ¬LegalConfig 4 4 := by decide

/-! ### Words written out from the formats of 30_encoding -/

/-- R78: `0 01100001`. -/
theorem test_decode_lit :
    decode 8 4 (.bits [false, false, true, true, false, false, false, false, true]) = .ok (.lit 0x61) := by decide
/-- R78: `1 00000001 0011` is REF 2, 4. -/
theorem test_decode_ref :
    decode 8 4 (.bits [true, false, false, false, false, false, false, false, true, false, false, true, true]) =
      .ok (.ref 2 4) := by decide
/-- 95 section 1.7: `1 1111 000` at W = 4, L = 3 is REF 16, 1. -/
theorem test_decode_ref_smallest :
    decode 4 3 (.bits [true, true, true, true, true, false, false, false]) = .ok (.ref 16 1) := by decide
/-- 95 section 3.3. -/
theorem test_decode_end :
    decode 8 4 (.bits []) = .ok .endOfStream ∧ decode 8 4 (.bits (List.replicate 7 false)) = .ok .endOfStream := by
  decide
/-- 95 section 3.3: eight zero bits, `10000000` and `0000001` are truncated at W = 8, L = 4. -/
theorem test_decode_truncated :
    decode 8 4 (.bits (List.replicate 8 false)) = .error .truncatedToken ∧
      decode 8 4 (.bits (true :: List.replicate 7 false)) = .error .truncatedToken ∧
      decode 8 4 (.bits [false, false, false, false, false, false, true]) = .error .truncatedToken := by decide
theorem test_decode_encInit :
    decode 8 4 (.request { cmd := 0x01, args := [.int 8, .int (-4)] }) = .ok (.encInit 8 (-4)) := by decide
theorem test_decode_decInit :
    decode 8 4 (.request { cmd := 0x02, args := [.int 8, .int 4] }) = .ok (.decInit 8 4) := by decide
theorem test_decode_decInitCap :
    decode 8 4 (.request { cmd := 0x03, args := [.int 64, .int 8, .int 4] }) = .ok (.decInitCap 64 8 4) := by decide
theorem test_decode_encode :
    decode 8 4 (.request { cmd := 0x04, args := [.bytes [0x61]] }) = .ok (.encode [0x61]) := by decide
theorem test_decode_decode :
    decode 8 4 (.request { cmd := 0x05, args := [.bytes [0x30, 0x80]] }) = .ok (.decode [0x30, 0x80]) := by decide
theorem test_decode_reserved :
    decode 8 4 (.request { cmd := 0x00, args := [] }) = .ok (.reservedCmd 0x00) ∧
      decode 8 4 (.request { cmd := 0xFF, args := [.int 1] }) = .ok (.reservedCmd 0xFF) := by decide
theorem test_decode_badOperands :
    decode 8 4 (.request { cmd := 0x01, args := [.int 8] }) = .error .badOperands := by decide
/-- R78: the padded streams of the worked encodings. -/
theorem test_assemble :
    assemble 8 4 [.lit 0x61] = [0x30, 0x80] ∧ assemble 8 4 [.ref 2 4] = [0x80, 0x98] ∧
      assemble 8 4 [.lit 0x00] = [0x00, 0x00] := by decide
/-- 95 programs 2 and 4: a hand-assembled stream, and RUN 'z', 40. -/
theorem test_assemble_programs :
    assemble 4 3 [.lit 0x78, .ref 1 8, .lit 0x79, .ref 2 4, .lit 0x7A, .ref 15 3, .endOfStream] =
        [0x3C, 0x43, 0x9E, 0x62, 0xCF, 0x5E, 0x40] ∧
      assemble 8 4 (expandRun 4 0x7A 40) = [0x3D, 0x40, 0x3E, 0x01, 0xF0, 0x06] := by decide

/-- R81, R82: the written forms of a token and of an operation. -/
theorem test_text :
    (Instr.ref 2 14).text = ['R', 'E', 'F', ' ', '2', ',', ' ', '1', '4'] ∧
      (Instr.decode [0x30, 0x9C]).text =
        ['D', 'E', 'C', 'O', 'D', 'E', ' ', '[', '0', 'x', '3', '0', ',', ' ', '0', 'x', '9', 'C', ']'] := by decide

/-! ### The opcode table's words, placed and run -/

theorem test_table_words :
    decodeTableWord 16 0x061 = some (.lit 0x61) ∧ decodeTableWord 16 0x1013 = some (.ref 2 4) ∧
      decodeTableWord 0 0 = some .endOfStream ∧ decodeTableWord 8 0x01 = some (.encInit 0 0) ∧
      decodeTableWord 8 0x05 = some (.decode []) ∧ decodeTableWord 8 0x06 = some (.reservedCmd 0x06) := by decide
theorem test_step_runs_placed_lit :
    (nextOf (step (State.reset.withFetchWord 16 0x061))).map (fun t => (t.dec.out, t.dec.dstate)) =
      some ([0x61], .awaitTag) := by decide
theorem test_step_runs_placed_encode :
    (nextOf (step (State.reset.withFetchWord 8 0x04))).map (·.reply) = some (.okBytes []) := by decide

/-! ### Construction (95 section 2) -/

theorem test_encInit : (nextOf (exec (.encInit 8 4) State.reset)).map (·.cfg) = some ⟨.encoder, 8, 4, 0, 2⟩ := by decide
theorem test_encInit_fails :
    [((-1 : Int), (4 : Int)), (15, 15), (8, 8)].map (fun p => answer (.encInit p.1 p.2) State.reset) =
      [failed (.invalidParameter .wRange) 0x05, failed (.invalidParameter .lRange) 0x09,
        failed (.invalidParameter .lNotLess) 0x0D] := by decide
theorem test_decInit : (nextOf (exec (.decInit 8 4) State.reset)).map (·.cfg) = some ⟨.decoder, 8, 4, 256, 0⟩ := by decide
theorem test_decInitCap :
    (nextOf (exec (.decInitCap 65535 15 14) State.reset)).map (·.cfg) = some ⟨.decoder, 15, 14, 65535, 0⟩ := by decide
theorem test_decInitCap_fails :
    [((0 : Int), (8 : Int), (4 : Int)), (65536, 8, 4), (0, 8, 8)].map
        (fun p => answer (.decInitCap p.1 p.2.1 p.2.2) State.reset) =
      [failed (.invalidParameter .capRange) 0x11, failed (.invalidParameter .capRange) 0x11,
        failed (.invalidParameter .lNotLess) 0x0D] := by decide

/-! ### ENCODE (95 section 5) -/

/-- An overlapping match, `LIT 'a'; REF 1, 2`. -/
theorem test_encode_overlap : answer (.encode [0x61, 0x61, 0x61]) (encoder 8 4) = ok [0x30, 0xC0, 0x04] := by decide
theorem test_encode_ababab :
    answer (.encode [0x61, 0x62, 0x61, 0x62, 0x61, 0x62]) (encoder 4 3) = ok [0x30, 0x98, 0xA2, 0xC0] := by decide
/-- A threshold of 3 leaves a match of 2 as literals. -/
theorem test_encode_minMatch :
    answer (.encode [0x61, 0x61, 0x61])
        { encoder 8 4 with cfg := { (encoder 8 4).cfg with minm := 3 } } = ok [0x30, 0x98, 0x4C, 0x20] := by decide

/-! ### DECODE and the tokens (95 sections 4, 6, 7) -/

/-- `LIT 'x'; REF 1, 16`: the copy is byte-serial. -/
theorem test_decode_overlapping_copy :
    answer (.decode [0x3C, 0x40, 0x3C]) (decoder 1 8 4) = ok (List.replicate 17 0x78) := by decide
/-- TRUNCATED before DANGLING inside one REF; the same byte is a whole dangling REF at W = 4, L = 3. -/
theorem test_decode_fails :
    answer (.decode [0x80]) (decoder 256 8 4) = failed (.malformedStream .truncated) 0x0A ∧
      answer (.decode [0x80]) (decoder 256 4 3) = failed (.malformedStream .dangling) 0x06 := by decide
/-- A zero byte after a stream is data; the stream of "ababab" at W = 8, L = 5 has another meaning. -/
theorem test_decode_trailing_and_mismatch :
    answer (.decode [0x30, 0x80, 0x00]) (decoder 2 8 4) = ok [0x61, 0x00] ∧
      answer (.decode [0x30, 0x98, 0xA0, 0x26]) (decoder 256 8 5) =
        ok [0x61, 0x62, 0x61, 0x62, 0x61, 0x62, 0x61, 0x62, 0x61] := by decide
theorem test_lit :
    (nextOf (exec (.lit 0x61) (decoding 1 8 4 [0x30, 0x80]))).map
        (fun t => (t.dec.out, readCursor t.reader, t.hist.hcount)) = some ([0x61], 9, 1) := by decide
theorem test_lit_truncated :
    answer (.lit 0x00) (decoding 1 8 4 [0x00]) = failed (.malformedStream .truncated) 0x0A := by decide
theorem test_ref :
    (nextOf (exec (.ref 1 8) afterLit)).map (fun t => (t.dec.out, readCursor t.reader)) =
      some (List.replicate 9 0x78, 17) := by decide
theorem test_ref_dangling :
    answer (.ref 2 1) afterLit = failed (.malformedStream .dangling) 0x06 := by decide
/-- R170's example: `[0x30, 0x80]` reaches END at stream bit 9 with seven zero bits left. -/
theorem test_end :
    answer .endOfStream (afterLitOf 0x80) = ok [0x61] ∧ readCursor (afterLitOf 0x80).reader = 9 := by decide
/-- A tail of seven bits that holds a 1 is TRUNCATED, not END (R170). -/
theorem test_step_truncated_tail :
    (nextOf (step (afterLitOf 0x81))).map (fun t => (t.reply, t.status)) =
      failed (.malformedStream .truncated) 0x0A := by decide
theorem test_token_outside_decode :
    refusalOf (exec (.lit 0x61) (decoder 1 8 4)) = some .tokenOutsideDecode := by decide

/-! ### Refusals (95 program 3) -/

theorem test_reserved : refusalOf (exec (.reservedCmd 0x07) State.reset) = some (.reservedCommand 0x07) := by decide
theorem test_roles :
    refusalOf (exec (.encode [0x61]) (decoder 256 8 4)) = some .notEncoder ∧
      refusalOf (exec (.decode [0x61]) State.reset) = some .notDecoder := by decide
theorem test_busy : refusalOf (exec (.encInit 8 4) (decoding 1 8 4 [])) = some .busy := by decide
theorem test_outCap :
    refusalOf (exec (.encode [0x61]) { encoder 8 4 with platform := ⟨some 1, none⟩ }) = some .outCapExceeded := by decide

/-! ### Witnesses: a state and operands that meet a statement's hypotheses -/

theorem test_witness_token_encodings :
    LegalConfig 4 3 ∧ (Instr.ref 16 8).isToken = true ∧ (Instr.ref 16 8).wf 4 3 = true ∧ (Instr.lit 0xFF).isToken = true ∧
      (Instr.lit 0xFF).wf 4 3 = true ∧ decodeToken 4 3 (List.replicate 8 true) = .token (.ref 16 8) [] := by decide
theorem test_witness_command_encodings :
    (Instr.reservedCmd 0x00).wf 4 3 = true ∧ (Instr.reservedCmd 0xFF).wf 4 3 = true ∧
      Instr.endOfStream.wf 4 3 = true ∧ (Instr.encInit (-1) 99).wf 4 3 = true := by decide
/-- StreamBitOrder: the last bit of a byte, and the last bit of a field. -/
theorem test_witness_bit_order :
    7 < 8 * [(0x01 : Byte)].length ∧ (streamBits [0x01])[7]? = some true ∧ 2 < 3 ∧ (fieldBits 1 3)[2]? = some true := by
  decide
/-- HistoryHoldsRecentBytes, HistPushWritesOneEntry: a canonical history. -/
theorem test_witness_history : Memory.wf hbufUnlisted afterLit.hist.hbuf ∧ afterLit.hist.hcount = 1 := by decide
theorem test_witness_writer_fields :
    ∀ f ∈ [((0 : Nat), (1 : Nat)), (0x61, 8), (15, 4)], f.1 < 2 ^ f.2 := by decide
/-- GetBitsReadsTheStream, AtBoundaryClassifies, FetchSeesTheStream: a coherent reader in the middle of a byte. -/
theorem test_witness_reader : 1 ≤ 1 ∧ afterLit.reader.coherent 1 ∧ 15 ≤ remainingBits afterLit.reader := by decide
/-- AtBoundaryClassifies: each of its cases has a coherent reader. -/
theorem test_witness_boundaries :
    [[0x30, 0x80], [0x80, 0x98], [], [0x00]].map (fun y => (decoding 1 8 4 y).reader.coherent 1) = [True, True, True, True] ∧
      [[0x30, 0x80], [0x80, 0x98], [], [0x00]].map (fun y => decodeToken 8 4 (streamBits y)) =
        [.token (.lit 0x61) (List.replicate 7 false), .token (.ref 2 4) (List.replicate 3 false), .token .endOfStream [],
          .truncated] := by
  refine ⟨?_, by decide⟩
  simp only [List.map_cons, List.map_nil, List.cons.injEq, eq_iff_iff, iff_true, and_true]
  decide
/-- EncInitMakesAnEncoder, DecInitMakesADecoder, EncInitSetsTheThreshold, FailedConstructionChangesOnlyStatus: any slot that
is not busy, the corners of the ranges. -/
theorem test_witness_construction :
    LegalConfig 4 3 ∧ LegalConfig 15 14 ∧ State.reset.busy = false ∧ (decoder 1 8 4).busy = false ∧ 1 ≤ 1 ∧ 1 ≤ 65535 := by
  decide
/-- EncInitSetsTheThreshold: a platform with its own threshold, at the ends of the range. -/
theorem test_witness_threshold :
    (nextOf (exec (.encInit 4 3) { State.reset with platform := ⟨none, some 8⟩ })).map (·.cfg.minm) = some 8 ∧
      (nextOf (exec (.encInit 4 3) { State.reset with platform := ⟨none, some 1⟩ })).map (·.cfg.minm) = some 1 := by decide
/-- ConstructionKeepsTheRest: a construction that goes on. -/
theorem test_witness_construction_next : ∃ t, exec (.decInit 8 4) (encoder 4 3) = .next t := ⟨_, rfl⟩
/-- OnlyConstructionsWriteConfig, OnlyConstructionsRaiseInvalidParameter, EncodeFrame, StatusReportsTheResult. -/
theorem test_witness_encode_next : ∃ t, exec (.encode [0x61]) (encoder 4 3) = .next t := ⟨_, rfl⟩
/-- DecodeFrame, StatusReportsTheResult. -/
theorem test_witness_decode_next : ∃ t, exec (.decode [0x30, 0x80]) (decoder 1 4 3) = .next t := ⟨_, rfl⟩
/-- RefusedRequests, ReservedCommandIsRefused: codes at the ends of the reserved ranges, a busy slot, a wrong role. -/
theorem test_witness_refusals :
    [(0x00 : Byte), 0x06, 0xFF].map (fun c => decide (c.toNat = 0 ∨ (6 ≤ c.toNat ∧ c.toNat ≤ 0xFF))) = [true, true, true] ∧
      State.reset.busy = false ∧ (decoding 1 8 4 []).busy = true ∧ State.reset.cfg.role ≠ .encoder ∧
      State.reset.cfg.role ≠ .decoder := by decide
/-- RefusedRequests: outputs one byte beyond a finite OUT_CAP. -/
theorem test_witness_outCap :
    (capped 1 (encoder 4 3)).readyToEncode ∧ ¬(capped 1 (encoder 4 3)).platform.admits ((encoder 4 3).greedyStream [0x61]) ∧
      (capped 0 (decoder 1 4 3)).readyToDecode ∧ decodeStream 4 3 [0x30, 0x80] = .ok [0x61] ∧
      ¬(capped 0 (decoder 1 4 3)).platform.admits [0x61] := by decide
/-- The statements that an ENCODE or DECODE goes on: outputs of exactly a finite OUT_CAP, and no OUT_CAP. -/
theorem test_witness_outCap_fits :
    (capped 2 (encoder 4 3)).readyToEncode ∧ (capped 2 (encoder 4 3)).platform.admits ((encoder 4 3).greedyStream [0x61]) ∧
      (∀ cap ∈ (capped 2 (encoder 4 3)).platform.outCap, (9 * [(0x61 : Byte)].length + 7) / 8 ≤ cap) ∧
      (capped 1 (decoder 1 4 3)).readyToDecode ∧ (capped 1 (decoder 1 4 3)).decodeFits [0x30, 0x80] ∧
      (capped 0 (decoder 1 4 3)).decodeFits [0x80] ∧ (capped 1 (decoder 1 4 3)).platform.admits [0x61] ∧
      (encoder 4 3).platform.admits ((encoder 4 3).greedyStream [0x61]) ∧ (decoder 1 4 3).decodeFits [0x30, 0x80] := by
  decide
/-- TokensNeedARunningDecode. -/
theorem test_witness_no_decode : (decoder 1 8 4).dec.dstate ≠ .awaitTag := by decide
/-- FindMatchIsLongestNearest: position 1 of "aa", whose window holds "a". -/
theorem test_witness_findMatch :
    let e : EncoderRegs := { input := [0x61, 0x61], ipos := 1, matchOff := 0, matchLen := 0, running := true }
    e.ipos ≤ e.input.length ∧ (histPush (2 ^ 4) 0x61 histConstructed).holds (2 ^ 4) (e.input.take e.ipos) := by decide
/-- Statements about an idle Encoder or Decoder: both are ready, with the same W and L and the same platform. -/
theorem test_witness_ready :
    (encoder 4 3).readyToEncode ∧ (decoder 1 4 3).readyToDecode ∧ (decoder 256 4 3).readyToDecode ∧
      (encoder 4 3).cfg.wbits = (decoder 1 4 3).cfg.wbits ∧ (encoder 4 3).cfg.lbits = (decoder 1 4 3).cfg.lbits ∧
      (encoder 4 3).cfg.minm = defaultMinMatch (encoder 4 3).cfg.wbits (encoder 4 3).cfg.lbits ∧
      (decoder 1 4 3).platform.outCap = (decoder 256 4 3).platform.outCap := by decide
/-- EncodeDependsOnConfigAlone: an Encoder with a used history and a new one. -/
theorem test_witness_used_encoder :
    ((nextOf (exec (.encode [0x61, 0x62]) (encoder 4 3))).map fun s =>
      decide (s.Inv ∧ s.busy = false ∧ s.cfg = (encoder 4 3).cfg ∧ s.hist ≠ (encoder 4 3).hist)) = some true := by decide
/-- DecoderTransitions: a decoder's step in each state that has one, and a finished DECODE. -/
theorem test_witness_transitions :
    (decodeStep (decoding 1 4 3 [0x30, 0x80])).toOption.map (·.dec.dstate) = some .readLit ∧
      (decodeStep (setDState .readLit (decoding 1 4 3 [0x30]))).toOption.map (·.dec.dstate) = some .awaitTag ∧
      (decodeStep (setDState .readRef (decoding 1 4 3 [0x30]))).toOption.map (·.dec.dstate) = some .failed ∧
      (decodeStep (setDState .copy (decoding 1 4 3 []))).toOption.map (·.dec.dstate) = some .awaitTag ∧
      (nextOf (step (setDState .drained (decoding 1 4 3 [])))).map (·.dec.dstate) = some .idle := by decide
/-- LitAppendsItsByte, at exactly nine bits. -/
theorem test_witness_lit :
    (decoding 1 8 4 [0x30, 0x80]).Inv ∧ (decoding 1 8 4 [0x30, 0x80]).atTokenBoundary = true ∧
      9 ≤ remainingBits (decoding 1 8 4 [0x30, 0x80]).reader := by decide
/-- RefCopiesByteSerially and DanglingRefFails: after one LIT, offset 1 is valid and offset 16 dangles. -/
theorem test_witness_ref :
    afterLit.Inv ∧ afterLit.atTokenBoundary = true ∧
      1 + afterLit.cfg.wbits + afterLit.cfg.lbits ≤ remainingBits afterLit.reader ∧ 1 ≤ afterLit.hist.hcount ∧
      8 ≤ 2 ^ afterLit.cfg.lbits ∧ 16 ≤ 2 ^ afterLit.cfg.wbits ∧ afterLit.dec.out.length < 16 := by decide
/-- IncompleteTokenFails: eight bits are no LIT, and no REF at W = 8, L = 4. -/
theorem test_witness_incomplete :
    (decoding 1 8 4 [0x80]).Inv ∧ (decoding 1 8 4 [0x80]).atTokenBoundary = true ∧
      remainingBits (decoding 1 8 4 [0x80]).reader < tokenSize 8 4 (.lit 0) ∧
      remainingBits (decoding 1 8 4 [0x80]).reader < tokenSize 8 4 (.ref 1 1) := by decide
/-- EndReturnsTheOutput: END's condition (R76) at the cursor with no bit left and with seven, and an OUT_CAP of exactly the
output. -/
theorem test_witness_end :
    let unread (s : State) := (streamBits s.reader.src).drop (readCursor s.reader)
    (decoding 1 8 4 []).Inv ∧ (decoding 1 8 4 []).atTokenBoundary = true ∧ unread (decoding 1 8 4 []) = [] ∧
      (capped 1 (afterLitOf 0x80)).Inv ∧ (capped 1 (afterLitOf 0x80)).atTokenBoundary = true ∧
      unread (capped 1 (afterLitOf 0x80)) = List.replicate 7 false ∧
      (capped 1 (afterLitOf 0x80)).platform.admits (capped 1 (afterLitOf 0x80)).dec.out := by decide
/-- TruncatedBoundaryFails: seven bits that hold a 1, eight bits of a LIT, and `W + L` bits of a REF. -/
theorem test_witness_truncated :
    let unread (s : State) := (streamBits s.reader.src).drop (readCursor s.reader)
    (afterLitOf 0x81).Inv ∧ (afterLitOf 0x81).atTokenBoundary = true ∧ (unread (afterLitOf 0x81)).length = 7 ∧
      true ∈ unread (afterLitOf 0x81) ∧ (decoding 1 8 4 [0x00]).Inv ∧ (decoding 1 8 4 [0x00]).atTokenBoundary = true ∧
      unread (decoding 1 8 4 [0x00]) = List.replicate 8 false ∧ (decoding 1 10 6 [0x80, 0x00]).Inv ∧
      (decoding 1 10 6 [0x80, 0x00]).atTokenBoundary = true ∧
      unread (decoding 1 10 6 [0x80, 0x00]) = true :: List.replicate 15 false := by decide
/-- PseudoInstructionsExpand: the ends of its ranges, with an OUT_CAP of exactly the output. -/
theorem test_witness_pseudo :
    2 ≤ 2 ∧ 1 ≤ 1 ∧ 1 ≤ [(0x61 : Byte)].length ∧ 1 ≤ 2 ^ (decoder 1 4 3).cfg.wbits ∧
      (capped 2 (decoder 1 4 3)).readyToDecode ∧ (capped 2 (decoder 1 4 3)).platform.admits (List.replicate 2 0x61) ∧
      (capped 2 (decoder 1 4 3)).platform.admits (copyBytes 1 1 [0x61]) := by decide
/-- UnpaddedStreamsConcatenate: "abcdefgh" needs no padding. -/
theorem test_witness_unpadded :
    (tokensBits 8 4 (greedyTokens 8 4 2 [0x61, 0x62, 0x63, 0x64, 0x65, 0x66, 0x67, 0x68])).length % 8 = 0 ∧
      (decoder 1 8 4).readyToDecode ∧
      (decoder 1 8 4).platform.admits ([0x61, 0x62, 0x63, 0x64, 0x65, 0x66, 0x67, 0x68] ++ [0x61]) := by decide
/-- StepRunsTheDecodedInstruction: a truncated boundary, inside a token, at the end of a DECODE, inside an ENCODE, and a
request of wrong operand types. -/
theorem test_witness_step_other :
    decodeToken 8 4 (pendingBits (decoding 1 8 4 [0x00]).reader) = .truncated ∧
      (decoding 1 8 4 [0x00]).dec.dstate = .awaitTag ∧
      [DState.readLit, .readRef, .copy, .drained, .failed].map (fun q => (setDState q (decoder 1 8 4)).dec.dstate) =
        [.readLit, .readRef, .copy, .drained, .failed] ∧
      (startEncode [0x61] (encoder 4 3)).dec.dstate = .idle ∧ (startEncode [0x61] (encoder 4 3)).enc.running = true ∧
      decodeRequest { cmd := 0x01, args := [.int 8] } = .error .badOperands := by decide
/-- StepRunsTheDecodedInstruction: a token, a request, and neither. -/
theorem test_witness_step :
    decodeToken 8 4 (pendingBits (decoding 1 8 4 [0x30, 0x80]).reader) = .token (.lit 0x61) (List.replicate 7 false) ∧
      decodeRequest { cmd := 0x04, args := [.bytes []] } = .ok (.encode []) ∧ State.reset.busy = false ∧
      State.reset.requests = [] := by decide
/-- StepKeepsTheInvariant, ExecKeepsTheInvariant, StepNeverFaults: states that meet it, idle and inside operations. -/
theorem test_witness_inv :
    State.reset.Inv ∧ afterLit.Inv ∧ (startEncode [0x61, 0x61] (encoder 4 3)).Inv ∧
      (Instr.ref 1 8).wf afterLit.cfg.wbits afterLit.cfg.lbits = true := by decide
theorem test_witness_step_next : ∃ t, step afterLit = .next t := ⟨_, rfl⟩
/-- InstancesAreIndependent: both of two instances take a step, another system holds the same instance 0, and a step is
refused. -/
theorem test_witness_instances :
    (0 : Nat) ≠ 1 ∧ (∃ ss, systemStep 0 [afterLit, State.reset] = .next ss) ∧
      (∃ ss, systemStep 1 [afterLit, State.reset] = .next ss) ∧ [afterLit][0]? = [afterLit, State.reset][0]? ∧
      step { State.reset with requests := [{ cmd := 0x07, args := [] }] } = .refused (.reservedCommand 0x07) :=
  ⟨by decide, ⟨_, rfl⟩, ⟨_, rfl⟩, rfl, rfl⟩

end Sys2Proof.Tests
end

section
/-! ### Stream bits, fields and packing (30_encoding R70, R75) -/

namespace Sys2Proof

@[simp] theorem length_byteBits (b : Byte) : (byteBits b).length = 8 := rfl

@[simp] theorem streamBits_nil : streamBits [] = [] := rfl

@[simp] theorem streamBits_cons (b : Byte) (bs : List Byte) : streamBits (b :: bs) = byteBits b ++ streamBits bs := rfl

@[simp] theorem streamBits_append (as bs : List Byte) : streamBits (as ++ bs) = streamBits as ++ streamBits bs :=
  List.flatMap_append

@[simp] theorem length_streamBits (bs : List Byte) : (streamBits bs).length = 8 * bs.length := by
  induction bs with
  | nil => rfl
  | cons b bs ih => simp [ih]; omega

/-- Bit `k` of a byte's stream bits is its bit `7 - k` (R70). -/
theorem getElem?_byteBits (b : Byte) {k : Nat} (hk : k < 8) : (byteBits b)[k]? = some (b.getLsbD (7 - k)) := by
  interval_cases k <;> rfl

/-- Stream bit `k` is bit `7 - k mod 8` of byte `k div 8` (R70). -/
theorem getElem?_streamBits (bs : List Byte) (k : Nat) :
    (streamBits bs)[k]? = (bs[k / 8]?).map (fun b => b.getLsbD (7 - k % 8)) := by
  induction bs generalizing k with
  | nil => simp
  | cons b bs ih =>
    by_cases hk : k < 8
    · rw [streamBits_cons, List.getElem?_append_left (by simpa using hk), getElem?_byteBits b hk,
        Nat.div_eq_of_lt hk, Nat.mod_eq_of_lt hk]
      rfl
    · obtain ⟨j, rfl⟩ := Nat.exists_eq_add_of_le (not_lt.mp hk)
      rw [streamBits_cons, List.getElem?_append_right (by simp), length_byteBits, Nat.add_sub_cancel_left, ih,
        Nat.add_mod_left, Nat.add_div_left _ (by decide), List.getElem?_cons_succ]

/-- Reading on from the value `v` shifts it above the bits read. -/
theorem foldl_bits_eq (bs : List Bool) (v : Nat) :
    bs.foldl (fun v b => 2 * v + b.toNat) v = v * 2 ^ bs.length + bitsToNat bs := by
  induction bs generalizing v with
  | nil => simp [bitsToNat]
  | cons b bs ih =>
    simp only [bitsToNat, List.foldl_cons, List.length_cons] at ih ⊢
    rw [ih, ih (2 * 0 + b.toNat)]
    ring

@[simp] theorem bitsToNat_nil : bitsToNat [] = 0 := rfl

theorem bitsToNat_cons (b : Bool) (bs : List Bool) : bitsToNat (b :: bs) = b.toNat * 2 ^ bs.length + bitsToNat bs := by
  simpa [bitsToNat] using foldl_bits_eq bs b.toNat

theorem bitsToNat_append (as bs : List Bool) :
    bitsToNat (as ++ bs) = bitsToNat as * 2 ^ bs.length + bitsToNat bs := by
  rw [bitsToNat, List.foldl_append, foldl_bits_eq]
  rfl

theorem bitsToNat_lt (bs : List Bool) : bitsToNat bs < 2 ^ bs.length := by
  induction bs with
  | nil => simp
  | cons b bs ih =>
    rw [bitsToNat_cons, List.length_cons, pow_succ]
    cases b <;> simp <;> omega

/-- A field is read back up to its width (R70). -/
theorem bitsToNat_fieldBits (v n : Nat) : bitsToNat (fieldBits v n) = v % 2 ^ n := by
  induction n with
  | zero => simp [fieldBits, Nat.mod_one]
  | succ n ih =>
    rw [fieldBits, bitsToNat_cons, length_fieldBits, ih, Nat.testBit_eq_decide_div_mod_eq, Nat.mod_pow_succ]
    rcases Nat.mod_two_eq_zero_or_one (v / 2 ^ n) with h | h <;> simp only [h] <;> simp [Nat.add_comm]

/-- Only the low bits of a value enter its field. -/
theorem fieldBits_congr {v u n : Nat} (h : ∀ i < n, v.testBit i = u.testBit i) : fieldBits v n = fieldBits u n := by
  induction n with
  | zero => rfl
  | succ n ih => rw [fieldBits, fieldBits, h n (by omega), ih fun i hi => h i (by omega)]

/-- The bits of a field are the field of the number they read as (R70). -/
theorem fieldBits_bitsToNat (bs : List Bool) : fieldBits (bitsToNat bs) bs.length = bs := by
  induction bs with
  | nil => rfl
  | cons b bs ih =>
    have hlt := bitsToNat_lt bs
    have htop : (bitsToNat (b :: bs)).testBit bs.length = b := by
      rw [bitsToNat_cons, Nat.mul_comm, Nat.testBit_two_pow_mul_add _ hlt]
      cases b <;> simp
    have hlow : fieldBits (bitsToNat (b :: bs)) bs.length = fieldBits (bitsToNat bs) bs.length :=
      fieldBits_congr fun i hi => by
        rw [bitsToNat_cons, Nat.mul_comm, Nat.testBit_two_pow_mul_add _ hlt, if_pos hi]
    rw [List.length_cons, fieldBits, htop, hlow, ih]

/-- The stream bits of a byte are the eight-bit field of any number it is the low byte of (R70). -/
theorem byteBits_ofNat (v : Nat) : byteBits (BitVec.ofNat 8 v) = fieldBits v 8 := by
  simp only [fieldBits, byteBits, BitVec.getLsbD_ofNat]
  simp

/-- The eight-bit field of a byte is its stream bits (R70). -/
theorem fieldBits_toNat (b : Byte) : fieldBits b.toNat 8 = byteBits b := by
  rw [← byteBits_ofNat, BitVec.ofNat_toNat, BitVec.setWidth_eq]

/-- A byte packed from at most eight bits has them first, then zeros (R75). -/
theorem byteBits_packByte {bs : List Bool} (h : bs.length ≤ 8) :
    byteBits (packByte bs) = bs ++ List.replicate (8 - bs.length) false := by
  have hlen : (bs ++ List.replicate (8 - bs.length) false).length = 8 := by simp; omega
  have hfield := fieldBits_bitsToNat (bs ++ List.replicate (8 - bs.length) false)
  rw [packByte, byteBits_ofNat]
  rwa [hlen] at hfield

/-- Packing takes the bits eight at a time. -/
theorem pack_eight_append {bs rest : List Bool} (h : bs.length = 8) : pack (bs ++ rest) = packByte bs :: pack rest := by
  match bs, h with
  | [_, _, _, _, _, _, _, _], _ => rfl

/-- A last byte of fewer than eight bits is packed by itself. -/
theorem pack_short {bs : List Bool} (h0 : bs ≠ []) (h : bs.length < 8) : pack bs = [packByte bs] := by
  match bs, h0, h with
  | [_], _, _ | [_, _], _, _ | [_, _, _], _, _ | [_, _, _, _], _, _ | [_, _, _, _, _], _, _
  | [_, _, _, _, _, _], _, _ | [_, _, _, _, _, _, _], _, _ => rfl

/-- Packing the stream bits of bytes gives the bytes, whatever is packed after them. -/
theorem pack_streamBits_append (bs : List Byte) (rest : List Bool) :
    pack (streamBits bs ++ rest) = bs ++ pack rest := by
  induction bs with
  | nil => rfl
  | cons b bs ih =>
    have hb : packByte (byteBits b) = b := by
      rw [packByte, ← fieldBits_toNat]
      simp [bitsToNat_fieldBits, Nat.mod_eq_of_lt b.isLt]
    rw [streamBits_cons, List.append_assoc, pack_eight_append (length_byteBits b), ih, hb, List.cons_append]

/-- The framing of R75: the bits, then zeros up to the byte boundary. -/
theorem streamBits_pack (bs : List Bool) :
    streamBits (pack bs) = bs ++ List.replicate ((8 - bs.length % 8) % 8) false := by
  induction hn : bs.length using Nat.strong_induction_on generalizing bs with
  | _ n ih =>
    by_cases hlt : bs.length < 8
    · by_cases h0 : bs = []
      · subst h0 hn; rfl
      · have hpos := List.length_pos_iff.mpr h0
        rw [pack_short h0 hlt, streamBits_cons, byteBits_packByte hlt.le, streamBits_nil, List.append_nil,
          show (8 - n % 8) % 8 = 8 - bs.length by omega]
    · have hlen : (bs.take 8).length = 8 := by simp; omega
      have hdrop : (bs.drop 8).length = n - 8 := by simp [hn]
      conv_lhs => rw [← List.take_append_drop 8 bs]
      rw [pack_eight_append hlen, streamBits_cons, byteBits_packByte hlen.le, hlen,
        ih (n - 8) (by omega) (bs.drop 8) hdrop, show (n - 8) % 8 = n % 8 by omega]
      simp [← List.append_assoc]

end Sys2Proof
end

section
/-! ### The token decoder (30_encoding R71 to R77) and the meaning of token lists -/

namespace Sys2Proof

/-- Everything that can stand at a token boundary (R131): END's tail, a truncated tail, or a tag with the bits after it,
which are too few, a LIT, or a REF. -/
theorem decodeToken_cases (W L : Nat) (bits : List Bool) :
    (bits.length ≤ 7 ∧ (∀ b ∈ bits, b = false) ∧ decodeToken W L bits = .token .endOfStream bits) ∨
      (bits.length ≤ 7 ∧ (¬∀ b ∈ bits, b = false) ∧ decodeToken W L bits = .truncated) ∨
      ∃ tag rest, bits = tag :: rest ∧ 7 ≤ rest.length ∧
        ((rest.length < (if tag then W + L else 8) ∧ decodeToken W L bits = .truncated) ∨
          (tag = false ∧ 8 ≤ rest.length ∧
            decodeToken W L bits = .token (.lit (BitVec.ofNat 8 (bitsToNat (rest.take 8)))) (rest.drop 8)) ∨
          (tag = true ∧ W + L ≤ rest.length ∧
            decodeToken W L bits =
              .token (.ref (refOffset (bitsToNat (rest.take W))) (refLength (bitsToNat ((rest.drop W).take L))))
                (rest.drop (W + L)))) := by
  by_cases h7 : bits.length ≤ 7
  · by_cases hz : ∀ b ∈ bits, b = false
    · exact .inl ⟨h7, hz, by simp_all [decodeToken]⟩
    · exact .inr (.inl ⟨h7, hz, by simp_all [decodeToken]⟩)
  · right; right
    match bits, h7 with
    | false :: rest, h7 =>
      refine ⟨false, rest, rfl, by simp at h7; omega, ?_⟩
      by_cases hlt : rest.length < 8
      · exact .inl ⟨by simpa using hlt, by simp only [decodeToken, if_neg h7, if_pos hlt]⟩
      · exact .inr (.inl ⟨rfl, by omega, by simp only [decodeToken, if_neg h7, if_neg hlt]⟩)
    | true :: rest, h7 =>
      refine ⟨true, rest, rfl, by simp at h7; omega, ?_⟩
      by_cases hlt : rest.length < W + L
      · exact .inl ⟨by simpa using hlt, by simp only [decodeToken, if_neg h7, if_pos hlt]⟩
      · exact .inr (.inr ⟨rfl, by omega, by simp only [decodeToken, if_neg h7, if_neg hlt]⟩)

/-- A zero tail of at most seven bits is END (R76). -/
theorem decodeToken_zeros (W L : Nat) {n : Nat} (hn : n ≤ 7) :
    decodeToken W L (List.replicate n false) = .token .endOfStream (List.replicate n false) := by
  simp [decodeToken, hn]

/-- The token decoder reads back a LIT, whatever follows it (R71). -/
theorem decodeToken_lit (W L : Nat) (v : Byte) (rest : List Bool) :
    decodeToken W L (tokenBits W L (.lit v) ++ rest) = .token (.lit v) rest := by
  have hlen : (fieldBits v.toNat 8).length = 8 := length_fieldBits _ _
  have hv : v.toNat % 2 ^ 8 = v.toNat := Nat.mod_eq_of_lt v.isLt
  simp only [tokenBits, List.cons_append, decodeToken, List.length_cons, List.length_append, hlen,
    List.take_left' hlen, List.drop_left' hlen, bitsToNat_fieldBits, hv, BitVec.ofNat_toNat, BitVec.setWidth_eq]
  rw [if_neg (by omega), if_neg (by omega)]

/-- The token decoder reads back a well-formed REF of at least a byte, whatever follows it (R72, R73). -/
theorem decodeToken_ref {W L d n : Nat} (hWL : 7 ≤ W + L) (hwf : (Instr.ref d n).wf W L = true) (rest : List Bool) :
    decodeToken W L (tokenBits W L (.ref d n) ++ rest) = .token (.ref d n) rest := by
  simp only [Instr.wf, Bool.and_eq_true, decide_eq_true_eq] at hwf
  obtain ⟨⟨⟨hd, hdW⟩, hn⟩, hnL⟩ := hwf
  have hO : (fieldBits (offsetField d) W).length = W := length_fieldBits _ _
  have hF : (fieldBits (lengthField n) L).length = L := length_fieldBits _ _
  have hOF : (fieldBits (offsetField d) W ++ fieldBits (lengthField n) L).length = W + L := by simp
  have hdO : refOffset (offsetField d % 2 ^ W) = d := by
    rw [offsetField, Nat.mod_eq_of_lt (by omega), refOffset]; omega
  have hnF : refLength (lengthField n % 2 ^ L) = n := by
    rw [lengthField, Nat.mod_eq_of_lt (by omega), refLength]; omega
  simp only [tokenBits, List.cons_append, decodeToken, List.length_cons, List.length_append, hO, hF,
    List.drop_left' hOF]
  simp only [List.append_assoc, List.take_left' hO, List.drop_left' hO, List.take_left' hF, bitsToNat_fieldBits, hdO,
    hnF]
  rw [if_neg (by omega), if_neg (by omega)]

/-- R71 to R73: the token decoder reads back every well-formed token, whatever follows it. -/
theorem decodeToken_tokenBits {W L : Nat} {i : Instr} (hWL : 7 ≤ W + L) (ht : i.isToken = true)
    (hwf : i.wf W L = true) (rest : List Bool) : decodeToken W L (tokenBits W L i ++ rest) = .token i rest := by
  match i, ht with
  | .lit v, _ => exact decodeToken_lit W L v rest
  | .ref d n, _ => exact decodeToken_ref hWL hwf rest

/-- A token takes at least one bit. -/
theorem length_tokenBits_pos {W L : Nat} {i : Instr} (ht : i.isToken = true) : 0 < (tokenBits W L i).length := by
  match i, ht with
  | .lit _, _ | .ref _ _, _ => simp [tokenBits]

@[simp] theorem tokensBits_nil (W L : Nat) : tokensBits W L [] = [] := rfl

@[simp] theorem tokensBits_cons (W L : Nat) (i : Instr) (toks : List Instr) :
    tokensBits W L (i :: toks) = tokenBits W L i ++ tokensBits W L toks := rfl

/-- A stream has no fewer bits than tokens. -/
theorem length_le_length_tokensBits {W L : Nat} {toks : List Instr} (ht : ∀ i ∈ toks, i.isToken = true) :
    toks.length ≤ (tokensBits W L toks).length := by
  induction toks with
  | nil => rfl
  | cons i toks ih =>
    obtain ⟨hi, ht⟩ := List.forall_mem_cons.mp ht
    have := length_tokenBits_pos (W := W) (L := L) hi
    have := ih ht
    simp only [tokensBits_cons, List.length_append, List.length_cons]
    omega

end Sys2Proof

namespace Sys2Proof.Machine

/-- What a token list makes of the output so far: LITs append, REFs copy or dangle (R164, R165). `decodeTokens` of the
list's stream is this (`decodeStream_assemble`). -/
def tokensOutput : List Instr → List Byte → Except MalformedCause (List Byte)
  | .lit v :: toks, out => tokensOutput toks (out ++ [v])
  | .ref d n :: toks, out => if out.length < d then .error .dangling else tokensOutput toks (copyBytes d n out)
  | _, out => .ok out

@[simp] theorem tokensOutput_nil (out : List Byte) : tokensOutput [] out = .ok out := rfl

@[simp] theorem tokensOutput_lit (v : Byte) (toks : List Instr) (out : List Byte) :
    tokensOutput (.lit v :: toks) out = tokensOutput toks (out ++ [v]) := rfl

@[simp] theorem tokensOutput_ref (d n : Nat) (toks : List Instr) (out : List Byte) :
    tokensOutput (.ref d n :: toks) out =
      if out.length < d then .error .dangling else tokensOutput toks (copyBytes d n out) := rfl

/-- The bits of well-formed tokens before at most seven zeros mean what the tokens make of the output (R75, R163). -/
theorem decodeTokens_tokensBits {W L pad : Nat} (hWL : 7 ≤ W + L) (hpad : pad ≤ 7) {toks : List Instr}
    (ht : ∀ i ∈ toks, i.isToken = true ∧ i.wf W L = true) {fuel : Nat} (hf : toks.length < fuel) (out : List Byte) :
    decodeTokens W L fuel (tokensBits W L toks ++ List.replicate pad false) out = tokensOutput toks out := by
  induction toks generalizing fuel out with
  | nil =>
    obtain ⟨fuel, rfl⟩ := Nat.exists_eq_succ_of_ne_zero (Nat.ne_of_gt hf)
    simp [decodeTokens, decodeToken_zeros W L hpad]
  | cons i toks ih =>
    obtain ⟨fuel, rfl⟩ := Nat.exists_eq_succ_of_ne_zero (Nat.ne_of_gt (Nat.zero_lt_of_lt hf))
    obtain ⟨⟨hi, hwf⟩, ht⟩ := List.forall_mem_cons.mp ht
    have ih := fun out => ih ht (fuel := fuel) (by simpa using hf) out
    rw [tokensBits_cons, List.append_assoc, decodeTokens, decodeToken_tokenBits hWL hi hwf]
    match i, hi with
    | .lit v, _ => exact ih _
    | .ref d n, _ => simp only [ih, tokensOutput_ref]

/-- The stream of a list of well-formed tokens means what they make of an empty output (R75, R161). -/
theorem decodeStream_assemble {W L : Nat} (hWL : 7 ≤ W + L) {toks : List Instr}
    (ht : ∀ i ∈ toks, i.isToken = true ∧ i.wf W L = true) :
    decodeStream W L (assemble W L toks) = tokensOutput toks [] := by
  have hbits := streamBits_pack (tokensBits W L toks)
  have hlen := congrArg List.length hbits
  have htoks := length_le_length_tokensBits (W := W) (L := L) fun i hi => (ht i hi).1
  simp only [length_streamBits, List.length_append] at hlen
  rw [decodeStream, assemble, hbits]
  exact decodeTokens_tokensBits hWL (by omega) ht (by omega) []

end Sys2Proof.Machine
end

section
/-! ### The greedy parse over plain lists (42_encoder R140 to R145): what it emits copies back the input -/

namespace Sys2Proof.Machine

/-- The bytes of `x` from `p` on repeat those `d` before them, `len` bytes long (R142). -/
def IsMatch (x : List Byte) (p d len : Nat) : Prop :=
  ∀ k < len, x[p + k - d]? = x[p + k]?

theorem isMatch_zero (x : List Byte) (p d : Nat) : IsMatch x p d 0 := fun _ hk => absurd hk (by omega)

theorem IsMatch.succ {x : List Byte} {p d len : Nat} (h : IsMatch x p d len) (hlen : x[p + len - d]? = x[p + len]?) :
    IsMatch x p d (len + 1) := fun k hk => by
  rcases Nat.lt_succ_iff_lt_or_eq.mp hk with hk | rfl
  exacts [h k hk, hlen]

/-- What the inner loop of FindMatch measures is a match, within the fuel (R145). -/
theorem matchLength_spec {x : List Byte} {p d fuel len : Nat} (h : IsMatch x p d len) :
    IsMatch x p d (matchLength x p d fuel len) ∧ matchLength x p d fuel len ≤ len + fuel := by
  induction fuel generalizing len with
  | zero => exact ⟨h, le_rfl⟩
  | succ fuel ih =>
    rw [matchLength]
    split
    · next heq =>
      obtain ⟨hm, hle⟩ := ih (h.succ heq)
      exact ⟨hm, by omega⟩
    · exact ⟨h, by omega⟩

/-- A choice of FindMatch at position `p`: no match, or one of an offset in `1..last` and of at most `maxlen` bytes. -/
def MatchChoice (x : List Byte) (p maxlen last : Nat) (best : Nat × Nat) : Prop :=
  IsMatch x p best.1 best.2 ∧ best.2 ≤ maxlen ∧ best.1 ≤ last ∧ (best.1 = 0 ↔ best.2 = 0)

/-- The outer loop of FindMatch chooses among the offsets it tries (R145). -/
theorem bestMatch_choice {x : List Byte} {p maxlen last count d : Nat} {best : Nat × Nat} (hd : 1 ≤ d)
    (hlast : d + count ≤ last + 1) (h : MatchChoice x p maxlen last best) :
    MatchChoice x p maxlen last (bestMatch x p maxlen count d best) := by
  induction count generalizing d best with
  | zero => exact h
  | succ count ih =>
    refine ih (by omega) (by omega) ?_
    obtain ⟨hm, hle⟩ := matchLength_spec (fuel := maxlen) (isMatch_zero x p d)
    split
    · exact ⟨hm, by simpa using hle, by simp only; omega, by simp only; omega⟩
    · exact h

/-- The longest match in the window is a match within its ranges, or `(0, 0)` (R145). -/
theorem longestMatch_choice (W L : Nat) (x : List Byte) (p : Nat) :
    MatchChoice x p (min (2 ^ L) (x.length - p)) (min p (2 ^ W)) (longestMatch W L x p) :=
  bestMatch_choice le_rfl (by omega) ⟨isMatch_zero x p 0, Nat.zero_le _, Nat.zero_le _, by simp⟩

/-- A match of at least one byte has an offset inside the window and the input consumed, and a length that a REF can
hold and the input has left. -/
theorem longestMatch_ranges {W L : Nat} {x : List Byte} {p : Nat} (h : 1 ≤ (longestMatch W L x p).2) :
    1 ≤ (longestMatch W L x p).1 ∧ (longestMatch W L x p).1 ≤ p ∧ (longestMatch W L x p).1 ≤ 2 ^ W ∧
      (longestMatch W L x p).2 ≤ 2 ^ L ∧ p + (longestMatch W L x p).2 ≤ x.length := by
  obtain ⟨-, hlen, hoff, hzero⟩ := longestMatch_choice W L x p
  omega

/-- Copying a match of the input consumed gives the input consumed after it (R142, R167). -/
theorem copyBytes_of_isMatch {x : List Byte} {p d n : Nat} (hd : 1 ≤ d) (hdp : d ≤ p) (hn : p + n ≤ x.length)
    (h : IsMatch x p d n) : copyBytes d n (x.take p) = x.take (p + n) := by
  induction n generalizing p with
  | zero => rfl
  | succ n ih =>
    have hlen : (x.take p).length = p := by simp; omega
    have hnext : (x.take p).getD ((x.take p).length - d) 0 = x[p] := by
      have h0 : x[p - d]? = x[p]? := h 0 (by omega)
      rw [hlen, List.getD_eq_getElem?_getD, List.getElem?_take_of_lt (by omega), h0,
        List.getElem?_eq_getElem (by omega), Option.getD_some]
    rw [copyBytes, hnext, List.take_append_getElem, ih (by omega) (by omega), Nat.add_right_comm, Nat.add_assoc]
    intro k hk
    simpa [Nat.add_assoc, Nat.add_comm 1 k] using h (k + 1) (by omega)

/-- What the greedy parse does at one position: it ends, emits the longest match, or emits the byte (R144). -/
theorem greedyFrom_succ_cases (W L minm : Nat) (x : List Byte) (fuel p : Nat) :
    (x.length ≤ p ∧ greedyFrom W L minm x (fuel + 1) p = []) ∨
      ∃ hp : p < x.length,
        (minm ≤ (longestMatch W L x p).2 ∧
          greedyFrom W L minm x (fuel + 1) p =
            .ref (longestMatch W L x p).1 (longestMatch W L x p).2 ::
              greedyFrom W L minm x fuel (p + (longestMatch W L x p).2)) ∨
        ((longestMatch W L x p).2 < minm ∧
          greedyFrom W L minm x (fuel + 1) p = .lit x[p] :: greedyFrom W L minm x fuel (p + 1)) := by
  rcases Nat.lt_or_ge p x.length with hp | hp
  · refine .inr ⟨hp, ?_⟩
    rcases Nat.lt_or_ge (longestMatch W L x p).2 minm with hm | hm
    · exact .inr ⟨hm, by simp [greedyFrom, hp, Nat.not_le.mpr hm]⟩
    · exact .inl ⟨hm, by simp [greedyFrom, hp, hm]⟩
  · exact .inl ⟨hp, by simp [greedyFrom, hp]⟩

/-- With a threshold of at least 1 the greedy parse emits well-formed tokens (R73, R144). -/
theorem greedyFrom_wf {W L minm : Nat} (hm : 1 ≤ minm) (x : List Byte) (fuel p : Nat) :
    ∀ i ∈ greedyFrom W L minm x fuel p, i.isToken = true ∧ i.wf W L = true := by
  induction fuel generalizing p with
  | zero => simp [greedyFrom]
  | succ fuel ih =>
    rcases greedyFrom_succ_cases W L minm x fuel p with ⟨-, heq⟩ | ⟨hp, ⟨hle, heq⟩ | ⟨-, heq⟩⟩
    · simp [heq]
    · obtain ⟨h1, -, h2, h3, -⟩ := longestMatch_ranges (hm.trans hle)
      rw [heq]
      exact List.forall_mem_cons.mpr ⟨⟨rfl, by simp [Instr.wf]; omega⟩, ih _⟩
    · rw [heq]
      exact List.forall_mem_cons.mpr ⟨⟨rfl, rfl⟩, ih _⟩

/-- The greedy parse from `p` makes of the input before `p` the whole input (R153). -/
theorem tokensOutput_greedyFrom {W L minm : Nat} (hm : 1 ≤ minm) {x : List Byte} {fuel p : Nat} (hp : p ≤ x.length)
    (hf : x.length - p ≤ fuel) : tokensOutput (greedyFrom W L minm x fuel p) (x.take p) = .ok x := by
  induction fuel generalizing p with
  | zero => simp [greedyFrom, List.take_of_length_le (show x.length ≤ p by omega)]
  | succ fuel ih =>
    rcases greedyFrom_succ_cases W L minm x fuel p with ⟨hp, heq⟩ | ⟨hp, ⟨hle, heq⟩ | ⟨-, heq⟩⟩
    · simp [heq, List.take_of_length_le hp]
    · obtain ⟨hmatch, -⟩ := longestMatch_choice W L x p
      obtain ⟨h1, h2, -, -, h3⟩ := longestMatch_ranges (hm.trans hle)
      have hnd : ¬(x.take p).length < (longestMatch W L x p).1 := by simp; omega
      rw [heq, tokensOutput_ref, if_neg hnd, copyBytes_of_isMatch h1 h2 h3 hmatch]
      exact ih h3 (by omega)
    · rw [heq, tokensOutput_lit, List.take_append_getElem]
      exact ih hp (by omega)

/-- R153 over plain lists: the stream of the greedy parse of `x` means `x`, for every threshold of at least 1. -/
theorem decodeStream_greedyTokens {W L minm : Nat} (hWL : 7 ≤ W + L) (hm : 1 ≤ minm) (x : List Byte) :
    decodeStream W L (assemble W L (greedyTokens W L minm x)) = .ok x := by
  rw [greedyTokens, decodeStream_assemble hWL (greedyFrom_wf hm x x.length 0)]
  exact tokensOutput_greedyFrom hm (Nat.zero_le _) le_rfl

end Sys2Proof.Machine
end

section
/-! ### The history buffer holds the recent bytes (20_memory R52 to R54) -/

namespace Sys2Proof.Machine

variable {n : Nat} {out : List Byte} {h : History}

/-- The index HistRead computes is that of the byte `d` back, where HEAD is that of the next one (R53). -/
theorem histIndex_eq {m d : Nat} (hn : 0 < n) (hhead : h.head = m % n) (hd : d ≤ m) :
    histIndex n d h = (m - d) % n := by
  have hdn := (Nat.mod_lt d hn).le
  have hmod : h.head + n - d % n ≡ m - d [MOD n] := by
    refine Nat.ModEq.add_right_cancel (Nat.mod_modEq d n) ?_
    rw [Nat.sub_add_cancel (by omega), Nat.sub_add_cancel hd, hhead]
    simpa using (Nat.mod_modEq m n).add_right n
  exact hmod

/-- The window in terms of HBUF: each of the last `n` bytes of the output stands at its position modulo `n` (R54). -/
theorem History.holds_iff (hn : 0 < n) :
    h.holds n out ↔ h.hcount = min out.length n ∧ h.head = out.length % n ∧
      ∀ i < out.length, out.length ≤ i + n → Memory.read hbufUnlisted h.hbuf (i % n) = out[i]? := by
  refine and_congr_right fun hcount => and_congr_right fun hhead => ?_
  have hread {d : Nat} (h1 : 1 ≤ d) (hd : d ≤ h.hcount) :
      (histRead n d h).toOption = Memory.read hbufUnlisted h.hbuf ((out.length - d) % n) := by
    rw [← histIndex_eq (h := h) hn hhead (by omega)]
    rcases histRead_cases n d h with ⟨-, -, b, hb, hok⟩ | ⟨hno, -⟩
    · rw [hok, hb]; rfl
    · exact absurd ⟨h1, hd⟩ hno
  constructor
  · intro hall i hi hin
    have hd := hall (out.length - i) (List.mem_range.mpr (by omega)) (by omega)
    rwa [hread (by omega) (by omega), show out.length - (out.length - i) = i by omega] at hd
  · intro hall d hd h1
    have hd := List.mem_range.mp hd
    rw [hread h1 (by omega)]
    exact hall _ (by omega) (by omega)

/-- At a call start the window holds the empty output (R26, R141, R161). -/
theorem histCallStart_holds (n : Nat) (h : History) : (histCallStart h).holds n [] := by
  refine ⟨by simp [histCallStart], by simp [histCallStart], fun d hd h1 => ?_⟩
  have : d < 1 := by simpa [histCallStart] using hd
  omega

/-- A push extends the output the window holds by its byte (R52, R54). -/
theorem histPush_holds (hn : 0 < n) (hw : Memory.wf hbufUnlisted h.hbuf) (hh : h.holds n out) (b : Byte) :
    (histPush n b h).holds n (out ++ [b]) := by
  obtain ⟨hcount, hhead, hread⟩ := (History.holds_iff hn).mp hh
  refine (History.holds_iff hn).mpr ⟨by simp [histPush, hcount]; omega, by simp [histPush, hhead], fun i hi hin => ?_⟩
  simp only [List.length_append, List.length_singleton] at hi hin
  rcases Nat.lt_succ_iff_lt_or_eq.mp hi with hlt | rfl
  · have hne : i % n ≠ h.head := by
      rw [hhead]
      intro heq
      have hdvd := (Nat.modEq_iff_dvd' hlt.le).mp heq
      exact absurd (Nat.le_of_dvd (by omega) hdvd) (by omega)
    rw [histPush, Memory.read_write_ne _ _ hne, hread i hlt (by omega), List.getElem?_append_left hlt]
  · rw [histPush, ← hhead, Memory.read_write_self _ _ hw, List.getElem?_concat_length]

/-- Pushes of a sequence extend the output the window holds by it. -/
theorem histPushAll_holds (hn : 0 < n) (bs : List Byte) (hw : Memory.wf hbufUnlisted h.hbuf) (hh : h.holds n out) :
    (histPushAll n bs h).holds n (out ++ bs) := by
  induction bs generalizing h out with
  | nil => simpa using hh
  | cons b bs ih => simpa using ih (histPush_wf n b hw) (histPush_holds hn hw hh b)

/-- HistRead answers the byte `d` back in the output the window holds (R54). -/
theorem History.holds.histRead_eq (hh : h.holds n out) {d : Nat} (h1 : 1 ≤ d) (hd : d ≤ h.hcount) :
    ∃ b, histRead n d h = .ok b ∧ out[out.length - d]? = some b := by
  obtain ⟨-, -, hread⟩ := hh
  have heq := hread d (List.mem_range.mpr (by omega)) h1
  rcases histRead_cases n d h with ⟨-, -, b, -, hok⟩ | ⟨hno, -⟩
  · exact ⟨b, hok, by rw [← heq, hok]; rfl⟩
  · exact absurd ⟨h1, hd⟩ hno

/-- The valid offsets are those inside the window and the output. -/
theorem History.holds.le_hcount_iff (hh : h.holds n out) {d : Nat} : d ≤ h.hcount ↔ d ≤ out.length ∧ d ≤ n := by
  obtain ⟨hcount, -⟩ := hh
  omega

end Sys2Proof.Machine
end

section
/-! ### The bit reader reads the stream (41_bit_io R124 to R131) -/

namespace Sys2Proof.Machine

/-- STAGE lists every byte written to it, so a read after a write to the same index needs no canonical form (R58). -/
theorem stage_read_write_self (m : Memory) (k : Nat) (v : Byte) :
    Memory.read stageUnlisted (Memory.write stageUnlisted m k v) k = some v := by
  induction m with
  | nil => simp [Memory.write, Memory.read, stageUnlisted]
  | cons c m ih =>
    obtain ⟨a, b⟩ := c
    simp only [stageUnlisted, Memory.write, reduceCtorEq, if_false] at ih ⊢
    split_ifs with h1 h2
    · simp [Memory.read]
    · simp [Memory.read]
    · simpa [Memory.read, h2] using ih

/-- A sequence of writes to STAGE is read back index by index. -/
theorem stage_read_writeSeq (m : Memory) (k : Nat) (vs : List Byte) {i : Nat} (hi : i < vs.length) :
    Memory.read stageUnlisted (Memory.writeSeq stageUnlisted m k vs) (k + i) = vs[i]? := by
  induction vs generalizing m k i with
  | nil => simp at hi
  | cons v vs ih =>
    cases i with
    | zero =>
      rw [Memory.writeSeq, Memory.read_writeSeq_outside _ _ _ (by omega)]
      exact stage_read_write_self m k v
    | succ i =>
      rw [Memory.writeSeq, show k + (i + 1) = k + 1 + i by omega, ih _ _ (by simpa using hi), List.getElem?_cons_succ]

/-- The stream bits after the reader cursor (R125). -/
def Reader.unread (r : Reader) : List Bool := (streamBits r.src).drop (readCursor r)

/-- The reader has read `n` bits more of the same stream. -/
structure Reader.Moved (cap n : Nat) (r r' : Reader) : Prop where
  coherent : r'.coherent cap
  src : r'.src = r.src
  cursor : readCursor r' = readCursor r + n

variable {cap : Nat} {r r' : Reader}

theorem Reader.Moved.unread {n : Nat} (h : Reader.Moved cap n r r') : r'.unread = r.unread.drop n := by
  rw [Reader.unread, h.src, h.cursor, Reader.unread, List.drop_drop]

theorem Reader.Moved.refl (h : r.coherent cap) : Reader.Moved cap 0 r r := ⟨h, rfl, rfl⟩

theorem Reader.Moved.trans {m n : Nat} {r'' : Reader} (h : Reader.Moved cap m r r') (h' : Reader.Moved cap n r' r'') :
    Reader.Moved cap (m + n) r r'' :=
  ⟨h'.coherent, h'.src.trans h.src, by rw [h'.cursor, h.cursor, Nat.add_assoc]⟩

/-- The cursor of a coherent reader is inside the stream, and RemainingBits counts the bits after it (R127). -/
theorem Reader.coherent.remainingBits_eq (h : r.coherent cap) :
    remainingBits r = r.unread.length ∧ readCursor r ≤ 8 * r.src.length := by
  obtain ⟨hoff, hrd, hcap, hfill, hpos, hlt, -⟩ := h
  simp only [Reader.unread, List.length_drop, length_streamBits, remainingBits, readCursor]
  omega

/-- At a DECODE call start the reader is coherent and the whole stream is unread (R29, R161). -/
theorem readerCallStart_coherent (cap : Nat) (y : List Byte) (r : Reader) :
    (readerCallStart y r).coherent cap ∧ (readerCallStart y r).unread = streamBits y :=
  ⟨⟨Nat.zero_lt_succ _, le_rfl, Nat.zero_le _, le_rfl, Nat.zero_le _, fun h => h, by simp [readerCallStart]⟩, rfl⟩

/-- The staged byte of a coherent reader is the stream's byte at the cursor (R125). -/
theorem Reader.coherent.stagedByte_eq (h : r.coherent cap) (hlt : r.rd < r.fill) :
    ∃ b, stagedByte r = .ok b ∧ r.src[readCursor r / 8]? = some b ∧ readCursor r % 8 = r.bitOff := by
  obtain ⟨hoff, hrd, hcap, hfill, hpos, -, hstage⟩ := h
  have hidx : readCursor r / 8 = r.srcPos - r.fill + r.rd := by simp only [readCursor]; omega
  have hin : r.srcPos - r.fill + r.rd < r.src.length := by omega
  have hread := hstage r.rd (List.mem_range.mpr hlt)
  rw [List.getElem?_eq_getElem hin] at hread
  refine ⟨r.src[r.srcPos - r.fill + r.rd], stagedByte_eq_ok.mpr ⟨hlt, hread⟩, ?_, by simp only [readCursor]; omega⟩
  rw [hidx, List.getElem?_eq_getElem hin]

/-- Refill of a consumed STAGE moves no bit and stages the next bytes of SRC (R128). -/
theorem refill_moved (h : r.coherent cap) (heq : r.rd = r.fill) : Reader.Moved cap 0 r (refill cap r) := by
  obtain ⟨hoff, -, -, hfill, hpos, hlt, -⟩ := h
  have hzero : r.bitOff = 0 := by omega
  refine ⟨⟨hoff, Nat.zero_le _, Nat.min_le_left _ _, Nat.le_add_left _ _, ?_, fun hb => ?_, fun i hi => ?_⟩, rfl, ?_⟩
  · simp only [refill]; omega
  · simp only [refill] at hb; omega
  · have hi := List.mem_range.mp hi
    simp only [refill] at hi ⊢
    have hread := stage_read_writeSeq r.stage 0 ((r.src.drop r.srcPos).take (min cap (r.src.length - r.srcPos)))
      (i := i) (by simpa using hi)
    rw [Nat.zero_add, List.getElem?_take_of_lt hi, List.getElem?_drop] at hread
    rw [hread, Nat.add_sub_cancel]
  · simp only [refill, readCursor]; omega

/-- The refill before a bit is read moves no bit, and stages one where one is left (R126). -/
theorem refillIfEmpty_moved (h : r.coherent cap) :
    Reader.Moved cap 0 r (refillIfEmpty cap r) ∧
      (1 ≤ cap → 0 < r.unread.length → (refillIfEmpty cap r).rd < (refillIfEmpty cap r).fill) := by
  by_cases heq : r.rd = r.fill
  · have hrem := h.remainingBits_eq.1
    rw [refillIfEmpty, if_pos heq]
    refine ⟨refill_moved h heq, fun hcap hpos => ?_⟩
    simp only [remainingBits] at hrem
    simp only [refill]
    omega
  · obtain ⟨-, hrd, -⟩ := id h
    rw [refillIfEmpty, if_neg heq]
    exact ⟨.refl h, fun _ _ => by omega⟩

/-- Advancing inside the staged bytes moves one bit (R126). -/
theorem advanceBit_moved (h : r.coherent cap) (hlt : r.rd < r.fill) : Reader.Moved cap 1 r (advanceBit r) := by
  obtain ⟨hoff, hrd, hcap, hfill, hpos, -, hstage⟩ := h
  unfold advanceBit
  split
  · next h8 => exact ⟨⟨Nat.zero_lt_succ _, hlt, hcap, hfill, hpos, fun hb => by simp at hb, hstage⟩, rfl, by
      simp only [readCursor]; omega⟩
  · next h8 => exact ⟨⟨by simp only; omega, hrd, hcap, hfill, hpos, fun _ => hlt, hstage⟩, rfl, rfl⟩

/-- One bit is read from a coherent reader that has one left (R126). -/
theorem getBit_spec (hcap : 1 ≤ cap) (h : r.coherent cap) {bit : Bool} {rest : List Bool}
    (hbits : r.unread = bit :: rest) : ∃ r', getBit cap r = .ok (bit, r') ∧ Reader.Moved cap 1 r r' := by
  obtain ⟨hm, hstaged⟩ := refillIfEmpty_moved h
  have hlt := hstaged hcap (by simp [hbits])
  obtain ⟨b, hb, hsrc, hoff⟩ := hm.coherent.stagedByte_eq hlt
  have hbit : r.unread[0]? = some (b.getLsbD (7 - (refillIfEmpty cap r).bitOff)) := by
    have hcur := hm.cursor
    rw [Reader.unread, List.getElem?_drop, getElem?_streamBits, ← hm.src, ← hcur, hsrc, hoff, Option.map_some]
  rw [hbits, List.getElem?_cons_zero, Option.some.injEq] at hbit
  exact ⟨_, getBit_eq_ok.mpr ⟨b, hb, hbit, rfl⟩, by simpa using hm.trans (advanceBit_moved hm.coherent hlt)⟩

/-- GetBits' loop puts the next bits below the value it has (R126). -/
theorem getBitsLoop_spec (hcap : 1 ≤ cap) (n v : Nat) (h : r.coherent cap) (hn : n ≤ r.unread.length) :
    ∃ r', getBitsLoop cap n v r = .ok ((r.unread.take n).foldl (fun v b => 2 * v + b.toNat) v, r') ∧
      Reader.Moved cap n r r' := by
  induction n generalizing v r with
  | zero => exact ⟨r, rfl, .refl h⟩
  | succ n ih =>
    obtain ⟨bit, rest, hbits⟩ := List.exists_cons_of_length_pos (show 0 < r.unread.length by omega)
    obtain ⟨r1, hget, hm⟩ := getBit_spec hcap h hbits
    have hrest : r1.unread = rest := by rw [hm.unread, hbits]; rfl
    obtain ⟨r2, hloop, hm'⟩ := ih (2 * v + bit.toNat) hm.coherent (by rw [hrest]; simp [hbits] at hn; omega)
    refine ⟨r2, ?_, by simpa [Nat.add_comm] using hm.trans hm'⟩
    rw [getBitsLoop, hget, hbits]
    simpa [hrest] using hloop

/-- GetBits reads the next `n` bits of the stream, most significant first (R126). -/
theorem getBits_spec (hcap : 1 ≤ cap) {n : Nat} (h : r.coherent cap) (hn : n ≤ r.unread.length) :
    ∃ r', getBits cap n r = .ok (bitsToNat (r.unread.take n), r') ∧ Reader.Moved cap n r r' := by
  obtain ⟨r', hloop, hm⟩ := getBitsLoop_spec hcap n 0 h hn
  exact ⟨r', getBits_eq_ok.mpr ⟨h.remainingBits_eq.1 ▸ hn, hloop⟩, hm⟩

/-- A byte's low `n` bits are zero exactly where its last `n` stream bits are (R129). -/
theorem and_low_mask_eq_zero (b : Byte) {n : Nat} (h8 : n ≤ 8) :
    b &&& BitVec.ofNat 8 (2 ^ n - 1) = 0 ↔ ∀ c ∈ (byteBits b).drop (8 - n), c = false := by
  have hbit (i : Nat) : (b &&& BitVec.ofNat 8 (2 ^ n - 1)).getLsbD i = (b.getLsbD i && decide (i < 8 ∧ i < n)) := by
    simp [BitVec.getLsbD_ofNat, Nat.testBit_two_pow_sub_one]
  constructor
  · intro hz c hc
    obtain ⟨k, hk⟩ := List.mem_iff_getElem?.mp hc
    have hk8 : 8 - n + k < 8 := by
      have := (List.getElem?_eq_some_iff.mp hk).1
      simp at this
      omega
    rw [List.getElem?_drop, getElem?_byteBits b hk8, Option.some.injEq] at hk
    have := hbit (7 - (8 - n + k))
    rw [hz, hk] at this
    simpa [show 7 - (8 - n + k) < 8 ∧ 7 - (8 - n + k) < n by omega, eq_comm] using this
  · intro hall
    refine BitVec.eq_of_getLsbD_eq fun i hi => ?_
    rw [hbit]
    by_cases hin : i < n
    · have hmem : (byteBits b)[8 - n + (n - 1 - i)]? = some (b.getLsbD i) := by
        rw [getElem?_byteBits b (by omega), show 7 - (8 - n + (n - 1 - i)) = i by omega]
      rw [← List.getElem?_drop] at hmem
      simp [hall _ (List.mem_of_getElem? hmem)]
    · simp [hin]

/-- TailIsZero tells whether the at most seven bits left are all zero (R129). -/
theorem tailIsZero_spec (h : r.coherent cap) (hpos : 0 < r.unread.length) (h7 : r.unread.length ≤ 7) :
    tailIsZero r = .ok (decide (∀ b ∈ r.unread, b = false)) := by
  obtain ⟨hrem, hcur⟩ := h.remainingBits_eq
  have hlt : r.rd < r.fill := by
    obtain ⟨-, hrd, -, -, -, hb, -⟩ := id h
    simp only [remainingBits] at hrem
    omega
  obtain ⟨b, hb, hsrc, hoff⟩ := h.stagedByte_eq hlt
  have hlen : r.unread.length = 8 * r.src.length - readCursor r := by simp [Reader.unread]
  have hlast : r.unread = (byteBits b).drop (8 - r.unread.length) := by
    refine List.ext_getElem? fun k => ?_
    conv_lhs => rw [Reader.unread, List.getElem?_drop, getElem?_streamBits]
    rw [List.getElem?_drop]
    by_cases hk : k < r.unread.length
    · rw [show (readCursor r + k) / 8 = readCursor r / 8 by omega, hsrc, getElem?_byteBits b (by omega),
        Option.map_some, show 7 - (readCursor r + k) % 8 = 7 - (8 - r.unread.length + k) by omega]
    · rw [List.getElem?_eq_none (by omega), List.getElem?_eq_none (by simp; omega)]
      rfl
  simp only [tailIsZero, hb, hrem, Except.ok.injEq]
  rw [Bool.eq_iff_iff, beq_iff_eq, decide_eq_true_iff, and_low_mask_eq_zero b (by omega), ← hlast]

/-! ### AtBoundary's answer in each case of the bits after the cursor (R131) -/

/-- END where at most seven bits are left, all zero; no bit is read. -/
theorem atBoundary_zeros (cap w l : Nat) (h : r.coherent cap) (h7 : r.unread.length ≤ 7)
    (hz : ∀ b ∈ r.unread, b = false) : atBoundary cap w l r = .ok (.endOfStream, r) := by
  have hrem := h.remainingBits_eq.1
  by_cases h0 : r.unread.length = 0
  · simp [atBoundary, hrem, h0]
  · simp only [atBoundary, hrem, if_neg h0, if_pos h7, tailIsZero_spec h (Nat.pos_of_ne_zero h0) h7, decide_eq_true hz]

/-- TRUNCATED where at most seven bits are left, not all zero; no bit is read. -/
theorem atBoundary_tail (cap w l : Nat) (h : r.coherent cap) (h7 : r.unread.length ≤ 7)
    (hz : ¬∀ b ∈ r.unread, b = false) : atBoundary cap w l r = .ok (.truncated, r) := by
  have hrem := h.remainingBits_eq.1
  have hpos : 0 < r.unread.length := List.length_pos_iff.mpr fun hnil => hz (by simp [hnil])
  simp only [atBoundary, hrem, if_neg hpos.ne', if_pos h7, tailIsZero_spec h hpos h7, decide_eq_false hz]

/-- Where eight bits are left the tag is read, and the answer is whether the rest of its token is there. -/
theorem atBoundary_tag (hcap : 1 ≤ cap) (w l : Nat) (h : r.coherent cap) {tag : Bool} {rest : List Bool}
    (hbits : r.unread = tag :: rest) (h7 : 7 ≤ rest.length) :
    ∃ r', Reader.Moved cap 1 r r' ∧ r'.unread = rest ∧
      atBoundary cap w l r = .ok (if rest.length < (if tag then w + l else 8) then .truncated else .token tag, r') := by
  have hrem := h.remainingBits_eq.1
  obtain ⟨r', hget, hm⟩ := getBits_spec hcap (n := 1) h (by simp [hbits])
  have hrest : r'.unread = rest := by rw [hm.unread, hbits]; rfl
  have hrem' := hm.coherent.remainingBits_eq.1
  refine ⟨r', hm, hrest, ?_⟩
  rw [hbits] at hrem hget
  rw [hrest] at hrem'
  simp only [List.length_cons] at hrem
  rw [atBoundary, if_neg (by omega), if_neg (by omega), hget]
  cases tag <;> simp [bitsToNat_cons, hrem'] <;> split <;> simp_all

end Sys2Proof.Machine
end

section
/-! ### The decoder's state machine follows the meaning of the stream (43_decoder R160 to R172) -/

namespace Sys2Proof.Machine

variable {s t u : State}

/-- `k` steps of the decoder's state machine lead from one state to another (R161). -/
inductive DecodeRun : Nat → State → State → Prop where
  | refl (s : State) : DecodeRun 0 s s
  | step {k : Nat} {s t u : State} (hstep : decodeStep s = .ok t) (hrun : DecodeRun k t u) : DecodeRun (k + 1) s u

theorem DecodeRun.single (hstep : decodeStep s = .ok t) : DecodeRun 1 s t := .step hstep (.refl t)

theorem DecodeRun.trans {j k : Nat} (h : DecodeRun j s t) (h' : DecodeRun k t u) : DecodeRun (k + j) s u := by
  induction h with
  | refl => exact h'
  | step hstep _ ih => exact .step hstep (ih h')

/-- A state with a next step has not ended (R161). -/
theorem decodeEnded_eq_false_of_step (h : decodeStep s = .ok t) : s.decodeEnded = false := by
  unfold State.decodeEnded
  unfold decodeStep at h
  split at h <;> simp_all

/-- DECODE's loop takes the steps of a run (R161). -/
theorem DecodeRun.decodeLoop_eq {k : Nat} (h : DecodeRun k s t) (fuel : Nat) :
    decodeLoop (fuel + k) s = decodeLoop fuel t := by
  induction h with
  | refl => rfl
  | @step k s t u hstep _ ih =>
    rw [← Nat.add_assoc, decodeLoop, decodeEnded_eq_false_of_step hstep, hstep]
    exact ih

/-- DECODE's loop stops at an ended state (R161). -/
theorem decodeLoop_of_ended (h : s.decodeEnded = true) (fuel : Nat) : decodeLoop fuel s = .ok s := by
  cases fuel <;> simp [decodeLoop, h]

/-- A run writes what its steps do (R22, R63). -/
theorem DecodeRun.frame {k : Nat} (h : DecodeRun k s t) :
    t.cfg = s.cfg ∧ t.status = s.status ∧ t.enc = s.enc ∧ t.writer = s.writer ∧ t.requests = s.requests ∧
      t.reply = s.reply ∧ t.platform = s.platform := by
  induction h with
  | refl => simp
  | step hstep _ ih =>
    obtain ⟨h1, h2, h3, h4, h5, h6, h7⟩ := decodeStep_frame hstep
    simpa only [h1, h2, h3, h4, h5, h6, h7] using ih

/-- What every step of a DECODE relies on: a legal Decoder, a coherent reader, and a window of its own output (R29,
R166). -/
structure DecodeInv (s : State) : Prop where
  legal : LegalConfig s.cfg.wbits s.cfg.lbits
  cap : 1 ≤ s.cfg.inbufCap
  reader : s.reader.coherent s.cfg.inbufCap
  hbuf : Memory.wf hbufUnlisted s.hist.hbuf
  window : s.hist.holds s.cfg.window s.dec.out

/-- A legal configuration's REF takes at least eight bits with its tag (R9). -/
theorem seven_le_of_legalConfig {W L : Nat} (h : LegalConfig W L) : 7 ≤ W + L := by
  obtain ⟨hW, -, hL, -⟩ := h
  simp only [Config.wMin, Config.lMin] at hW hL
  omega

theorem DecodeInv.window_pos (s : State) : 0 < s.cfg.window := Nat.two_pow_pos _

/-- Emit keeps what the steps rely on (R166). -/
theorem DecodeInv.emit (h : DecodeInv s) (b : Byte) : DecodeInv (emit b s) :=
  ⟨h.legal, h.cap, h.reader, histPush_wf _ b h.hbuf, histPush_holds (DecodeInv.window_pos s) h.hbuf h.window b⟩

/-- A DECODE stands at a token boundary, before the unread bits `bits` and after the output `out` (R163). -/
structure AtToken (bits : List Bool) (out : List Byte) (s : State) : Prop extends DecodeInv s where
  boundary : s.dec.dstate = .awaitTag
  unread : s.reader.unread = bits
  out : s.dec.out = out

/-- An idle Decoder has a legal configuration and a staging buffer (R22, R23). -/
theorem State.readyToDecode.config (h : s.readyToDecode) :
    LegalConfig s.cfg.wbits s.cfg.lbits ∧ 1 ≤ s.cfg.inbufCap := by
  obtain ⟨⟨hcfg, -⟩, -, hrole⟩ := h
  obtain ⟨-, -, hdecoder⟩ := hcfg
  obtain ⟨hlegal, hcap, -⟩ := hdecoder hrole
  exact ⟨hlegal, hcap⟩

/-- A DECODE on an idle Decoder begins at a token boundary before the whole stream (R161). -/
theorem startDecode_atToken (h : s.readyToDecode) (y : List Byte) : AtToken (streamBits y) [] (startDecode y s) := by
  obtain ⟨hlegal, hcap⟩ := h.config
  obtain ⟨⟨-, -, ⟨hbuf, -⟩, -⟩, -⟩ := h
  obtain ⟨hcoh, hunread⟩ := readerCallStart_coherent s.cfg.inbufCap y s.reader
  exact ⟨⟨hlegal, hcap, hcoh, hbuf, histCallStart_holds _ _⟩, rfl, hunread, rfl⟩

/-! #### The steps of one token -/

variable {bits : List Bool} {out : List Byte}

/-- A zero tail of at most seven bits drains the DECODE (R163, R170). -/
theorem decodeStep_end (h : AtToken bits out s) (h7 : bits.length ≤ 7) (hz : ∀ b ∈ bits, b = false) :
    decodeStep s = .ok (setDState .drained s) := by
  obtain ⟨hinv, hq, rfl, rfl⟩ := h
  simp only [decodeStep, hq, awaitTagStep, atBoundary_zeros _ _ _ hinv.reader h7 hz]

/-- A tail of at most seven bits that holds a 1 fails the DECODE (R163). -/
theorem decodeStep_tail (h : AtToken bits out s) (h7 : bits.length ≤ 7) (hz : ¬∀ b ∈ bits, b = false) :
    decodeStep s = .ok (raise (.malformedStream .truncated) s) := by
  obtain ⟨hinv, hq, rfl, rfl⟩ := h
  simp only [decodeStep, hq, awaitTagStep, atBoundary_tail _ _ _ hinv.reader h7 hz]

/-- A tag without the rest of its token fails the DECODE (R163). -/
theorem decodeStep_truncated {tag : Bool} (h : AtToken (tag :: bits) out s) (h7 : 7 ≤ bits.length)
    (hlt : bits.length < (if tag then s.cfg.wbits + s.cfg.lbits else 8)) :
    ∃ r, decodeStep s = .ok (raise (.malformedStream .truncated) { s with reader := r }) := by
  obtain ⟨r, -, -, hat⟩ := atBoundary_tag h.cap s.cfg.wbits s.cfg.lbits h.reader h.unread h7
  rw [if_pos hlt] at hat
  exact ⟨r, by simp only [decodeStep, h.boundary, awaitTagStep, hat]⟩

/-- A tag with the rest of its token is read, and the state for its token is next (R163). -/
theorem decodeStep_tag {tag : Bool} (h : AtToken (tag :: bits) out s) (h7 : 7 ≤ bits.length)
    (hle : (if tag then s.cfg.wbits + s.cfg.lbits else 8) ≤ bits.length) :
    ∃ r, r.coherent s.cfg.inbufCap ∧ r.unread = bits ∧
      decodeStep s = .ok (setDState (if tag then .readRef else .readLit) { s with reader := r }) := by
  obtain ⟨r, hm, hrest, hat⟩ := atBoundary_tag h.cap s.cfg.wbits s.cfg.lbits h.reader h.unread h7
  rw [if_neg (by omega)] at hat
  refine ⟨r, hm.coherent, hrest, ?_⟩
  simp only [decodeStep, h.boundary, awaitTagStep, hat]
  cases tag <;> rfl

/-- A complete LIT takes two steps, appends its byte and leaves the bits after it (R164). -/
theorem decodeRun_lit (h : AtToken (false :: bits) out s) (h8 : 8 ≤ bits.length) :
    ∃ t, DecodeRun 2 s t ∧ AtToken (bits.drop 8) (out ++ [BitVec.ofNat 8 (bitsToNat (bits.take 8))]) t := by
  obtain ⟨r, hcoh, rfl, htag⟩ := decodeStep_tag h (by omega) h8
  obtain ⟨r', hget, hm⟩ := getBits_spec h.cap hcoh h8
  have hemit := h.toDecodeInv.emit (BitVec.ofNat 8 (bitsToNat (r.unread.take 8)))
  refine ⟨litEffect (BitVec.ofNat 8 (bitsToNat (r.unread.take 8))) { s with reader := r' }, .step htag (.single ?_),
    ⟨h.legal, h.cap, hm.coherent, hemit.hbuf, hemit.window⟩, rfl, hm.unread, by simp [h.out]⟩
  simp [decodeStep, readLitStep, hget, litEffect, setDState, emit]

/-- The bits of a complete REF are read in two steps, before its dangling check (R165). -/
theorem decodeRun_refBits (h : AtToken (true :: bits) out s) (hle : s.cfg.wbits + s.cfg.lbits ≤ bits.length) :
    ∃ r, r.coherent s.cfg.inbufCap ∧ r.unread = bits.drop (s.cfg.wbits + s.cfg.lbits) ∧
      DecodeRun 2 s (refEffect (refOffset (bitsToNat (bits.take s.cfg.wbits)))
        (refLength (bitsToNat ((bits.drop s.cfg.wbits).take s.cfg.lbits))) { s with reader := r }) := by
  have h7 : 7 ≤ s.cfg.wbits + s.cfg.lbits := seven_le_of_legalConfig h.legal
  obtain ⟨r, hcoh, rfl, htag⟩ := decodeStep_tag h (by omega) hle
  obtain ⟨r1, hgetO, hm1⟩ := getBits_spec h.cap (n := s.cfg.wbits) hcoh (by omega)
  obtain ⟨r2, hgetF, hm2⟩ := getBits_spec h.cap (n := s.cfg.lbits) hm1.coherent (by rw [hm1.unread]; simp; omega)
  rw [hm1.unread] at hgetF
  refine ⟨r2, hm2.coherent, (hm1.trans hm2).unread, .step htag (.single ?_)⟩
  simp only [decodeStep, setDState, if_true, readRefStep, hgetO, hgetF]
  simp [refEffect, raise]

/-- A REF's copy of `REF_REM` bytes takes `REF_REM + 1` steps and reads no bit (R167). -/
theorem decodeRun_copy (h : DecodeInv s) (hq : s.dec.dstate = .copy) (h1 : 1 ≤ s.dec.refOff)
    (hd : s.dec.refOff ≤ s.hist.hcount) {n : Nat} (hn : s.dec.refRem = n) :
    ∃ t, DecodeRun (n + 1) s t ∧ AtToken s.reader.unread (copyBytes s.dec.refOff n s.dec.out) t := by
  induction n generalizing s with
  | zero =>
    refine ⟨setDState .awaitTag s, .single ?_, ⟨h.legal, h.cap, h.reader, h.hbuf, h.window⟩, rfl, rfl, rfl⟩
    simp only [decodeStep, hq, copyStep, hn, if_true]
  | succ n ih =>
    obtain ⟨b, hread, hb⟩ := h.window.histRead_eq h1 hd
    have hinv := h.emit b
    have hd' : s.dec.refOff ≤ (emit b s).hist.hcount := by
      obtain ⟨hle, hwin⟩ := h.window.le_hcount_iff.mp hd
      exact hinv.window.le_hcount_iff.mpr ⟨by simp; omega, hwin⟩
    obtain ⟨t, hrun, ht⟩ :=
      ih (s := { emit b s with dec := { (emit b s).dec with refRem := n } })
        ⟨hinv.legal, hinv.cap, hinv.reader, hinv.hbuf, hinv.window⟩ hq h1 hd' rfl
    refine ⟨t, .step (by simp [decodeStep, hq, copyStep, hn, hread]) hrun, ?_⟩
    rw [copyBytes, List.getD_eq_getElem?_getD, hb]
    exact ht

/-! #### The whole stream -/

/-- A DECODE's last state says what its stream means: drained with the output, or failed with the cause (R161, R171). -/
def State.EndsAs (t : State) : Except MalformedCause (List Byte) → Prop
  | .ok out => t.dec.dstate = .drained ∧ t.dec.out = out
  | .error c => t.dec.dstate = .failed ∧ t.dec.cause = c

theorem State.EndsAs.decodeEnded {res : Except MalformedCause (List Byte)} (h : t.EndsAs res) :
    t.decodeEnded = true := by
  match res, h with
  | .ok _, ⟨hq, _⟩ | .error _, ⟨hq, _⟩ => simp [State.decodeEnded, hq]

/-- A complete REF fails the DECODE where it dangles, within two steps (R168); else it copies its bytes, in `n + 3` steps
(R165, R167). -/
theorem decodeRun_ref (h : AtToken (true :: bits) out s) (hle : s.cfg.wbits + s.cfg.lbits ≤ bits.length) :
    let d := refOffset (bitsToNat (bits.take s.cfg.wbits))
    let n := refLength (bitsToNat ((bits.drop s.cfg.wbits).take s.cfg.lbits))
    (out.length < d → ∃ t, DecodeRun 2 s t ∧ t.EndsAs (.error .dangling)) ∧
      (¬out.length < d → n ≤ s.cfg.lmax ∧ ∃ t, DecodeRun (n + 3) s t ∧
        AtToken (bits.drop (s.cfg.wbits + s.cfg.lbits)) (copyBytes d n out) t) := by
  intro d n
  obtain ⟨r, hcoh, hrest, hrun⟩ := decodeRun_refBits h hle
  have hd : d ≤ s.cfg.window := by
    have := bitsToNat_lt (bits.take s.cfg.wbits)
    rwa [List.length_take_of_le (by omega)] at this
  have hn : n ≤ s.cfg.lmax := by
    have := bitsToNat_lt ((bits.drop s.cfg.wbits).take s.cfg.lbits)
    rwa [List.length_take_of_le (by simp; omega)] at this
  have hvalid : d ≤ s.hist.hcount ↔ d ≤ out.length ∧ d ≤ s.cfg.window := h.out ▸ h.window.le_hcount_iff
  rcases refEffect_cases d n { s with reader := r } with ⟨hdang, heff⟩ | ⟨hok, heff⟩
  · refine ⟨fun _ => ⟨_, hrun, ?_⟩, fun hlt => absurd (hvalid.mpr ⟨by omega, hd⟩) (Nat.not_le.mpr hdang)⟩
    rw [heff]
    exact ⟨rfl, rfl⟩
  · refine ⟨fun hlt => absurd (hvalid.mp hok).1 (by omega), fun _ => ⟨hn, ?_⟩⟩
    rw [heff] at hrun
    obtain ⟨t, hcopy, ht⟩ := decodeRun_copy (n := n)
      (s := { s with reader := r, dec := { s.dec with refOff := d, refRem := n, dstate := .copy } })
      ⟨h.legal, h.cap, hcoh, h.hbuf, h.window⟩ rfl (Nat.le_add_left 1 _) hok rfl
    exact ⟨t, hrun.trans hcopy, by simpa only [hrest, h.out] using ht⟩

/-- A token of at least eight bits and at most `b` steps, with the bound of the bits after it (R172). -/
theorem tokenSteps_le {b j k m rest : Nat} (hj : j ≤ b) (hbits : rest + 8 ≤ m) (hk : k ≤ b * (rest / 8) + 1) :
    k + j ≤ b * (m / 8) + 1 := by
  have := Nat.mul_le_mul_left b (show rest / 8 + 1 ≤ m / 8 by omega)
  rw [Nat.mul_add, Nat.mul_one] at this
  omega

/-- From a token boundary the state machine ends as the unread bits mean, within the steps of at most one token per eight
bits and one last step (R163 to R172). -/
theorem decodeRun_tokens (h : AtToken bits out s) {fuel : Nat} (hf : bits.length < 8 * fuel) :
    ∃ k t, k ≤ (3 + s.cfg.lmax) * (bits.length / 8) + 1 ∧ DecodeRun k s t ∧
      t.EndsAs (decodeTokens s.cfg.wbits s.cfg.lbits fuel bits out) := by
  induction fuel generalizing s bits out with
  | zero => omega
  | succ fuel ih =>
    have hcontinue {j : Nat} {t : State} {rest : List Bool} {out' : List Byte} (hj : j ≤ 3 + s.cfg.lmax)
        (hrest : rest.length + 8 ≤ bits.length) (hrun : DecodeRun j s t) (ht : AtToken rest out' t) :
        ∃ k u, k ≤ (3 + s.cfg.lmax) * (bits.length / 8) + 1 ∧ DecodeRun k s u ∧
          u.EndsAs (decodeTokens s.cfg.wbits s.cfg.lbits fuel rest out') := by
      obtain ⟨k, u, hk, hrun', hend⟩ := ih ht (by omega)
      rw [hrun.frame.1] at hk hend
      exact ⟨k + j, u, tokenSteps_le hj hrest hk, hrun.trans hrun', hend⟩
    rcases decodeToken_cases s.cfg.wbits s.cfg.lbits bits with
      ⟨h7, hz, htok⟩ | ⟨h7, hz, htok⟩ | ⟨tag, rest, rfl, h7, ⟨hlt, htok⟩ | ⟨rfl, h8, htok⟩ | ⟨rfl, hle, htok⟩⟩ <;>
      simp only [decodeTokens, htok]
    · exact ⟨1, _, by omega, .single (decodeStep_end h h7 hz), rfl, h.out⟩
    · exact ⟨1, _, by omega, .single (decodeStep_tail h h7 hz), rfl, rfl⟩
    · obtain ⟨r, hstep⟩ := decodeStep_truncated h h7 hlt
      exact ⟨1, _, by omega, .single hstep, rfl, rfl⟩
    · obtain ⟨t, hrun, ht⟩ := decodeRun_lit h h8
      exact hcontinue (by omega) (by simp; omega) hrun ht
    · have hWL := seven_le_of_legalConfig h.legal
      obtain ⟨hdangling, hcopied⟩ := decodeRun_ref h hle
      split
      · next hlt =>
        obtain ⟨t, hrun, hend⟩ := hdangling hlt
        have hbound : 1 + 1 ≤ (3 + s.cfg.lmax) * ((true :: rest).length / 8) + 1 :=
          tokenSteps_le (rest := 0) (by omega) (by simp; omega) (by omega)
        exact ⟨2, t, hbound, hrun, hend⟩
      · next hok =>
        obtain ⟨hn, t, hrun, ht⟩ := hcopied hok
        exact hcontinue (by omega) (by simp; omega) hrun ht

/-- R161 to R172: DECODE's loop on an idle Decoder ends within its bound, as the stream means. -/
theorem decodeLoop_startDecode (h : s.readyToDecode) (y : List Byte) :
    ∃ t, decodeLoop (decodeBound s.cfg y) (startDecode y s) = .ok t ∧
      t.EndsAs (decodeStream s.cfg.wbits s.cfg.lbits y) ∧ t.cfg = s.cfg ∧ t.platform = s.platform := by
  have hlen := length_streamBits y
  obtain ⟨k, t, hk, hrun, hend⟩ := decodeRun_tokens (startDecode_atToken h y) (fuel := 8 * y.length + 1) (by omega)
  obtain ⟨hcfg, -, -, -, -, -, hplatform⟩ := hrun.frame
  rw [hlen, Nat.mul_div_cancel_left _ (by decide)] at hk
  obtain ⟨fuel, hfuel⟩ := Nat.exists_eq_add_of_le' (show k ≤ decodeBound s.cfg y from hk)
  refine ⟨t, ?_, hend, hcfg, hplatform⟩
  rw [hfuel, hrun.decodeLoop_eq]
  exact decodeLoop_of_ended hend.decodeEnded fuel

/-- A DECODE on an idle Decoder is its loop, then Finish (R161). -/
theorem exec_decode_eq (h : s.readyToDecode) {y : List Byte}
    (hloop : decodeLoop (decodeBound s.cfg y) (startDecode y s) = .ok t) : exec (.decode y) s = finishDecode t := by
  obtain ⟨-, hbusy, hrole⟩ := h
  simp [exec, execDecode, hbusy, hrole, hloop]

/-- DECODE of a stream that means `out`, on an idle Decoder whose platform admits it, returns `Ok(out)` (R161, R162). -/
theorem exec_decode_of_decodeStream (h : s.readyToDecode) {y : List Byte}
    (hout : decodeStream s.cfg.wbits s.cfg.lbits y = .ok out) (hadmits : s.platform.admits out) :
    ∃ t, exec (.decode y) s = .next t ∧ t.reply = .okBytes out := by
  obtain ⟨u, hloop, hend, -, hplatform⟩ := decodeLoop_startDecode h y
  rw [hout] at hend
  obtain ⟨hdrained, rfl⟩ := hend
  have hcap : exceedsOutCap u.platform u.dec.out = false := exceedsOutCap_eq_false.mpr (hplatform ▸ hadmits)
  rcases finishDecode_cases u with ⟨-, hexceeds, -⟩ | ⟨-, -, hfinish⟩ | ⟨hne, -⟩
  · simp [hcap] at hexceeds
  · exact ⟨_, (exec_decode_eq h hloop).trans hfinish, rfl⟩
  · exact absurd hdrained hne

/-- Settles O37: the state machine ends within the bound, as the stream means (`decodeLoop_startDecode`), because each
token takes at least eight bits and at most `3 + LMAX` steps (`decodeRun_tokens`). -/
theorem decodeEndsWithinItsBound : Obligations.DecodeEndsWithinItsBound := by
  intro y s hready
  obtain ⟨t, hloop, hend, -⟩ := decodeLoop_startDecode hready y
  exact ⟨t, hloop, hend.decodeEnded⟩

end Sys2Proof.Machine
end

section
/-! ### The bit writer appends bits (41_bit_io R120 to R123) -/

namespace Sys2Proof

/-- One bit more at the low end of a value is one bit more at the end of its field (R121). -/
theorem fieldBits_two_mul_add (v n : Nat) (b : Bool) : fieldBits (2 * v + b.toNat) (n + 1) = fieldBits v n ++ [b] := by
  induction n with
  | zero => cases b <;> simp [fieldBits]
  | succ n ih =>
    have htop : (2 * v + b.toNat).testBit (n + 1) = v.testBit n := by
      rw [Nat.testBit_succ]
      congr 1
      cases b <;> simp
      omega
    rw [fieldBits, htop, ih]
    rfl

theorem bitsToNat_replicate_false (n : Nat) : bitsToNat (List.replicate n false) = 0 := by
  induction n with
  | zero => rfl
  | succ n ih => simp [List.replicate_succ, bitsToNat_cons, ih]

end Sys2Proof

namespace Sys2Proof.Machine

/-- The bits a writer has been given: those of its whole bytes, then those of the partial one (R28). -/
def Writer.bits (w : Writer) : List Bool := streamBits w.out ++ fieldBits w.acc.toNat w.nbits

@[simp] theorem writerCleared_bits : writerCleared.bits = [] := rfl

theorem writerCleared_wf : writerCleared.wf := by decide

variable {w : Writer}

/-- One turn of PutBits' loop appends its bit (R121). -/
theorem putBit_spec (h : w.wf) (b : Bool) : (putBit b w).wf ∧ (putBit b w).bits = w.bits ++ [b] := by
  obtain ⟨hn, hacc⟩ := h
  have hpow : 2 ^ w.nbits ≤ 2 ^ 7 := Nat.pow_le_pow_right (by decide) (by omega)
  have hval : ((w.acc <<< 1) ||| BitVec.ofNat 8 b.toNat).toNat = 2 * w.acc.toNat + b.toNat := by
    have hb : b.toNat < 2 ^ 1 := Bool.toNat_lt b
    have hshift : (w.acc <<< 1).toNat = w.acc.toNat <<< 1 := by
      rw [BitVec.toNat_shiftLeft, Nat.shiftLeft_eq, Nat.mod_eq_of_lt (by omega)]
    rw [BitVec.toNat_or, hshift, BitVec.toNat_ofNat, Nat.mod_eq_of_lt (by omega), ← Nat.shiftLeft_add_eq_or_of_lt hb,
      Nat.shiftLeft_eq, pow_one, Nat.mul_comm]
  have hlow : fieldBits ((w.acc <<< 1) ||| BitVec.ofNat 8 b.toNat).toNat (w.nbits + 1) =
      fieldBits w.acc.toNat w.nbits ++ [b] := by rw [hval, fieldBits_two_mul_add]
  simp only [putBit]
  split
  · next h8 =>
    rw [h8] at hlow
    refine ⟨⟨by simp, by simp⟩, ?_⟩
    simp only [Writer.bits, streamBits_append, streamBits_cons, streamBits_nil, ← fieldBits_toNat, List.append_nil]
    rw [hlow]
    simp only [fieldBits, List.append_nil, List.append_assoc]
  · next h8 =>
    refine ⟨⟨by simp only; omega, ?_⟩, ?_⟩
    · have := Bool.toNat_le b
      simp only [hval, pow_succ]
      omega
    · simp only [Writer.bits, hlow, List.append_assoc]

/-- PutBits' loop appends the field of its value (R121). -/
theorem putBitsLoop_spec (h : w.wf) (v n : Nat) :
    (putBitsLoop v n w).wf ∧ (putBitsLoop v n w).bits = w.bits ++ fieldBits v n := by
  induction n generalizing w with
  | zero => simpa [putBitsLoop, fieldBits] using h
  | succ n ih =>
    obtain ⟨hwf, hbits⟩ := putBit_spec h (v.testBit n)
    obtain ⟨hwf', hbits'⟩ := ih hwf
    exact ⟨hwf', by rw [putBitsLoop, hbits', hbits, fieldBits, List.append_assoc]; rfl⟩

/-- FlushBits leaves the bits written, packed into bytes (R122, R75). -/
theorem flushBits_out (h : w.wf) : (flushBits w).out = pack w.bits := by
  obtain ⟨hn, hacc⟩ := h
  rw [Writer.bits, pack_streamBits_append, flushBits]
  split
  · next hpos =>
    have hlen : (fieldBits w.acc.toNat w.nbits).length = w.nbits := length_fieldBits _ _
    have hbyte : packByte (fieldBits w.acc.toNat w.nbits) = w.acc <<< (8 - w.nbits) := by
      rw [packByte, hlen, bitsToNat_append, bitsToNat_replicate_false, List.length_replicate, bitsToNat_fieldBits,
        Nat.mod_eq_of_lt hacc]
      refine BitVec.eq_of_toNat_eq ?_
      simp [Nat.shiftLeft_eq]
    rw [pack_short (List.ne_nil_of_length_pos (by omega)) (by omega), hbyte]
  · next hzero => simp [show w.nbits = 0 by omega, fieldBits, pack]

/-- A LIT is written as its token bits (R146). -/
theorem emitLit_spec (h : w.wf) (W L : Nat) (b : Byte) :
    ∃ w', emitLit b w = .ok w' ∧ w'.wf ∧ w'.bits = w.bits ++ tokenBits W L (.lit b) := by
  obtain ⟨hwf, hbits⟩ := putBitsLoop_spec h 0 1
  obtain ⟨hwf', hbits'⟩ := putBitsLoop_spec hwf b.toNat 8
  exact ⟨_, emitLit_eq b w, hwf', by rw [hbits', hbits, List.append_assoc]; rfl⟩

/-- A REF in its ranges is written as its token bits (R146). -/
theorem emitRef_spec (h : w.wf) {c : ConfigRegs} {d n : Nat} (hd : 1 ≤ d) (hd' : d ≤ c.window) (hn : 1 ≤ n)
    (hn' : n ≤ c.lmax) :
    ∃ w', emitRef c d n w = .ok w' ∧ w'.wf ∧ w'.bits = w.bits ++ tokenBits c.wbits c.lbits (.ref d n) := by
  obtain ⟨hwf, hbits⟩ := putBitsLoop_spec h 1 1
  obtain ⟨hwf', hbits'⟩ := putBitsLoop_spec hwf (offsetField d) c.wbits
  obtain ⟨hwf'', hbits''⟩ := putBitsLoop_spec hwf' (lengthField n) c.lbits
  refine ⟨_, emitRef_eq hd hd' hn hn' w, hwf'', ?_⟩
  rw [hbits'', hbits', hbits, List.append_assoc, List.append_assoc]
  rfl

end Sys2Proof.Machine
end

section
/-! ### ENCODE emits the greedy parse, and decodes to its input (42_encoder R140 to R153) -/

namespace Sys2Proof.Machine

section Search

variable {W L : Nat} {h : History} {e : EncoderRegs} (hh : h.holds (2 ^ W) (e.input.take e.ipos))
  (hpos : e.ipos ≤ e.input.length)
include hh hpos

/-- A source byte of an offset in the window is the input's byte that far back (R142). -/
theorem matchSource_spec {d k : Nat} (hd : 1 ≤ d) (hd' : d ≤ h.hcount) (hk : e.ipos + k < e.input.length) :
    ∃ b, matchSource (2 ^ W) h e d k = .ok b ∧ e.input[e.ipos + k - d]? = some b := by
  have hlen : (e.input.take e.ipos).length = e.ipos := List.length_take_of_le hpos
  have hdp : d ≤ e.ipos := hlen ▸ (hh.le_hcount_iff.mp hd').1
  unfold matchSource
  split
  · next hlt =>
    obtain ⟨b, hread, hb⟩ := hh.histRead_eq (d := d - k) (by omega) (by omega)
    rw [hlen, List.getElem?_take_of_lt (by omega), show e.ipos - (d - k) = e.ipos + k - d by omega] at hb
    exact ⟨b, hread, hb⟩
  · have hin : e.ipos + k - d < e.input.length := by omega
    exact ⟨e.input[e.ipos + k - d], by simp [List.getElem?_eq_getElem hin], List.getElem?_eq_getElem hin⟩

/-- FindMatch's inner loop measures the match of an offset in the window (R145). -/
theorem matchFrom_eq {d fuel len : Nat} (hd : 1 ≤ d) (hd' : d ≤ h.hcount)
    (hfuel : e.ipos + len + fuel ≤ e.input.length) :
    matchFrom (2 ^ W) h e d fuel len = .ok (matchLength e.input e.ipos d fuel len) := by
  induction fuel generalizing len with
  | zero => rfl
  | succ fuel ih =>
    have hin : e.ipos + len < e.input.length := by omega
    obtain ⟨b, hsource, hb⟩ := matchSource_spec hh hpos hd hd' hin
    rw [matchFrom, hsource, matchLength, hb, List.getElem?_eq_getElem hin]
    simp only [Option.some.injEq]
    split
    · exact ih (by omega)
    · rfl

/-- FindMatch's outer loop chooses as the plain search does (R145). -/
theorem searchFrom_eq {count d : Nat} (best : Nat × Nat) (hd : 1 ≤ d) (hlast : d + count ≤ h.hcount + 1) :
    searchFrom (2 ^ W) (2 ^ L) h e count d best =
      .ok (bestMatch e.input e.ipos (min (2 ^ L) (e.input.length - e.ipos)) count d best) := by
  induction count generalizing d best with
  | zero => rfl
  | succ count ih =>
    have hmatch := matchFrom_eq hh hpos (fuel := maxMatch (2 ^ L) e) (len := 0) hd (by omega) (by
      simp only [maxMatch]; omega)
    rw [searchFrom, hmatch, bestMatch]
    exact ih _ (by omega) (by omega)

/-- FindMatch on a window of the input consumed finds the longest match (R145). -/
theorem findMatch_eq : findMatch (2 ^ W) (2 ^ L) h e = .ok (longestMatch W L e.input e.ipos) := by
  obtain ⟨hcount, -⟩ := id hh
  rw [List.length_take_of_le hpos] at hcount
  rw [findMatch, searchFrom_eq hh hpos _ le_rfl (by omega), hcount]
  rfl

end Search

/-- An ENCODE of `x` has consumed `p` bytes and written `bits`: what every EncodeStep relies on (R27, R33, R147). -/
structure EncodeInv (x : List Byte) (p : Nat) (bits : List Bool) (s : State) : Prop where
  minm : 1 ≤ s.cfg.minm
  input : s.enc.input = x
  ipos : s.enc.ipos = p
  pos_le : p ≤ x.length
  hbuf : Memory.wf hbufUnlisted s.hist.hbuf
  window : s.hist.holds s.cfg.window (x.take p)
  writer : s.writer.wf
  bits : s.writer.bits = bits

variable {x : List Byte} {p : Nat} {bits : List Bool} {s t : State}

/-- An idle Encoder has a legal configuration and a threshold of at least 1 (R22, R23). -/
theorem State.readyToEncode.config (h : s.readyToEncode) : LegalConfig s.cfg.wbits s.cfg.lbits ∧ 1 ≤ s.cfg.minm := by
  obtain ⟨⟨hcfg, -⟩, -, hrole⟩ := h
  obtain ⟨-, hencoder, -⟩ := hcfg
  obtain ⟨hlegal, -, hminm, -⟩ := hencoder hrole
  exact ⟨hlegal, hminm⟩

/-- The call start of an ENCODE on an idle Encoder (R141). -/
theorem startEncode_inv (h : s.readyToEncode) (x : List Byte) : EncodeInv x 0 [] (startEncode x s) := by
  obtain ⟨-, hminm⟩ := h.config
  obtain ⟨⟨-, -, ⟨hbuf, -⟩, -⟩, -⟩ := h
  exact ⟨hminm, rfl, rfl, Nat.zero_le _, hbuf, histCallStart_holds _ _, writerCleared_wf, rfl⟩

/-- No EncodeStep writes a configuration register, STATUS, the reader, the decoder, or the host's side (R22, R63). -/
theorem encodeStep_frame (h : encodeStep s = .ok t) :
    t.cfg = s.cfg ∧ t.status = s.status ∧ t.reader = s.reader ∧ t.dec = s.dec ∧ t.requests = s.requests ∧
      t.reply = s.reply ∧ t.platform = s.platform := by
  obtain ⟨b, off, len, -, -, ⟨-, w, -, rfl⟩ | ⟨-, w, -, rfl⟩⟩ := encodeStep_cases h <;> simp

/-- What an EncodeStep relies on, after it consumed `n` bytes and wrote the bits of a token (R144, R147). -/
theorem EncodeInv.advance (h : EncodeInv x p bits s) (m : Nat × Nat) {n : Nat} {more : List Bool} {w : Writer}
    (hn : p + n ≤ x.length) (hwf : w.wf) (hbits : w.bits = s.writer.bits ++ more) :
    EncodeInv x (p + n) (bits ++ more)
      { s with
        writer := w
        hist := histPushAll s.cfg.window ((x.drop p).take n) s.hist
        enc := { s.enc with ipos := p + n, matchOff := m.1, matchLen := m.2 } } where
  minm := h.minm
  input := h.input
  ipos := rfl
  pos_le := hn
  hbuf := histPushAll_wf _ _ h.hbuf
  window := by
    rw [List.take_add]
    exact histPushAll_holds (Nat.two_pow_pos _) _ h.hbuf h.window
  writer := hwf
  bits := by rw [hbits, h.bits]

/-- An EncodeStep whose longest match reaches the threshold emits its REF (R144). -/
theorem encodeStep_ref (h : EncodeInv x p bits s) (hp : p < x.length)
    (hm : s.cfg.minm ≤ (longestMatch s.cfg.wbits s.cfg.lbits x p).2) :
    ∃ t, encodeStep s = .ok t ∧
      EncodeInv x (p + (longestMatch s.cfg.wbits s.cfg.lbits x p).2)
        (bits ++ tokenBits s.cfg.wbits s.cfg.lbits
          (.ref (longestMatch s.cfg.wbits s.cfg.lbits x p).1 (longestMatch s.cfg.wbits s.cfg.lbits x p).2)) t := by
  obtain ⟨hoff, -, hoffN, hlen, hin⟩ := longestMatch_ranges (h.minm.trans hm)
  obtain ⟨w, hemit, hwf, hbits⟩ := emitRef_spec h.writer (c := s.cfg) hoff hoffN (h.minm.trans hm) hlen
  refine ⟨_, ?_, h.advance (longestMatch s.cfg.wbits s.cfg.lbits x p) hin hwf hbits⟩
  obtain ⟨-, rfl, rfl, hle, -, hwin, -⟩ := h
  have hfind : findMatch s.cfg.window s.cfg.lmax s.hist s.enc = .ok _ := findMatch_eq hwin hle
  simp only [encodeStep, List.getElem?_eq_getElem hp, hfind, if_pos hm, encodeRef, hemit]

/-- An EncodeStep whose longest match is below the threshold emits its byte as a LIT (R144). -/
theorem encodeStep_lit (h : EncodeInv x p bits s) (hp : p < x.length)
    (hm : (longestMatch s.cfg.wbits s.cfg.lbits x p).2 < s.cfg.minm) :
    ∃ t, encodeStep s = .ok t ∧
      EncodeInv x (p + 1) (bits ++ tokenBits s.cfg.wbits s.cfg.lbits (.lit x[p])) t := by
  obtain ⟨w, hemit, hwf, hbits⟩ := emitLit_spec h.writer s.cfg.wbits s.cfg.lbits x[p]
  refine ⟨_, ?_, h.advance (longestMatch s.cfg.wbits s.cfg.lbits x p) (Nat.succ_le_of_lt hp) hwf hbits⟩
  obtain ⟨-, rfl, rfl, hle, -, hwin, -⟩ := h
  have hfind : findMatch s.cfg.window s.cfg.lmax s.hist s.enc = .ok _ := findMatch_eq hwin hle
  have hbyte : (s.enc.input.drop s.enc.ipos).take 1 = [s.enc.input[s.enc.ipos]] := by
    rw [List.drop_eq_getElem_cons hp, List.take_succ_cons, List.take_zero]
  simp only [encodeStep, List.getElem?_eq_getElem hp, hfind, if_neg (Nat.not_le.mpr hm), encodeLit, hemit, hbyte,
    histPushAll_cons, histPushAll_nil]

/-- ENCODE's loop writes the greedy parse of what is left of the input (R140, R144). -/
theorem encodeLoop_spec (h : EncodeInv x p bits s) {fuel : Nat} (hf : x.length - p ≤ fuel) :
    ∃ t, encodeLoop fuel s = .ok t ∧ t.cfg = s.cfg ∧ t.platform = s.platform ∧
      EncodeInv x x.length
        (bits ++ tokensBits s.cfg.wbits s.cfg.lbits (greedyFrom s.cfg.wbits s.cfg.lbits s.cfg.minm x fuel p)) t := by
  induction fuel generalizing s p bits with
  | zero =>
    have hend : p = x.length := Nat.le_antisymm h.pos_le (by omega)
    subst hend
    exact ⟨s, by simp [encodeLoop, h.input, h.ipos], rfl, rfl, by simpa [greedyFrom] using h⟩
  | succ fuel ih =>
    have hcontinue {q : Nat} {i : Instr} {u : State} (hq : p < q) (hstep : encodeStep s = .ok u)
        (hu : EncodeInv x q (bits ++ tokenBits s.cfg.wbits s.cfg.lbits i) u) :
        ∃ t, encodeLoop fuel u = .ok t ∧ t.cfg = s.cfg ∧ t.platform = s.platform ∧
          EncodeInv x x.length (bits ++ tokensBits s.cfg.wbits s.cfg.lbits
            (i :: greedyFrom s.cfg.wbits s.cfg.lbits s.cfg.minm x fuel q)) t := by
      obtain ⟨hcfg, -, -, -, -, -, hplatform⟩ := encodeStep_frame hstep
      obtain ⟨t, hloop, hcfg', hplatform', ht⟩ := ih hu (by omega)
      refine ⟨t, hloop, hcfg'.trans hcfg, hplatform'.trans hplatform, ?_⟩
      rwa [hcfg, List.append_assoc, ← tokensBits_cons] at ht
    rcases greedyFrom_succ_cases s.cfg.wbits s.cfg.lbits s.cfg.minm x fuel p with
      ⟨hend, heq⟩ | ⟨hp, ⟨hm, heq⟩ | ⟨hm, heq⟩⟩
    · have hend : p = x.length := Nat.le_antisymm h.pos_le hend
      subst hend
      exact ⟨s, by simp [encodeLoop, h.input, h.ipos], rfl, rfl, by simpa [heq] using h⟩
    · obtain ⟨u, hstep, hu⟩ := encodeStep_ref h hp hm
      have hpos : 0 < (longestMatch s.cfg.wbits s.cfg.lbits x p).2 := h.minm.trans hm
      rw [heq, encodeLoop, h.ipos, h.input, if_pos hp, hstep]
      exact hcontinue (by omega) hstep hu
    · obtain ⟨u, hstep, hu⟩ := encodeStep_lit h hp hm
      rw [heq, encodeLoop, h.ipos, h.input, if_pos hp, hstep]
      exact hcontinue (by omega) hstep hu

/-- ENCODE's loop on an idle Encoder writes the bits of the greedy parse, which FlushBits frames (R75, R141). -/
theorem encodeLoop_startEncode (h : s.readyToEncode) (x : List Byte) :
    ∃ t, encodeLoop x.length (startEncode x s) = .ok t ∧ t.cfg = s.cfg ∧ t.platform = s.platform ∧
      t.enc.ipos = x.length ∧ (flushBits t.writer).out = s.greedyStream x := by
  obtain ⟨t, hloop, hcfg, hplatform, ht⟩ := encodeLoop_spec (startEncode_inv h x) (fuel := x.length) (by omega)
  refine ⟨t, hloop, hcfg, hplatform, ht.ipos, ?_⟩
  rw [flushBits_out ht.writer, ht.bits]
  rfl

/-- An ENCODE on an idle Encoder is its loop, then FlushBits and the result (R141). -/
theorem exec_encode_eq (h : s.readyToEncode) {x : List Byte} (hloop : encodeLoop x.length (startEncode x s) = .ok t) :
    exec (.encode x) s = finishEncode t := by
  obtain ⟨-, hbusy, hrole⟩ := h
  simp [exec, execEncode, hbusy, hrole, hloop]

/-- ENCODE on an idle Encoder whose platform admits it returns the framed greedy parse (R141, R150). -/
theorem exec_encode_reply (h : s.readyToEncode) {x : List Byte} (hadmits : s.platform.admits (s.greedyStream x)) :
    ∃ t, exec (.encode x) s = .next t ∧ t.reply = .okBytes (s.greedyStream x) := by
  obtain ⟨u, hloop, -, hplatform, -, hout⟩ := encodeLoop_startEncode h x
  have hcap : exceedsOutCap u.platform (flushBits u.writer).out = false :=
    exceedsOutCap_eq_false.mpr (hplatform ▸ hout ▸ hadmits)
  rcases finishEncode_cases u with ⟨hexceeds, -⟩ | ⟨-, hfinish⟩
  · simp [hcap] at hexceeds
  · exact ⟨_, (exec_encode_eq h hloop).trans hfinish, by rw [hout]⟩

/-- Settles O39: the Encoder's stream is the framed greedy parse (`exec_encode_reply`), which means its input
(`decodeStream_greedyTokens`), and the Decoder returns what a stream means (`exec_decode_of_decodeStream`). -/
theorem decodeOfEncodeIsIdentity : Obligations.DecodeOfEncodeIsIdentity := by
  intro x s s' henc hdec hW hL hadmits hadmits'
  obtain ⟨hlegal, hminm⟩ := henc.config
  have hmeaning : decodeStream s'.cfg.wbits s'.cfg.lbits (s.greedyStream x) = .ok x := by
    rw [← hW, ← hL]
    exact decodeStream_greedyTokens (seven_le_of_legalConfig hlegal) hminm x
  obtain ⟨t, hencode, hreply⟩ := exec_encode_reply henc hadmits
  obtain ⟨t', hdecode, hreply'⟩ := exec_decode_of_decodeStream hdec hmeaning hadmits'
  exact ⟨t, s.greedyStream x, t', hencode, hreply, hdecode, hreply'⟩

end Sys2Proof.Machine
end

section
/-! ### The byte memories and the window under a sequence of writes (20_memory R52, R54) -/

namespace Sys2Proof.Machine

/-- The cells of a memory after a sequence of writes are cells of it before, or at an index written. -/
theorem Memory.mem_writeSeq {u : Option Byte} {m : Memory} {k : Nat} {vs : List Byte} {c : Host.Cell}
    (h : c ∈ Memory.writeSeq u m k vs) : c ∈ m ∨ (k ≤ c.1 ∧ c.1 < k + vs.length) := by
  induction vs generalizing m k with
  | nil => exact .inl h
  | cons v vs ih =>
    rw [List.length_cons]
    rcases ih h with hc | hc
    · rcases Memory.mem_write hc with rfl | hc
      · exact .inr ⟨le_rfl, by simp only; omega⟩
      · exact .inl hc
    · exact .inr (by omega)

variable {n : Nat} {h : History}

/-- HEAD and HCOUNT of a window of `n` bytes: until it is full the next push goes to the entry after the last (R26,
R54). -/
def History.Counted (n : Nat) (h : History) : Prop :=
  h.head < n ∧ h.hcount ≤ n ∧ (h.hcount < n → h.head = h.hcount)

theorem History.wf_iff :
    h.wf n ↔ Memory.wf hbufUnlisted h.hbuf ∧ (∀ c ∈ h.hbuf, c.1 < n) ∧ h.Counted n := Iff.rfl

/-- At a call start and after a construction the window is empty (R26). -/
theorem histCallStart_wf (hn : 0 < n) (hw : h.wf n) : (histCallStart h).wf n := by
  obtain ⟨hmem, hcells, -⟩ := hw
  exact ⟨hmem, hcells, hn, Nat.zero_le n, fun _ => rfl⟩

theorem histConstructed_wf (hn : 0 < n) : histConstructed.wf n :=
  ⟨Memory.wf_nil, by simp [histConstructed], hn, Nat.zero_le n, fun _ => rfl⟩

/-- A push keeps the counters, never counts down, and leaves every entry at or beyond the new count alone (R52). -/
theorem histPush_counted (hc : h.Counted n) (b : Byte) :
    (histPush n b h).Counted n ∧ h.hcount ≤ (histPush n b h).hcount ∧ ∀ a, (histPush n b h).hcount ≤ a →
      Memory.read hbufUnlisted (histPush n b h).hbuf a = Memory.read hbufUnlisted h.hbuf a := by
  obtain ⟨hhead, hcount, hnext⟩ := hc
  refine ⟨⟨Nat.mod_lt _ (by omega), Nat.min_le_right _ _, fun hlt => ?_⟩, ?_, fun a ha => ?_⟩
  · simp only [histPush] at hlt ⊢
    rw [Nat.mod_eq_of_lt (by omega)]
    omega
  · simp only [histPush]; omega
  · simp only [histPush] at ha
    exact Memory.read_write_ne _ _ (by omega)

/-- Pushes of a sequence keep the counters and leave every entry at or beyond the new count alone (R52). -/
theorem histPushAll_counted (bs : List Byte) (hc : h.Counted n) :
    (histPushAll n bs h).Counted n ∧ h.hcount ≤ (histPushAll n bs h).hcount ∧ ∀ a, (histPushAll n bs h).hcount ≤ a →
      Memory.read hbufUnlisted (histPushAll n bs h).hbuf a = Memory.read hbufUnlisted h.hbuf a := by
  induction bs generalizing h with
  | nil => exact ⟨hc, le_rfl, fun _ _ => rfl⟩
  | cons b bs ih =>
    obtain ⟨hpush, hle, hread⟩ := histPush_counted hc b
    obtain ⟨hpush', hle', hread'⟩ := ih hpush
    exact ⟨hpush', hle.trans hle', fun a ha => (hread' a ha).trans (hread a (hle'.trans ha))⟩

/-- Pushes of a sequence keep the window's invariant (R26, R52, R54). -/
theorem histPushAll_historyWf (bs : List Byte) (hw : h.wf n) : (histPushAll n bs h).wf n := by
  obtain ⟨hmem, hcells, hcounted⟩ := History.wf_iff.mp hw
  refine History.wf_iff.mpr ⟨histPushAll_wf n bs hmem, ?_, (histPushAll_counted bs hcounted).1⟩
  clear hmem hw
  induction bs generalizing h with
  | nil => exact hcells
  | cons b bs ih =>
    refine ih (fun c hc => ?_) (histPush_counted hcounted b).1
    rcases Memory.mem_write hc with rfl | hc
    · exact hcounted.1
    · exact hcells c hc

end Sys2Proof.Machine
end

section
/-! ### What reading bits keeps of the reader and its staging buffer (41_bit_io R126 to R131) -/

namespace Sys2Proof.Machine

variable {cap : Nat} {r r' : Reader}

/-- What reads of the stream, refills included, keep: SRC, every STAGE entry at or beyond the capacity, the staging
buffer's canonical cells inside it, and coherence (R29, R128). -/
structure Reader.Kept (cap : Nat) (r r' : Reader) : Prop where
  src : r'.src = r.src
  beyond : ∀ a, cap ≤ a → Memory.read stageUnlisted r'.stage a = Memory.read stageUnlisted r.stage a
  canonical : Memory.wf stageUnlisted r.stage → Memory.wf stageUnlisted r'.stage
  inside : (∀ c ∈ r.stage, c.1 < cap) → ∀ c ∈ r'.stage, c.1 < cap
  coherent : r.coherent cap → r'.coherent cap

theorem Reader.Kept.refl (cap : Nat) (r : Reader) : Reader.Kept cap r r := ⟨rfl, fun _ _ => rfl, id, id, id⟩

theorem Reader.Kept.trans {r'' : Reader} (h : Reader.Kept cap r r') (h' : Reader.Kept cap r' r'') :
    Reader.Kept cap r r'' where
  src := h'.src.trans h.src
  beyond a ha := (h'.beyond a ha).trans (h.beyond a ha)
  canonical := h'.canonical ∘ h.canonical
  inside := h'.inside ∘ h.inside
  coherent := h'.coherent ∘ h.coherent

/-- A refill writes inside the capacity (R128). -/
theorem refillIfEmpty_kept (cap : Nat) (r : Reader) : Reader.Kept cap r (refillIfEmpty cap r) := by
  by_cases heq : r.rd = r.fill
  · have hlen : ((r.src.drop r.srcPos).take (min cap (r.src.length - r.srcPos))).length ≤ cap := by simp
    rw [refillIfEmpty, if_pos heq]
    refine ⟨rfl, fun a ha => ?_, refill_wf cap, fun hin c hc => ?_, fun h => (refill_moved h heq).coherent⟩
    · exact Memory.read_writeSeq_outside _ _ _ (.inr (by omega))
    · rcases Memory.mem_writeSeq hc with hc | ⟨-, hc⟩
      · exact hin c hc
      · omega
  · rw [refillIfEmpty, if_neg heq]
    exact .refl cap r

/-- Advancing the cursor over a staged bit touches no memory (R126). -/
theorem advanceBit_kept (cap : Nat) (hlt : r.rd < r.fill) : Reader.Kept cap r (advanceBit r) := by
  have hregs : (advanceBit r).src = r.src ∧ (advanceBit r).stage = r.stage := by unfold advanceBit; split <;> simp
  obtain ⟨hsrc, hstage⟩ := hregs
  exact ⟨hsrc, fun _ _ => by rw [hstage], by rw [hstage]; exact id, by rw [hstage]; exact id,
    fun h => (advanceBit_moved h hlt).coherent⟩

theorem getBit_kept {bit : Bool} (h : getBit cap r = .ok (bit, r')) : Reader.Kept cap r r' := by
  obtain ⟨b, hb, -, rfl⟩ := getBit_eq_ok.mp h
  exact (refillIfEmpty_kept cap r).trans (advanceBit_kept cap (stagedByte_eq_ok.mp hb).1)

theorem getBitsLoop_kept {n v v' : Nat} (h : getBitsLoop cap n v r = .ok (v', r')) : Reader.Kept cap r r' := by
  induction n generalizing v r with
  | zero => cases h; exact .refl cap _
  | succ n ih =>
    rw [getBitsLoop] at h
    split at h
    · cases h
    · next bit r1 hbit => exact (getBit_kept hbit).trans (ih h)

/-- GetBits keeps the reader (R126). -/
theorem getBits_kept {n v : Nat} (h : getBits cap n r = .ok (v, r')) : Reader.Kept cap r r' :=
  getBitsLoop_kept (getBits_eq_ok.mp h).2

/-- The value GetBits reads from a coherent reader has as many bits as it asks for (R126). -/
theorem getBits_lt (hcap : 1 ≤ cap) (hcoh : r.coherent cap) {n v : Nat} (h : getBits cap n r = .ok (v, r')) :
    v < 2 ^ n := by
  have hn : n ≤ r.unread.length := hcoh.remainingBits_eq.1 ▸ (getBits_eq_ok.mp h).1
  obtain ⟨r1, hget, -⟩ := getBits_spec hcap hcoh hn
  rw [hget] at h
  cases h
  simpa [hn] using bitsToNat_lt (r.unread.take n)

/-- AtBoundary keeps the reader (R131). -/
theorem atBoundary_kept {w l : Nat} {a : Boundary} (h : atBoundary cap w l r = .ok (a, r')) : Reader.Kept cap r r' := by
  rcases atBoundary_cases h with ⟨-, -, rfl⟩ | ⟨-, -, rfl, -⟩ | ⟨-, tag, hget, -⟩
  · exact .refl cap _
  · exact .refl cap _
  · exact getBits_kept hget

/-- A token's tag is read as any bit is (R163). -/
theorem takeTag_kept {need : Nat} {whole : Bool} (h : takeTag cap need r = .ok (whole, r')) : Reader.Kept cap r r' := by
  unfold takeTag at h
  split at h
  · cases h; exact .refl cap _
  · split at h
    · cases h
    · next hget => cases h; exact getBits_kept hget

/-- A kept coherent reader of a legal capacity is in its widths (R29). -/
theorem Reader.Kept.wf (h : Reader.Kept cap r r') (hcap : cap ≤ Config.capMax) (hwf : r.wf cap)
    (hcoh : r.coherent cap) : r'.wf cap := by
  obtain ⟨hmem, hcells, -⟩ := hwf
  obtain ⟨hoff, hrd, hfill, -⟩ := h.coherent hcoh
  simp only [Config.capMax] at hcap
  exact ⟨h.canonical hmem, h.inside hcells, by omega, by omega, hoff⟩

end Sys2Proof.Machine
end

section
/-! ### What each instruction can do, where it answers a next state -/

namespace Sys2Proof.Machine

variable {s t : State}

/-! #### The constructions (40_config) -/

theorem legalConfig_of_checkConfig {w l : Int} (h : checkConfig w l = none) : LegalConfig w.toNat l.toNat := by
  simp only [checkConfig] at h
  split_ifs at h with hw hl hlt
  simp only [LegalConfig, Config.wMin, Config.wMax, Config.lMin, Config.lMax] at *
  omega

theorem legal_of_checkDecoder {cap w l : Int} (h : checkDecoder cap w l = none) :
    LegalConfig w.toNat l.toNat ∧ 1 ≤ cap.toNat ∧ cap.toNat ≤ Config.capMax := by
  unfold checkDecoder at h
  split at h
  · cases h
  · next hc =>
    split_ifs at h with hcap
    refine ⟨legalConfig_of_checkConfig hc, ?_⟩
    simp only [Config.capMax] at *
    omega

/-- ENC_INIT fails with InvalidParameter or makes an Encoder (R102). -/
theorem execEncInit_cases {w l : Int} (h : execEncInit w l s = .next t) :
    s.busy = false ∧ ((∃ c, t = raise (.invalidParameter c) s) ∨
      (LegalConfig w.toNat l.toNat ∧ t = constructEncoder w.toNat l.toNat s)) := by
  unfold execEncInit at h
  split at h
  · cases h
  · next hbusy =>
    refine ⟨by simpa using hbusy, ?_⟩
    split at h
    · next c _ => exact .inl ⟨c, by simpa [eq_comm] using h⟩
    · next hc => exact .inr ⟨legalConfig_of_checkConfig hc, by simpa [eq_comm] using h⟩

/-- DEC_INIT and DEC_INIT_CAP fail with InvalidParameter or make a Decoder (R103, R104). -/
theorem decoderConstruction_cases {cap w l : Int} (h : decoderConstruction cap w l s = .next t) :
    s.busy = false ∧ ((∃ c, t = raise (.invalidParameter c) s) ∨
      (LegalConfig w.toNat l.toNat ∧ 1 ≤ cap.toNat ∧ cap.toNat ≤ Config.capMax ∧
        t = constructDecoder cap.toNat w.toNat l.toNat s)) := by
  unfold decoderConstruction at h
  split at h
  · cases h
  · next hbusy =>
    refine ⟨by simpa using hbusy, ?_⟩
    split at h
    · next c _ => exact .inl ⟨c, by simpa [eq_comm] using h⟩
    · next hc =>
      obtain ⟨hlegal, hcap, hcap'⟩ := legal_of_checkDecoder hc
      exact .inr ⟨hlegal, hcap, hcap', by simpa [eq_comm] using h⟩

/-! #### ENCODE (42_encoder) -/

/-- What every EncodeStep keeps, ENCODE's loop keeps (R141). -/
theorem encodeLoop_keeps {P : State → Prop} (hstep : ∀ {u v}, P u → encodeStep u = .ok v → P v) {fuel : Nat}
    (h : encodeLoop fuel s = .ok t) (hs : P s) : P t := by
  induction fuel generalizing s with
  | zero =>
    rw [encodeLoop] at h
    split at h
    · cases h
    · cases h; exact hs
  | succ fuel ih =>
    rw [encodeLoop] at h
    split at h
    · split at h
      · cases h
      · next u hu => exact ih h (hstep hs hu)
    · cases h; exact hs

/-- ENCODE's loop writes what its steps do (R22, R63). -/
theorem encodeLoop_frame {fuel : Nat} (h : encodeLoop fuel s = .ok t) :
    t.cfg = s.cfg ∧ t.reader = s.reader ∧ t.dec = s.dec ∧ t.requests = s.requests ∧ t.platform = s.platform :=
  encodeLoop_keeps (P := fun u => u.cfg = s.cfg ∧ u.reader = s.reader ∧ u.dec = s.dec ∧ u.requests = s.requests ∧
      u.platform = s.platform)
    (fun {u v} hu hv => by
      obtain ⟨hcfg, -, hreader, hdec, hreq, -, hplat⟩ := encodeStep_frame hv
      simpa only [hcfg, hreader, hdec, hreq, hplat] using hu)
    h ⟨rfl, rfl, rfl, rfl, rfl⟩

/-- An ENCODE that answers is its loop, then FlushBits and the result, on an idle Encoder (R141). -/
theorem execEncode_cases {x : List Byte} (h : execEncode x s = .next t) :
    s.busy = false ∧ s.cfg.role = .encoder ∧
      ∃ u, encodeLoop x.length (startEncode x s) = .ok u ∧ finishEncode u = .next t := by
  unfold execEncode at h
  split_ifs at h with hbusy hrole
  refine ⟨by simpa using hbusy, by simpa using hrole, ?_⟩
  split at h
  · cases h
  · next u hu => exact ⟨u, hu, h⟩

/-- The end of an ENCODE that answers (R141). -/
theorem finishEncode_eq_next (h : finishEncode s = .next t) :
    t = { s with
      writer := flushBits s.writer
      enc := { s.enc with running := false }
      status := statusOk
      reply := .okBytes (flushBits s.writer).out } := by
  rcases finishEncode_cases s with ⟨-, heq⟩ | ⟨-, heq⟩
  · rw [heq] at h; cases h
  · rw [heq] at h; cases h; rfl

/-! #### DECODE (43_decoder) -/

/-- DECODE's loop is a run of the state machine to an ended state (R161). -/
theorem decodeLoop_run {fuel : Nat} (h : decodeLoop fuel s = .ok t) : ∃ k, DecodeRun k s t ∧ t.decodeEnded = true := by
  induction fuel generalizing s with
  | zero =>
    rw [decodeLoop] at h
    split at h
    · next hend => cases h; exact ⟨0, .refl _, hend⟩
    · cases h
  | succ fuel ih =>
    rw [decodeLoop] at h
    split at h
    · next hend => cases h; exact ⟨0, .refl _, hend⟩
    · split at h
      · cases h
      · next u hu =>
        obtain ⟨k, hrun, hend⟩ := ih h
        exact ⟨k + 1, .step hu hrun, hend⟩

/-- A REF's copy is a run of the state machine (R167). -/
theorem copyLoop_run {fuel : Nat} (h : copyLoop fuel s = .ok t) : ∃ k, DecodeRun k s t := by
  induction fuel generalizing s with
  | zero =>
    rw [copyLoop] at h
    split at h
    · cases h
    · cases h; exact ⟨0, .refl _⟩
  | succ fuel ih =>
    rw [copyLoop] at h
    split at h
    · next hq =>
      split at h
      · cases h
      · next u hu =>
        obtain ⟨k, hrun⟩ := ih h
        exact ⟨k + 1, .step (by rw [decodeStep, hq]; exact hu) hrun⟩
    · cases h; exact ⟨0, .refl _⟩

/-- Which step of the state machine runs in which DSTATE (R160, R161). -/
theorem decodeStep_cases (h : decodeStep s = .ok t) :
    (s.dec.dstate = .awaitTag ∧ awaitTagStep s = .ok t) ∨ (s.dec.dstate = .readLit ∧ readLitStep s = .ok t) ∨
      (s.dec.dstate = .readRef ∧ readRefStep s = .ok t) ∨ (s.dec.dstate = .copy ∧ copyStep s = .ok t) := by
  unfold decodeStep at h
  split at h <;> simp_all

/-- A DECODE that answers is a run of the state machine, then Finish, on an idle Decoder (R161). -/
theorem execDecode_cases {y : List Byte} (h : execDecode y s = .next t) :
    s.busy = false ∧ s.cfg.role = .decoder ∧
      ∃ k u, DecodeRun k (startDecode y s) u ∧ u.decodeEnded = true ∧ finishDecode u = .next t := by
  unfold execDecode at h
  split_ifs at h with hbusy hrole
  refine ⟨by simpa using hbusy, by simpa using hrole, ?_⟩
  split at h
  · cases h
  · next u hu =>
    obtain ⟨k, hrun, hend⟩ := decodeLoop_run hu
    exact ⟨k, u, hrun, hend, h⟩

/-- What Finish leaves alone (R162). -/
theorem finishDecode_frame (h : finishDecode s = .next t) :
    t.cfg = s.cfg ∧ t.hist = s.hist ∧ t.enc = s.enc ∧ t.writer = s.writer ∧ t.reader = s.reader ∧
      t.requests = s.requests ∧ t.platform = s.platform := by
  rcases finishDecode_cases s with ⟨-, -, heq⟩ | ⟨-, -, heq⟩ | ⟨-, heq⟩ <;> rw [heq] at h <;> cases h <;> simp

/-! #### The tokens (43_decoder R164, R165, R170) -/

theorem toOutcome_eq_next {e : Except Fault State} : toOutcome e = .next t ↔ e = .ok t := by
  cases e <;> simp [toOutcome]

/-- After its dangling check a REF ends the DECODE, or the state machine copies its bytes (R165, R167). -/
theorem runRef_cases {n : Nat} (h : runRef n s = .next t) :
    (s.dec.dstate = .failed ∧ finishDecode s = .next t) ∨ (s.dec.dstate ≠ .failed ∧ ∃ k, DecodeRun k s t) := by
  unfold runRef at h
  split at h
  · next hq => exact .inl ⟨hq, h⟩
  · next hq => exact .inr ⟨hq, copyLoop_run (toOutcome_eq_next.mp h)⟩

theorem atTokenBoundary_iff : s.atTokenBoundary = true ↔ s.cfg.role = .decoder ∧ s.dec.dstate = .awaitTag := by
  simp [State.atTokenBoundary]

/-- A LIT at a token boundary is truncated, or appends its byte (R163, R164). -/
theorem execLit_cases {v : Byte} (h : execLit v s = .next t) :
    s.dec.dstate = .awaitTag ∧ ∃ r, Reader.Kept s.cfg.inbufCap s.reader r ∧
      (truncatedToken { s with reader := r } = .next t ∨ t = litEffect v { s with reader := r }) := by
  unfold execLit at h
  split at h
  · next hat =>
    refine ⟨(atTokenBoundary_iff.mp hat).2, ?_⟩
    split at h
    · cases h
    · next r htag => exact ⟨r, takeTag_kept htag, .inl h⟩
    · next r htag =>
      split at h
      · cases h
      · next r' hget => exact ⟨r', (takeTag_kept htag).trans (getBits_kept hget), .inr (by simpa [eq_comm] using h)⟩
  · cases h

/-- A REF at a token boundary is truncated, dangles, or copies (R163, R165, R168). -/
theorem execRef_cases {d n : Nat} (h : execRef d n s = .next t) :
    s.dec.dstate = .awaitTag ∧ ∃ r, Reader.Kept s.cfg.inbufCap s.reader r ∧
      (truncatedToken { s with reader := r } = .next t ∨
        finishDecode (raise (.malformedStream .dangling) { s with reader := r }) = .next t ∨
        (d ≤ s.hist.hcount ∧ ∃ k, DecodeRun k
          { s with reader := r, dec := { s.dec with refOff := d, refRem := n, dstate := .copy } } t)) := by
  unfold execRef at h
  split at h
  · next hat =>
    refine ⟨(atTokenBoundary_iff.mp hat).2, ?_⟩
    split at h
    · cases h
    · next r htag => exact ⟨r, takeTag_kept htag, .inl h⟩
    · next r htag =>
      split at h
      · cases h
      · next r1 hgetO =>
        split at h
        · cases h
        · next r2 hgetF =>
          refine ⟨r2, (takeTag_kept htag).trans ((getBits_kept hgetO).trans (getBits_kept hgetF)), .inr ?_⟩
          rcases refEffect_cases d n { s with reader := r2 } with ⟨-, heff⟩ | ⟨hle, heff⟩ <;> rw [heff] at h
          · obtain ⟨-, hfinish⟩ | ⟨hq, -⟩ := runRef_cases h
            · exact .inl hfinish
            · exact absurd rfl hq
          · obtain ⟨hq, -⟩ | ⟨-, hrun⟩ := runRef_cases h
            · cases hq
            · exact .inr ⟨hle, hrun⟩
  · cases h

/-- END at a token boundary drains the DECODE (R170). -/
theorem execEndOfStream_cases (h : execEndOfStream s = .next t) :
    s.dec.dstate = .awaitTag ∧ finishDecode (setDState .drained s) = .next t := by
  unfold execEndOfStream at h
  split at h
  · next hat => exact ⟨(atTokenBoundary_iff.mp hat).2, h⟩
  · cases h

/-- The truncated boundary reads at most the tag, then fails the DECODE (R163). -/
theorem truncatedFetch_cases (h : truncatedFetch s = .next t) :
    ∃ r, Reader.Kept s.cfg.inbufCap s.reader r ∧ truncatedToken { s with reader := r } = .next t := by
  unfold truncatedFetch at h
  split at h
  · cases h
  · next r htag => exact ⟨r, takeTag_kept htag, h⟩

end Sys2Proof.Machine
end

section
/-! ### What a step runs (43_decoder R163, 60_exceptions R204) -/

namespace Sys2Proof.Machine

variable {s : State} {i : Instr} {r : Request} {rest : List Request}

theorem busy_eq_false : s.busy = false ↔ s.dec.dstate = .idle ∧ s.enc.running = false := by
  simp [State.busy]

/-- At a token boundary, the token there. -/
theorem step_token {rest : List Bool} (hq : s.dec.dstate = .awaitTag)
    (htok : decodeToken s.cfg.wbits s.cfg.lbits (pendingBits s.reader) = .token i rest) : step s = exec i s := by
  simp only [step, fetch, hq, fetchToken, htok]

/-- At a token boundary without a token, the failure. -/
theorem step_truncated (hq : s.dec.dstate = .awaitTag)
    (htok : decodeToken s.cfg.wbits s.cfg.lbits (pendingBits s.reader) = .truncated) : step s = truncatedFetch s := by
  simp only [step, fetch, hq, fetchToken, htok]

/-- Inside a token, the next step of the state machine. -/
theorem step_decodeStep (hq : s.dec.dstate = .readLit ∨ s.dec.dstate = .readRef ∨ s.dec.dstate = .copy) :
    step s = toOutcome (decodeStep s) := by
  rcases hq with hq | hq | hq <;> simp only [step, fetch, hq]

/-- At the end of a DECODE, Finish. -/
theorem step_finishDecode (hq : s.dec.dstate = .drained ∨ s.dec.dstate = .failed) : step s = finishDecode s := by
  rcases hq with hq | hq <;> simp only [step, fetch, hq]

/-- Inside an ENCODE, its next action. -/
theorem step_continueEncode (hq : s.dec.dstate = .idle) (hrun : s.enc.running = true) : step s = continueEncode s := by
  simp only [step, fetch, hq, hrun, if_true]

/-- With nothing in progress, what the requests fetch. -/
theorem fetch_idle (hbusy : s.busy = false) : fetch s = fetchRequest s := by
  obtain ⟨hq, hrun⟩ := busy_eq_false.mp hbusy
  simp [fetch, hq, hrun]

theorem step_request (hbusy : s.busy = false) (hreq : s.requests = r :: rest) (hdecode : decodeRequest r = .ok i) :
    step s = exec i { s with requests := rest } := by
  simp only [step, fetch_idle hbusy, fetchRequest, hreq, hdecode]

theorem step_badRequest {e : Reject} (hbusy : s.busy = false) (hreq : s.requests = r :: rest)
    (hdecode : decodeRequest r = .error e) : step s = .refused .badOperands := by
  simp only [step, fetch_idle hbusy, fetchRequest, hreq, hdecode]

theorem step_waiting (hbusy : s.busy = false) (hreq : s.requests = []) : step s = .next s := by
  simp only [step, fetch_idle hbusy, fetchRequest, hreq]

/-- Settles O45, case by case of the fetch. -/
theorem stepRunsTheDecodedInstruction : Obligations.StepRunsTheDecodedInstruction :=
  ⟨fun _ _ _ => step_token, fun _ => step_truncated, fun _ => step_decodeStep, fun _ => step_finishDecode,
    fun _ => step_continueEncode, fun _ _ _ _ => step_request, fun _ _ _ _ => step_badRequest, fun _ => step_waiting⟩

end Sys2Proof.Machine
end

section
/-! ### The invariant of the block is kept (10_state R22 to R33, 20_memory R54, 43_decoder R163, R166) -/

namespace Sys2Proof.Machine

variable {s t u : State}

/-! #### The constructions -/

theorem statusOk_mem : statusOk ∈ statusWords := by decide

theorem statusOf_mem (f : Failure) : statusOf f ∈ statusWords := by
  match f with
  | .invalidParameter .wRange | .invalidParameter .lRange | .invalidParameter .lNotLess
  | .invalidParameter .capRange | .malformedStream .dangling | .malformedStream .truncated => decide

/-- The words of the invariant are those of Ok and of the failures, so a raise of InvalidParameter keeps it (R24). -/
theorem State.Inv.raise_invalid (h : s.Inv) (c : InvalidCause) : (raise (.invalidParameter c) s).Inv := by
  obtain ⟨hcfg, -, hrest⟩ := h
  exact ⟨hcfg, statusOf_mem _, hrest⟩

/-- MIN_MATCH is a length that a REF can hold (R143). -/
theorem minMatch_range {w l : Nat} (h : LegalConfig w l) (p : Platform) :
    1 ≤ minMatch p w l ∧ minMatch p w l ≤ 2 ^ l := by
  have hdefault : 1 ≤ defaultMinMatch w l ∧ defaultMinMatch w l ≤ 2 ^ l := by
    obtain ⟨-, hw, hl, hl', -⟩ := h
    have hpow : 2 ^ 3 ≤ 2 ^ l := Nat.pow_le_pow_right (by decide) hl
    simp only [Config.wMax, Config.lMax] at hw hl'
    simp only [defaultMinMatch]
    omega
  unfold minMatch
  split
  · exact hdefault
  · split
    · next hm => exact hm
    · exact hdefault

/-- A construction leaves an idle slot with an empty window and nothing staged (R102, R104). -/
theorem State.Inv.construct (h : s.Inv) (hbusy : s.busy = false) {c : ConfigRegs} (hc : c.wf) :
    State.Inv { s with
      cfg := c, hist := histConstructed, reader := { s.reader with stage := [] }
      dec := { s.dec with dstate := .idle }, status := statusOk, reply := .okUnit } := by
  obtain ⟨-, -, -, hwriter, ⟨-, -, hregs⟩, -, -⟩ := h
  have hidle : s.enc.running = false := (busy_eq_false.mp hbusy).2
  exact ⟨hc, statusOk_mem, histConstructed_wf (Nat.two_pow_pos _), hwriter, ⟨Memory.wf_nil, by simp, hregs⟩,
    fun hq => absurd rfl hq, fun hrun => by simp [hidle] at hrun⟩

theorem State.Inv.constructEncoder (h : s.Inv) (hbusy : s.busy = false) {w l : Nat} (hlegal : LegalConfig w l) :
    (constructEncoder w l s).Inv :=
  h.construct hbusy ⟨nofun, fun _ => ⟨hlegal, rfl, minMatch_range hlegal s.platform⟩, nofun⟩

theorem State.Inv.constructDecoder (h : s.Inv) (hbusy : s.busy = false) {cap w l : Nat} (hlegal : LegalConfig w l)
    (hcap : 1 ≤ cap) (hcap' : cap ≤ Config.capMax) : (constructDecoder cap w l s).Inv :=
  h.construct hbusy ⟨nofun, nofun, fun _ => ⟨hlegal, hcap, hcap', rfl⟩⟩

/-- DEC_INIT and DEC_INIT_CAP keep the invariant (R103, R104). -/
theorem State.Inv.decoderConstruction (h : s.Inv) {cap w l : Int} (hexec : decoderConstruction cap w l s = .next t) :
    t.Inv := by
  obtain ⟨hbusy, ⟨c, rfl⟩ | ⟨hlegal, hcap, hcap', rfl⟩⟩ := decoderConstruction_cases hexec
  · exact h.raise_invalid c
  · exact h.constructDecoder hbusy hlegal hcap hcap'

/-! #### ENCODE -/

theorem flushBits_wf {w : Writer} (h : w.wf) : (flushBits w).wf := by
  unfold flushBits
  split
  · exact ⟨by simp, by simp⟩
  · exact h

/-- The call start of an ENCODE on an idle Encoder (R141). -/
theorem State.Inv.startEncode (h : s.Inv) (hbusy : s.busy = false) (hrole : s.cfg.role = .encoder) (x : List Byte) :
    (startEncode x s).Inv := by
  obtain ⟨hcfg, hstatus, hhist, -, hreader, -, -⟩ := h
  have hidle : s.dec.dstate = .idle := (busy_eq_false.mp hbusy).1
  exact ⟨hcfg, hstatus, histCallStart_wf (Nat.two_pow_pos _) hhist, writerCleared_wf, hreader,
    fun hq => absurd hidle hq, fun _ => ⟨hrole, Nat.zero_le _, histCallStart_holds _ _, Nat.zero_le _, Nat.zero_le _⟩⟩

/-- An EncodeStep keeps the invariant once its token's bytes are pushed and its bits are written (R144, R147). -/
theorem State.Inv.advanceEncode (h : s.Inv) (hrun : s.enc.running = true) {w : Writer} (hw : w.wf) {n : Nat}
    (hn : s.enc.ipos + n ≤ s.enc.input.length) {off len : Nat} (hoff : off ≤ s.cfg.window) (hlen : len ≤ s.cfg.lmax) :
    State.Inv { s with
      writer := w
      hist := histPushAll s.cfg.window ((s.enc.input.drop s.enc.ipos).take n) s.hist
      enc := { s.enc with ipos := s.enc.ipos + n, matchOff := off, matchLen := len } } := by
  obtain ⟨hcfg, hstatus, hhist, -, hreader, hdec, henc⟩ := h
  obtain ⟨hrole, -, hwindow, -, -⟩ := henc hrun
  have hidle : s.dec.dstate = .idle := by
    by_contra hq
    obtain ⟨-, hstopped, -⟩ := hdec hq
    cases hrun.symm.trans hstopped
  obtain ⟨hmem, -⟩ := History.wf_iff.mp hhist
  have hpushed := histPushAll_holds (DecodeInv.window_pos s) ((s.enc.input.drop s.enc.ipos).take n) hmem hwindow
  rw [← List.take_add] at hpushed
  exact ⟨hcfg, hstatus, histPushAll_historyWf _ hhist, hw, hreader, fun hq => absurd hidle hq,
    fun _ => ⟨hrole, hn, hpushed, hoff, hlen⟩⟩

/-- An EncodeStep keeps the invariant (R144). -/
theorem State.Inv.encodeStep (h : s.Inv) (hrun : s.enc.running = true) (hstep : encodeStep s = .ok t) :
    t.Inv ∧ t.enc.running = true := by
  obtain ⟨⟨-, hencoder, -⟩, -, -, hwriter, -, -, henc⟩ := id h
  obtain ⟨hrole, hpos, hwindow, -, -⟩ := henc hrun
  obtain ⟨-, -, hminm, -⟩ := hencoder hrole
  obtain ⟨b, off, len, hb, hfind, hcase⟩ := encodeStep_cases hstep
  have hbest : (off, len) = longestMatch s.cfg.wbits s.cfg.lbits s.enc.input s.enc.ipos :=
    Except.ok.inj (hfind.symm.trans (findMatch_eq hwindow hpos))
  obtain ⟨-, hmax, hlast, -⟩ := longestMatch_choice s.cfg.wbits s.cfg.lbits s.enc.input s.enc.ipos
  simp only [← hbest] at hmax hlast
  have hoff : off ≤ s.cfg.window := hlast.trans (Nat.min_le_right _ _)
  have hlen : len ≤ s.cfg.lmax := hmax.trans (Nat.min_le_left _ _)
  obtain ⟨hle, w, hemit, rfl⟩ | ⟨-, w, hemit, rfl⟩ := hcase
  · have hpositive : 1 ≤ (longestMatch s.cfg.wbits s.cfg.lbits s.enc.input s.enc.ipos).2 := by
      rw [← hbest]; exact hminm.trans hle
    obtain ⟨hoff1, -⟩ := longestMatch_ranges hpositive
    rw [← hbest] at hoff1
    obtain ⟨w', hemit', hwf, -⟩ := emitRef_spec hwriter hoff1 hoff (hminm.trans hle) hlen
    cases hemit.symm.trans hemit'
    exact ⟨h.advanceEncode hrun hwf (by omega) hoff hlen, hrun⟩
  · obtain ⟨w', hemit', hwf, -⟩ := emitLit_spec hwriter s.cfg.wbits s.cfg.lbits b
    cases hemit.symm.trans hemit'
    obtain ⟨hlt, rfl⟩ := List.getElem?_eq_some_iff.mp hb
    have hinv := h.advanceEncode (n := 1) hrun hwf hlt hoff hlen
    rw [List.drop_eq_getElem_cons hlt] at hinv
    exact ⟨hinv, hrun⟩

/-- The end of an ENCODE keeps the invariant (R141). -/
theorem State.Inv.finishEncode (h : s.Inv) (hfinish : finishEncode s = .next t) : t.Inv := by
  obtain ⟨hcfg, -, hhist, hwriter, hreader, hdec, -⟩ := h
  rw [finishEncode_eq_next hfinish]
  refine ⟨hcfg, statusOk_mem, hhist, flushBits_wf hwriter, hreader, fun hq => ?_, nofun⟩
  obtain ⟨hrole, -, hrest⟩ := hdec hq
  exact ⟨hrole, rfl, hrest⟩

/-- The next action of an ENCODE in progress keeps the invariant (R141). -/
theorem State.Inv.continueEncode (h : s.Inv) (hrun : s.enc.running = true) (hnext : continueEncode s = .next t) :
    t.Inv := by
  unfold Machine.continueEncode at hnext
  split at hnext
  · exact (h.encodeStep hrun (toOutcome_eq_next.mp hnext)).1
  · exact h.finishEncode hnext

/-- ENCODE keeps the invariant (R141). -/
theorem State.Inv.execEncode (h : s.Inv) {x : List Byte} (hexec : execEncode x s = .next t) : t.Inv := by
  obtain ⟨hbusy, hrole, u, hloop, hfinish⟩ := execEncode_cases hexec
  obtain ⟨hu, -⟩ := encodeLoop_keeps (P := fun u => u.Inv ∧ u.enc.running = true)
    (fun hv hstep => hv.1.encodeStep hv.2 hstep) hloop ⟨h.startEncode hbusy hrole x, rfl⟩
  exact hu.finishEncode hfinish

/-! #### DECODE -/

/-- What part of a DECODE leaves alone, and how it extends the reader, the window and the output: the bytes pushed are
those output (R22, R63, R128, R166). -/
structure DecodeMoved (s t : State) : Prop where
  cfg : t.cfg = s.cfg
  status : t.status = s.status
  enc : t.enc = s.enc
  writer : t.writer = s.writer
  reader : Reader.Kept s.cfg.inbufCap s.reader t.reader
  pushed : ∃ bs, t.hist = histPushAll s.cfg.window bs s.hist ∧ t.dec.out = s.dec.out ++ bs

theorem DecodeMoved.refl (s : State) : DecodeMoved s s := ⟨rfl, rfl, rfl, rfl, .refl _ _, [], rfl, by simp⟩

theorem DecodeMoved.trans (h : DecodeMoved s t) (h' : DecodeMoved t u) : DecodeMoved s u := by
  obtain ⟨as, hhist, hout⟩ := h.pushed
  obtain ⟨bs, hhist', hout'⟩ := h'.pushed
  refine ⟨h'.cfg.trans h.cfg, h'.status.trans h.status, h'.enc.trans h.enc, h'.writer.trans h.writer,
    h.reader.trans (h.cfg ▸ h'.reader), as ++ bs, ?_, by rw [hout', hout, List.append_assoc]⟩
  rw [hhist', hhist, h.cfg, histPushAll_append]

/-- A DECODE whose reader alone, and registers of its control state, changed. -/
theorem DecodeMoved.of_reader {r : Reader} (hr : Reader.Kept s.cfg.inbufCap s.reader r) {d : DecoderRegs}
    (hd : d.out = s.dec.out) : DecodeMoved s { s with reader := r, dec := d } :=
  ⟨rfl, rfl, rfl, rfl, hr, [], rfl, by simp [hd]⟩

/-- A DECODE that read bits and output a byte. -/
theorem DecodeMoved.of_litEffect {r : Reader} (hr : Reader.Kept s.cfg.inbufCap s.reader r) (v : Byte) :
    DecodeMoved s (litEffect v { s with reader := r }) := ⟨rfl, rfl, rfl, rfl, hr, [v], rfl, rfl⟩

/-- A step of the state machine (R160). -/
theorem decodeStep_moved (h : decodeStep s = .ok t) : DecodeMoved s t := by
  obtain ⟨-, hstep⟩ | ⟨-, hstep⟩ | ⟨-, hstep⟩ | ⟨-, hstep⟩ := decodeStep_cases h
  · obtain ⟨a, r, hat, ⟨-, rfl⟩ | ⟨-, rfl⟩ | ⟨-, rfl⟩ | ⟨-, rfl⟩⟩ := awaitTagStep_cases hstep <;>
      exact .of_reader (atBoundary_kept hat) rfl
  · obtain ⟨v, r, hget, rfl⟩ := readLitStep_cases hstep
    exact .of_litEffect (getBits_kept hget) _
  · obtain ⟨o, len, r1, r2, hgetO, hgetF, rfl⟩ := readRefStep_cases hstep
    have hr := (getBits_kept hgetO).trans (getBits_kept hgetF)
    rcases refEffect_cases (refOffset o) (refLength len) { s with reader := r2 } with ⟨-, heff⟩ | ⟨-, heff⟩ <;>
      rw [heff] <;> exact .of_reader hr rfl
  · obtain ⟨-, rfl⟩ | ⟨-, b, -, rfl⟩ := copyStep_cases hstep
    · exact .of_reader (.refl _ _) rfl
    · exact ⟨rfl, rfl, rfl, rfl, .refl _ _, [b], rfl, rfl⟩

/-- A run of the state machine (R161). -/
theorem DecodeRun.moved {k : Nat} (h : DecodeRun k s t) : DecodeMoved s t := by
  induction h with
  | refl s => exact .refl s
  | step hstep _ ih => exact (decodeStep_moved hstep).trans ih

/-- What each DSTATE relies on: the bits it reads are there, the offset it copies from is valid (R163, R167). -/
def State.Relies (s : State) : Prop :=
  (s.dec.dstate = .readLit → 8 ≤ remainingBits s.reader) ∧
    (s.dec.dstate = .readRef → s.cfg.wbits + s.cfg.lbits ≤ remainingBits s.reader) ∧
    (s.dec.dstate = .copy → 1 ≤ s.dec.refOff ∧ s.dec.refOff ≤ s.hist.hcount ∧ s.dec.refRem ≤ s.cfg.lmax)

/-- Part of a DECODE in progress keeps the invariant where its last DSTATE has what it relies on. -/
theorem State.Inv.decode (h : s.Inv) (hq : s.dec.dstate ≠ .idle) (hmoved : DecodeMoved s t) (hrelies : t.Relies) :
    t.Inv := by
  obtain ⟨hcfg, hstatus, hhist, hwriter, hreader, hdec, henc⟩ := h
  obtain ⟨hrole, hstopped, hcoh, hwindow, -⟩ := hdec hq
  obtain ⟨-, -, hdecoder⟩ := id hcfg
  obtain ⟨-, -, hcap, -⟩ := hdecoder hrole
  obtain ⟨bs, hpush, hout⟩ := hmoved.pushed
  obtain ⟨hmem, -⟩ := History.wf_iff.mp hhist
  have hholds := histPushAll_holds (DecodeInv.window_pos s) bs hmem hwindow
  rw [← hpush, ← hout] at hholds
  refine ⟨?_, ?_, ?_, ?_, ?_, fun _ => ?_, fun hrun => ?_⟩
  · rwa [hmoved.cfg]
  · rwa [hmoved.status]
  · rw [hmoved.cfg, hpush]; exact histPushAll_historyWf bs hhist
  · rwa [hmoved.writer]
  · rw [hmoved.cfg]; exact hmoved.reader.wf hcap hreader hcoh
  · rw [hmoved.cfg, hmoved.enc]
    exact ⟨hrole, hstopped, hmoved.reader.coherent hcoh, hholds, hmoved.cfg ▸ hrelies⟩
  · rw [hmoved.enc, hstopped] at hrun; cases hrun

/-- A DSTATE that reads no bit of its own and copies nothing relies on nothing. -/
theorem relies_of_dstate (h1 : s.dec.dstate ≠ .readLit) (h2 : s.dec.dstate ≠ .readRef) (h3 : s.dec.dstate ≠ .copy) :
    s.Relies :=
  ⟨fun h => absurd h h1, fun h => absurd h h2, fun h => absurd h h3⟩

theorem relies_of_decodeEnded (h : s.decodeEnded = true) : s.Relies := by
  simp only [State.decodeEnded, Bool.or_eq_true, decide_eq_true_eq] at h
  rcases h with hq | hq <;> exact relies_of_dstate (by simp [hq]) (by simp [hq]) (by simp [hq])

/-- Where AtBoundary answers a tag, the rest of its token is there (R131). -/
theorem le_remainingBits_of_atBoundary {cap w l : Nat} {r r' : Reader} {tag : Bool}
    (h : atBoundary cap w l r = .ok (.token tag, r')) : (if tag then w + l else 8) ≤ remainingBits r' := by
  rcases atBoundary_cases h with ⟨-, ha, -⟩ | ⟨-, -, -, ⟨-, ha⟩ | ⟨-, ha⟩⟩ | ⟨-, v, -, ⟨-, ha⟩ | ⟨hle, ha⟩⟩
  any_goals cases ha
  by_cases hv : v = 0 <;> simpa [hv] using hle

theorem dstate_ne_idle_of_decodeStep (h : decodeStep s = .ok t) : s.dec.dstate ≠ .idle := by
  obtain ⟨hq, -⟩ | ⟨hq, -⟩ | ⟨hq, -⟩ | ⟨hq, -⟩ := decodeStep_cases h <;> simp [hq]

/-- A step of the state machine leaves a DSTATE with what it relies on (R163, R165, R167). -/
theorem State.Inv.decodeStep_relies (h : s.Inv) (hstep : decodeStep s = .ok t) : t.Relies := by
  obtain ⟨⟨-, -, hdecoder⟩, -, hhist, -, -, hdec, -⟩ := h
  obtain ⟨-, -, hcounted⟩ := History.wf_iff.mp hhist
  obtain ⟨hrole, -, hcoh, -, -, -, hcopy⟩ := hdec (dstate_ne_idle_of_decodeStep hstep)
  obtain ⟨-, hcap, -, -⟩ := hdecoder hrole
  obtain ⟨-, hstep⟩ | ⟨-, hstep⟩ | ⟨-, hstep⟩ | ⟨hq, hstep⟩ := decodeStep_cases hstep
  · obtain ⟨a, r, hat, ⟨-, rfl⟩ | ⟨-, rfl⟩ | ⟨rfl, rfl⟩ | ⟨rfl, rfl⟩⟩ := awaitTagStep_cases hstep
    · exact relies_of_decodeEnded rfl
    · exact relies_of_decodeEnded rfl
    · exact ⟨fun _ => le_remainingBits_of_atBoundary hat, nofun, nofun⟩
    · exact ⟨nofun, fun _ => le_remainingBits_of_atBoundary hat, nofun⟩
  · obtain ⟨v, r, -, rfl⟩ := readLitStep_cases hstep
    exact relies_of_dstate nofun nofun nofun
  · obtain ⟨o, len, r1, r2, hgetO, hgetF, rfl⟩ := readRefStep_cases hstep
    have hlen := getBits_lt hcap ((getBits_kept hgetO).coherent hcoh) hgetF
    rcases refEffect_cases (refOffset o) (refLength len) { s with reader := r2 } with ⟨-, heff⟩ | ⟨hle, heff⟩ <;>
      rw [heff]
    · exact relies_of_decodeEnded rfl
    · exact ⟨nofun, nofun, fun _ => ⟨Nat.le_add_left 1 o, hle, hlen⟩⟩
  · obtain ⟨hoff, hvalid, hrem⟩ := hcopy hq
    obtain ⟨-, rfl⟩ | ⟨-, b, -, rfl⟩ := copyStep_cases hstep
    · exact relies_of_dstate nofun nofun nofun
    · obtain ⟨-, hcount, -⟩ := histPush_counted hcounted b
      exact ⟨by simp [hq], by simp [hq], fun _ => ⟨hoff, hvalid.trans hcount, (Nat.sub_le _ _).trans hrem⟩⟩

/-- A step of the state machine keeps the invariant (R160). -/
theorem State.Inv.decodeStep (h : s.Inv) (hstep : decodeStep s = .ok t) : t.Inv :=
  h.decode (dstate_ne_idle_of_decodeStep hstep) (decodeStep_moved hstep) (h.decodeStep_relies hstep)

/-- A run of the state machine keeps the invariant (R161). -/
theorem DecodeRun.inv {k : Nat} (hrun : DecodeRun k s t) (h : s.Inv) : t.Inv := by
  induction hrun with
  | refl => exact h
  | step hstep _ ih => exact ih (h.decodeStep hstep)

/-- No ENCODE is in progress during a DECODE (R64). -/
theorem State.Inv.not_running (h : s.Inv) (hq : s.dec.dstate ≠ .idle) : s.enc.running = false := by
  obtain ⟨-, -, -, -, -, hdec, -⟩ := h
  obtain ⟨-, hstopped, -⟩ := hdec hq
  exact hstopped

/-- Finish keeps the invariant (R162). -/
theorem State.Inv.finishDecode (h : s.Inv) (hstopped : s.enc.running = false) (hfinish : finishDecode s = .next t) :
    t.Inv := by
  obtain ⟨hcfg, -, hhist, hwriter, hreader, -, -⟩ := h
  have hencoding (hrun : s.enc.running = true) : False := by simp [hstopped] at hrun
  rcases finishDecode_cases s with ⟨-, -, heq⟩ | ⟨-, -, heq⟩ | ⟨-, heq⟩ <;> rw [heq] at hfinish <;> cases hfinish
  · exact ⟨hcfg, statusOk_mem, hhist, hwriter, hreader, fun hq => absurd rfl hq, fun hrun => (hencoding hrun).elim⟩
  · exact ⟨hcfg, statusOf_mem _, hhist, hwriter, hreader, fun hq => absurd rfl hq, fun hrun => (hencoding hrun).elim⟩

/-- The call start of a DECODE on an idle Decoder (R161). -/
theorem State.Inv.startDecode (h : s.Inv) (hbusy : s.busy = false) (hrole : s.cfg.role = .decoder) (y : List Byte) :
    (startDecode y s).Inv := by
  obtain ⟨hcfg, hstatus, hhist, hwriter, ⟨hmem, hcells, -⟩, -, -⟩ := h
  have hstopped : s.enc.running = false := (busy_eq_false.mp hbusy).2
  exact ⟨hcfg, hstatus, histCallStart_wf (DecodeInv.window_pos s) hhist, hwriter,
    ⟨hmem, hcells, Nat.two_pow_pos _, Nat.two_pow_pos _, Nat.zero_lt_succ _⟩,
    fun _ => ⟨hrole, hstopped, (readerCallStart_coherent _ y s.reader).1, histCallStart_holds _ _, nofun, nofun, nofun⟩,
    fun hrun => absurd (hstopped.symm.trans hrun) nofun⟩

/-- DECODE keeps the invariant (R161). -/
theorem State.Inv.execDecode (h : s.Inv) {y : List Byte} (hexec : execDecode y s = .next t) : t.Inv := by
  obtain ⟨hbusy, hrole, k, u, hrun, -, hfinish⟩ := execDecode_cases hexec
  have hstopped : u.enc.running = false := by
    rw [hrun.moved.enc]
    exact (busy_eq_false.mp hbusy).2
  exact (hrun.inv (h.startDecode hbusy hrole y)).finishDecode hstopped hfinish

/-! #### The tokens -/

/-- The end of a DECODE at a token boundary keeps the invariant (R163, R170). -/
theorem State.Inv.endDecode (h : s.Inv) (hq : s.dec.dstate = .awaitTag) (hfinish : Machine.finishDecode u = .next t)
    (hmoved : DecodeMoved s u) (hend : u.decodeEnded = true) : t.Inv := by
  have hne : s.dec.dstate ≠ .idle := by rw [hq]; nofun
  have hstopped : u.enc.running = false := by rw [hmoved.enc]; exact h.not_running hne
  exact (h.decode hne hmoved (relies_of_decodeEnded hend)).finishDecode hstopped hfinish

/-- A LIT keeps the invariant (R164). -/
theorem State.Inv.execLit (h : s.Inv) {v : Byte} (hexec : execLit v s = .next t) : t.Inv := by
  obtain ⟨hq, r, hr, htruncated | rfl⟩ := execLit_cases hexec
  · exact h.endDecode hq htruncated (.of_reader hr rfl) rfl
  · exact h.decode (by rw [hq]; nofun) (.of_litEffect hr v) (relies_of_dstate nofun nofun nofun)

/-- A well-formed REF keeps the invariant (R165, R167). -/
theorem State.Inv.execRef (h : s.Inv) {d n : Nat} (hwf : (Instr.ref d n).wf s.cfg.wbits s.cfg.lbits = true)
    (hexec : execRef d n s = .next t) : t.Inv := by
  simp only [Instr.wf, Bool.and_eq_true, decide_eq_true_eq] at hwf
  obtain ⟨⟨⟨hd, -⟩, -⟩, hn⟩ := hwf
  obtain ⟨hq, r, hr, htruncated | hdangling | ⟨hle, k, hrun⟩⟩ := execRef_cases hexec
  · exact h.endDecode hq htruncated (.of_reader hr rfl) rfl
  · exact h.endDecode hq hdangling (.of_reader hr rfl) rfl
  · exact hrun.inv (h.decode (by rw [hq]; nofun) (.of_reader hr rfl) ⟨nofun, nofun, fun _ => ⟨hd, hle, hn⟩⟩)

/-- END keeps the invariant (R170). -/
theorem State.Inv.execEndOfStream (h : s.Inv) (hexec : execEndOfStream s = .next t) : t.Inv := by
  obtain ⟨hq, hfinish⟩ := execEndOfStream_cases hexec
  exact h.endDecode hq hfinish (.of_reader (.refl _ _) rfl) rfl

/-! #### The whole machine -/

/-- Every well-formed instruction keeps the invariant. -/
theorem State.Inv.exec (h : s.Inv) {i : Instr} (hwf : i.wf s.cfg.wbits s.cfg.lbits = true)
    (hexec : exec i s = .next t) : t.Inv := by
  cases i with
  | lit v => exact h.execLit hexec
  | ref d n => exact h.execRef hwf hexec
  | endOfStream => exact h.execEndOfStream hexec
  | encInit w l =>
    obtain ⟨hbusy, ⟨c, rfl⟩ | ⟨hlegal, rfl⟩⟩ := execEncInit_cases hexec
    · exact h.raise_invalid c
    · exact h.constructEncoder hbusy hlegal
  | decInit w l => exact h.decoderConstruction hexec
  | decInitCap cap w l => exact h.decoderConstruction hexec
  | encode x => exact h.execEncode hexec
  | decode y => exact h.execDecode hexec
  | reservedCmd code => cases hexec

/-- What stands at a token boundary is well-formed (R73). -/
theorem decodeToken_wf {W L : Nat} {bits rest : List Bool} {i : Instr} (h : decodeToken W L bits = .token i rest) :
    i.wf W L = true := by
  rcases decodeToken_cases W L bits with
    ⟨-, -, htok⟩ | ⟨-, -, htok⟩ | ⟨tag, rest', -, -, ⟨-, htok⟩ | ⟨-, -, htok⟩ | ⟨-, hle, htok⟩⟩ <;>
    rw [htok] at h <;> cases h
  · rfl
  · rfl
  · have hO := bitsToNat_lt (rest'.take W)
    have hF := bitsToNat_lt ((rest'.drop W).take L)
    rw [List.length_take_of_le (by omega)] at hO
    rw [List.length_take_of_le (by simp; omega)] at hF
    simp [Instr.wf, refOffset, refLength, hO, hF]

/-- What a request decodes to is well-formed under every configuration (R79, R80). -/
theorem decodeRequest_wf {r : Request} {i : Instr} (h : decodeRequest r = .ok i) (W L : Nat) : i.wf W L = true := by
  unfold decodeRequest at h
  split at h
  case h_6 =>
    split_ifs at h with hc
    cases h
    simpa [Instr.wf] using hc
  all_goals cases h; rfl

/-- Settles O50, instruction by instruction (`State.Inv.exec`). -/
theorem execKeepsTheInvariant : Obligations.ExecKeepsTheInvariant :=
  fun _ _ _ h hwf hexec => h.exec hwf hexec

/-- Settles O49: a step runs a well-formed instruction (`State.Inv.exec`) or the next action of the operation in
progress, and each keeps the invariant. -/
theorem stepKeepsTheInvariant : Obligations.StepKeepsTheInvariant := by
  intro s t h hstep
  have hinside (hq : s.dec.dstate = .readLit ∨ s.dec.dstate = .readRef ∨ s.dec.dstate = .copy) : t.Inv := by
    rw [step_decodeStep hq] at hstep
    exact h.decodeStep (toOutcome_eq_next.mp hstep)
  have hend (hq : s.dec.dstate = .drained ∨ s.dec.dstate = .failed) : t.Inv := by
    rw [step_finishDecode hq] at hstep
    exact h.finishDecode (h.not_running (by rcases hq with hq | hq <;> simp [hq])) hstep
  match hq : s.dec.dstate with
  | .awaitTag =>
    match htok : decodeToken s.cfg.wbits s.cfg.lbits (pendingBits s.reader) with
    | .token i rest =>
      rw [step_token hq htok] at hstep
      exact h.exec (decodeToken_wf htok) hstep
    | .truncated =>
      rw [step_truncated hq htok] at hstep
      obtain ⟨r, hr, htruncated⟩ := truncatedFetch_cases hstep
      exact h.endDecode hq htruncated (.of_reader hr rfl) rfl
  | .readLit => exact hinside (.inl hq)
  | .readRef => exact hinside (.inr (.inl hq))
  | .copy => exact hinside (.inr (.inr hq))
  | .drained => exact hend (.inl hq)
  | .failed => exact hend (.inr hq)
  | .idle =>
    cases hrun : s.enc.running with
    | true =>
      rw [step_continueEncode hq hrun] at hstep
      exact h.continueEncode hrun hstep
    | false =>
      have hbusy : s.busy = false := busy_eq_false.mpr ⟨hq, hrun⟩
      match hreq : s.requests with
      | [] =>
        rw [step_waiting hbusy hreq] at hstep
        cases hstep
        exact h
      | r :: rest =>
        match hdecode : decodeRequest r with
        | .ok i =>
          rw [step_request hbusy hreq hdecode] at hstep
          exact State.Inv.exec (s := { s with requests := rest }) h (decodeRequest_wf hdecode _ _) hstep
        | .error e =>
          rw [step_badRequest hbusy hreq hdecode] at hstep
          cases hstep

end Sys2Proof.Machine
end

section
/-! ### What the instructions leave unchanged, and the results they report -/

namespace Sys2Proof.Machine

variable {s t : State}

/-! #### Frames -/

/-- Settles O19, instruction by instruction: the operations have their frames (`encodeLoop_frame`, `DecodeRun.frame`,
`finishDecode_frame`), and a construction leaves the platform alone. -/
theorem onlyConstructionsWriteConfig : Obligations.OnlyConstructionsWriteConfig := by
  intro i s t h
  have hfinish {u : State} {p q r : Prop} (hu : finishDecode u = .next t) (hcfg : u.cfg = s.cfg)
      (hplat : u.platform = s.platform) : t.platform = s.platform ∧ (p → q → r → t.cfg = s.cfg) := by
    obtain ⟨hcfg', -, -, -, -, -, hplat'⟩ := finishDecode_frame hu
    exact ⟨hplat'.trans hplat, fun _ _ _ => hcfg'.trans hcfg⟩
  cases i with
  | lit v =>
    obtain ⟨-, r, -, htruncated | rfl⟩ := execLit_cases h
    · exact hfinish htruncated rfl rfl
    · exact ⟨rfl, fun _ _ _ => rfl⟩
  | ref d n =>
    obtain ⟨-, r, -, htruncated | hdangling | ⟨-, k, hrun⟩⟩ := execRef_cases h
    · exact hfinish htruncated rfl rfl
    · exact hfinish hdangling rfl rfl
    · obtain ⟨hcfg, -, -, -, -, -, hplat⟩ := hrun.frame
      exact ⟨hplat, fun _ _ _ => hcfg⟩
  | endOfStream =>
    obtain ⟨-, hend⟩ := execEndOfStream_cases h
    exact hfinish hend rfl rfl
  | encInit w l =>
    obtain ⟨-, ⟨c, rfl⟩ | ⟨-, rfl⟩⟩ := execEncInit_cases h <;> exact ⟨rfl, fun hne => absurd rfl (hne w l)⟩
  | decInit w l =>
    obtain ⟨-, ⟨c, rfl⟩ | ⟨-, -, -, rfl⟩⟩ := decoderConstruction_cases h <;>
      exact ⟨rfl, fun _ hne => absurd rfl (hne w l)⟩
  | decInitCap cap w l =>
    obtain ⟨-, ⟨c, rfl⟩ | ⟨-, -, -, rfl⟩⟩ := decoderConstruction_cases h <;>
      exact ⟨rfl, fun _ _ hne => absurd rfl (hne cap w l)⟩
  | encode x =>
    obtain ⟨-, -, u, hloop, hend⟩ := execEncode_cases h
    obtain ⟨hcfg, -, -, -, hplat⟩ := encodeLoop_frame hloop
    cases finishEncode_eq_next hend
    exact ⟨hplat, fun _ _ _ => hcfg⟩
  | decode y =>
    obtain ⟨-, -, k, u, hrun, -, hend⟩ := execDecode_cases h
    obtain ⟨hcfg, -, -, -, -, -, hplat⟩ := hrun.frame
    exact hfinish hend hcfg hplat
  | reservedCmd code => cases h

/-- Settles O36: a DECODE is a run of the state machine from its call start, whose pushes and refills have their frames
(`DecodeRun.moved`, `histPushAll_counted`), and Finish writes no memory (`finishDecode_frame`). -/
theorem decodeFrame : Obligations.DecodeFrame := by
  intro y s t h
  obtain ⟨-, -, k, u, hrun, -, hend⟩ := execDecode_cases h
  obtain ⟨hcfg, -, henc, hwriter, hreq, -, hplat⟩ := hrun.frame
  obtain ⟨hcfg', hhist', henc', hwriter', hreader', hreq', hplat'⟩ := finishDecode_frame hend
  obtain ⟨bs, hpush, -⟩ := hrun.moved.pushed
  have hkept := hrun.moved.reader
  have hempty : (histCallStart s.hist).Counted s.cfg.window := ⟨DecodeInv.window_pos s, Nat.zero_le _, fun _ => rfl⟩
  obtain ⟨-, -, hread⟩ := histPushAll_counted bs hempty
  refine ⟨hcfg'.trans hcfg, henc'.trans henc, hwriter'.trans hwriter, hreq'.trans hreq, hplat'.trans hplat, ?_,
    fun a ha => ?_, fun a ha => ?_⟩
  · rw [hreader', hkept.src]; rfl
  · rw [hhist', hpush] at ha ⊢
    exact hread a ha
  · rw [hreader']
    exact hkept.beyond a ha

/-! #### Results -/

/-- STATUS and the reply agree: Ok with 0, a failure with its word (R24, R193). -/
def State.Reports (t : State) : Prop :=
  (t.status = 0 ∧ (t.reply = .okUnit ∨ ∃ bs, t.reply = .okBytes bs)) ∨ ∃ f, t.reply = .err f ∧ t.status = statusOf f

/-- The fields of a failure's word (R24, R191). -/
theorem statusOf_fields (f : Failure) :
    statusErr (statusOf f) = f.errCode ∧ statusCause (statusOf f) = f.causeCode ∧ (statusOf f).extractLsb' 5 3 = 0 := by
  match f with
  | .invalidParameter .wRange | .invalidParameter .lRange | .invalidParameter .lNotLess
  | .invalidParameter .capRange | .malformedStream .dangling | .malformedStream .truncated => decide

theorem finishDecode_reports (h : finishDecode s = .next t) : t.Reports := by
  rcases finishDecode_cases s with ⟨-, -, heq⟩ | ⟨-, -, heq⟩ | ⟨-, heq⟩ <;> rw [heq] at h <;> cases h
  · exact .inl ⟨rfl, .inr ⟨_, rfl⟩⟩
  · exact .inr ⟨_, rfl, rfl⟩

theorem decoderConstruction_reports {cap w l : Int} (h : decoderConstruction cap w l s = .next t) : t.Reports := by
  obtain ⟨-, ⟨c, rfl⟩ | ⟨-, -, -, rfl⟩⟩ := decoderConstruction_cases h
  · exact .inr ⟨_, rfl, rfl⟩
  · exact .inl ⟨rfl, .inl rfl⟩

/-- A command or END that completes reports its result (R24). -/
theorem exec_reports {i : Instr} (hi : i.isToken = false) (h : exec i s = .next t) : t.Reports := by
  cases i with
  | lit v => cases hi
  | ref d n => cases hi
  | endOfStream => exact finishDecode_reports (execEndOfStream_cases h).2
  | encInit w l =>
    obtain ⟨-, ⟨c, rfl⟩ | ⟨-, rfl⟩⟩ := execEncInit_cases h
    · exact .inr ⟨_, rfl, rfl⟩
    · exact .inl ⟨rfl, .inl rfl⟩
  | decInit w l => exact decoderConstruction_reports h
  | decInitCap cap w l => exact decoderConstruction_reports h
  | encode x =>
    obtain ⟨-, -, u, -, hend⟩ := execEncode_cases h
    cases finishEncode_eq_next hend
    exact .inl ⟨rfl, .inr ⟨_, rfl⟩⟩
  | decode y =>
    obtain ⟨-, -, k, u, -, -, hend⟩ := execDecode_cases h
    exact finishDecode_reports hend
  | reservedCmd code => cases h

/-- Settles O43: each command and END reports its result (`exec_reports`), and a failure's word has the failure's
fields. -/
theorem statusReportsTheResult : Obligations.StatusReportsTheResult := by
  intro i s t hi h
  obtain hok | ⟨f, hreply, hstatus⟩ := exec_reports hi h
  · exact .inl hok
  · exact .inr ⟨f, hreply, hstatus, hstatus ▸ statusOf_fields f⟩

/-- Settles O24: ENCODE's loop writes the greedy parse (`encodeLoop_startEncode`), within its frame, and the platform
admits the stream FlushBits makes of it. -/
theorem encodeEmitsTheGreedyParse : Obligations.EncodeEmitsTheGreedyParse := by
  intro x s hready hadmits
  obtain ⟨u, hloop, hcfg, hplat, hipos, hout⟩ := encodeLoop_startEncode hready x
  obtain ⟨-, -, hdec, hreq, -⟩ := encodeLoop_frame hloop
  obtain ⟨-, hbusy, -⟩ := id hready
  have hidle : u.dec.dstate = .idle := by
    rw [hdec]
    exact (busy_eq_false.mp hbusy).1
  rcases finishEncode_cases u with ⟨hexceeds, -⟩ | ⟨-, hend⟩
  · rw [hplat, hout, exceedsOutCap_eq_false.mpr hadmits] at hexceeds
    cases hexceeds
  · exact ⟨_, (exec_encode_eq hready hloop).trans hend, by rw [hout], hout, rfl, hipos,
      busy_eq_false.mpr ⟨hidle, rfl⟩, hcfg, hreq, hplat⟩

/-- The outcome of a DECODE on an idle Decoder, by what its stream means: refused beyond OUT_CAP, or `Ok` of the output,
or the stream's malformation (R161, R162, R199). -/
theorem exec_decode_outcome (h : s.readyToDecode) (y : List Byte) :
    (∃ out, decodeStream s.cfg.wbits s.cfg.lbits y = .ok out ∧
      ((exceedsOutCap s.platform out = true ∧ exec (.decode y) s = .refused .outCapExceeded) ∨
        (exceedsOutCap s.platform out = false ∧
          ∃ t, exec (.decode y) s = .next t ∧ t.reply = .okBytes out ∧ t.status = statusOk))) ∨
    ∃ c, decodeStream s.cfg.wbits s.cfg.lbits y = .error c ∧
      ∃ t, exec (.decode y) s = .next t ∧ t.reply = .err (.malformedStream c) ∧
        t.status = statusOf (.malformedStream c) := by
  obtain ⟨u, hloop, hends, -, hplat⟩ := decodeLoop_startDecode h y
  have hexec := exec_decode_eq h hloop
  cases hmeaning : decodeStream s.cfg.wbits s.cfg.lbits y with
  | ok out =>
    rw [hmeaning] at hends
    obtain ⟨hq, rfl⟩ := hends
    refine .inl ⟨_, rfl, ?_⟩
    rw [hexec, ← hplat]
    rcases finishDecode_cases u with ⟨-, hcap, hend⟩ | ⟨-, hcap, hend⟩ | ⟨hne, -⟩
    · exact .inl ⟨hcap, hend⟩
    · exact .inr ⟨hcap, _, hend, rfl, rfl⟩
    · exact absurd hq hne
  | error c =>
    rw [hmeaning] at hends
    obtain ⟨hq, rfl⟩ := hends
    refine .inr ⟨_, rfl, ?_⟩
    rcases finishDecode_cases u with ⟨hdrained, -, -⟩ | ⟨hdrained, -, -⟩ | ⟨-, hend⟩
    · cases hq.symm.trans hdrained
    · cases hq.symm.trans hdrained
    · exact ⟨_, hexec.trans hend, rfl, rfl⟩

theorem exceedsOutCap_congr {p p' : Platform} (h : p.outCap = p'.outCap) (out : List Byte) :
    exceedsOutCap p out = exceedsOutCap p' out := by
  simp only [exceedsOutCap, h]

/-- Settles O38: the outcome is that of the stream's meaning under `W` and `L` and of OUT_CAP
(`exec_decode_outcome`). -/
theorem decodeDependsOnConfigAlone : Obligations.DecodeDependsOnConfigAlone := by
  intro y s s' h h' hW hL hcap
  have hs := exec_decode_outcome h y
  have hs' := exec_decode_outcome h' y
  rw [← hW, ← hL] at hs'
  rcases hs with ⟨out, hmeaning, hs⟩ | ⟨c, hmeaning, t, ht, hreply, hstatus⟩ <;>
    rw [hmeaning] at hs'
  · obtain ⟨_, ⟨⟩, hs'⟩ | ⟨_, ⟨⟩, -⟩ := hs'
    rw [← exceedsOutCap_congr hcap] at hs'
    rcases hs with ⟨he, hr⟩ | ⟨he, t, ht, hreply, hstatus⟩ <;>
      rcases hs' with ⟨he', hr'⟩ | ⟨he', t', ht', hreply', hstatus'⟩
    · exact .inl ⟨hr, hr'⟩
    · cases he.symm.trans he'
    · cases he.symm.trans he'
    · exact .inr ⟨t, t', ht, ht', hreply.trans hreply'.symm, hstatus.trans hstatus'.symm⟩
  · obtain ⟨_, ⟨⟩, -⟩ | ⟨_, ⟨⟩, t', ht', hreply', hstatus'⟩ := hs'
    exact .inr ⟨t, t', ht, ht', hreply.trans hreply'.symm, hstatus.trans hstatus'.symm⟩

/-! #### Power-on and the system of instances -/

/-- Settles O48: the invariant is decidable, and power-on is one state. -/
theorem resetMeetsTheInvariant : Obligations.ResetMeetsTheInvariant := by
  unfold Obligations.ResetMeetsTheInvariant
  decide

variable {j k : Nat} {ss ss' : List State}

/-- A system's step is that of the state at its place, put back there; at no state's place nothing happens (R20). -/
theorem systemStep_cases (h : systemStep j ss = .next ss') :
    (ss[j]? = none ∧ ss' = ss) ∨ ∃ s t, ss[j]? = some s ∧ step s = .next t ∧ ss' = ss.set j t := by
  unfold systemStep at h
  split at h
  · next hs => exact .inl ⟨hs, by simpa [eq_comm] using h⟩
  · next s hs =>
    split at h
    · next t ht => exact .inr ⟨s, t, hs, ht, by simpa [eq_comm] using h⟩
    · cases h
    · cases h

/-- The state at the place that steps becomes its next one (R20). -/
theorem systemStep_self (h : systemStep j ss = .next ss') (hs : ss[j]? = some s) :
    ∃ t, step s = .next t ∧ ss'[j]? = some t := by
  obtain ⟨hnone, -⟩ | ⟨s', t, hs', ht, rfl⟩ := systemStep_cases h
  · cases hs.symm.trans hnone
  · cases hs.symm.trans hs'
    exact ⟨t, ht, List.getElem?_set_self (List.getElem?_eq_some_iff.mp hs).1⟩

/-- A step leaves the other places alone (R65). -/
theorem systemStep_ne (h : systemStep j ss = .next ss') {i : Nat} (hi : i ≠ j) : ss'[i]? = ss[i]? := by
  obtain ⟨-, rfl⟩ | ⟨s, t, -, -, rfl⟩ := systemStep_cases h
  · rfl
  · exact List.getElem?_set_ne hi.symm

/-- A step depends on the state at its place alone (R65, R202). -/
theorem systemStep_congr {sj : List State} (h : systemStep j ss = .next sj) (heq : ss'[j]? = ss[j]?) :
    ∃ sj', systemStep j ss' = .next sj' ∧ sj'[j]? = sj[j]? := by
  obtain ⟨hnone, rfl⟩ | ⟨s, t, hs, ht, rfl⟩ := systemStep_cases h
  · exact ⟨ss', by simp only [systemStep, heq, hnone], heq⟩
  · have hs' := heq.trans hs
    refine ⟨ss'.set j t, by simp only [systemStep, hs', ht], ?_⟩
    rw [List.getElem?_set_self (List.getElem?_eq_some_iff.mp hs).1,
      List.getElem?_set_self (List.getElem?_eq_some_iff.mp hs').1]

/-- Steps of different instances commute (R202): the two orders agree at `j`, at `k` and elsewhere. -/
theorem systemStep_comm {sj sk : List State} (hjk : j ≠ k) (hj : systemStep j ss = .next sj)
    (hk : systemStep k ss = .next sk) : ∃ u, systemStep k sj = .next u ∧ systemStep j sk = .next u := by
  obtain ⟨u, hu, huk⟩ := systemStep_congr hk (systemStep_ne hj hjk.symm)
  obtain ⟨v, hv, hvj⟩ := systemStep_congr hj (systemStep_ne hk hjk)
  have huv : u = v := by
    refine List.ext_getElem? fun i => ?_
    by_cases hij : i = j
    · rw [hij, systemStep_ne hu hjk, hvj]
    · by_cases hik : i = k
      · rw [hik, huk, systemStep_ne hv hjk.symm]
      · rw [systemStep_ne hu hik, systemStep_ne hj hij, systemStep_ne hv hij, systemStep_ne hk hik]
  exact ⟨u, hu, huv ▸ hv⟩

/-- Settles O52: a step is that of its own state (`systemStep_self`, `systemStep_ne`, `systemStep_congr`), so steps of
different instances commute (`systemStep_comm`). -/
theorem instancesAreIndependent : Obligations.InstancesAreIndependent :=
  ⟨fun _ _ _ _ hs hstep => by simp only [systemStep, hs, hstep], fun _ _ _ _ _ hjk hj hk =>
    ⟨fun _ => systemStep_self hj, fun _ => systemStep_ne hj, fun _ => systemStep_congr hj, systemStep_comm hjk hj hk⟩⟩

end Sys2Proof.Machine
end

section
/-! ### What pushes write and what an ENCODE leaves alone (20_memory R52, R54) -/

namespace Sys2Proof.Machine

/-- Settles O9: HistPush is one write at HEAD, read back there and nowhere else. -/
theorem histPushWritesOneEntry : Obligations.HistPushWritesOneEntry :=
  fun _ b h hw => ⟨Memory.read_write_self h.head b hw, fun _ ha => Memory.read_write_ne _ b ha, rfl, rfl⟩

/-- Settles O8: from a call start the pushes are the output the window holds (`histPushAll_holds`), so HistRead answers
them (`History.holds.histRead_eq`). -/
theorem historyHoldsRecentBytes : Obligations.HistoryHoldsRecentBytes := by
  intro w bs h hw n h'
  have hholds : h'.holds n bs :=
    histPushAll_holds (h := histCallStart h) (out := []) (Nat.two_pow_pos w) bs hw (histCallStart_holds n h)
  obtain ⟨hcount, hhead, -⟩ := id hholds
  refine ⟨hcount, hhead, fun d h1 hd => ?_⟩
  obtain ⟨b, hread, hb⟩ := hholds.histRead_eq h1 hd
  exact ⟨b, hb, hread⟩

/-- Pushes leave every entry alone but the one at HEAD and those after it, modulo the window (R52). -/
theorem read_histPushAll_ne (n : Nat) (bs : List Byte) {h : History} {a : Nat}
    (ha : ∀ k < bs.length, a ≠ (h.head + k) % n) (hhead : h.head < n) :
    Memory.read hbufUnlisted (histPushAll n bs h).hbuf a = Memory.read hbufUnlisted h.hbuf a := by
  induction bs generalizing h with
  | nil => rfl
  | cons b bs ih =>
    have hfirst : a ≠ h.head := by simpa [Nat.mod_eq_of_lt hhead] using ha 0 (by simp)
    have hrest : ∀ k < bs.length, a ≠ ((histPush n b h).head + k) % n := fun k hk => by
      rw [histPush, Nat.mod_add_mod, Nat.add_assoc, Nat.add_comm 1]
      exact ha (k + 1) (by simpa using hk)
    rw [histPushAll_cons, ih hrest (Nat.mod_lt _ (by omega))]
    exact Memory.read_write_ne _ b hfirst

/-- What an ENCODE pushed, its loop pushed (R144). -/
theorem encodeLoop_pushed {s t : State} {fuel : Nat} (h : encodeLoop fuel s = .ok t) :
    t.cfg = s.cfg ∧ ∃ bs, t.hist = histPushAll s.cfg.window bs s.hist := by
  refine encodeLoop_keeps (P := fun u => u.cfg = s.cfg ∧ ∃ bs, u.hist = histPushAll s.cfg.window bs s.hist)
    (fun {u v} hu hstep => ?_) h ⟨rfl, [], rfl⟩
  obtain ⟨hcfg, bs, hhist⟩ := hu
  obtain ⟨b, off, len, -, -, ⟨-, w, -, rfl⟩ | ⟨-, w, -, rfl⟩⟩ := encodeStep_cases hstep
  · exact ⟨hcfg, bs ++ _, by rw [histPushAll_append, ← hhist, ← hcfg]⟩
  · exact ⟨hcfg, bs ++ [b], by rw [histPushAll_append, ← hhist, ← hcfg]; rfl⟩

/-- Settles O28: the loop of an ENCODE has its frame (`encodeLoop_frame`), and its pushes from the call start leave the
entries at or beyond HCOUNT alone (`encodeLoop_pushed`, `histPushAll_counted`). -/
theorem encodeFrame : Obligations.EncodeFrame := by
  intro x s t h
  obtain ⟨-, -, u, hloop, hend⟩ := execEncode_cases h
  obtain ⟨hcfg, hreader, hdec, hreq, hplat⟩ := encodeLoop_frame hloop
  obtain ⟨-, bs, hpush⟩ := encodeLoop_pushed hloop
  have hempty : (histCallStart s.hist).Counted s.cfg.window := ⟨DecodeInv.window_pos s, Nat.zero_le _, fun _ => rfl⟩
  obtain ⟨-, -, hread⟩ := histPushAll_counted bs hempty
  cases finishEncode_eq_next hend
  refine ⟨hcfg, hreader, hdec, hreq, hplat, fun a ha => ?_⟩
  simp only [hpush] at ha ⊢
  exact hread a ha

end Sys2Proof.Machine
end

section
/-! ### A token as a whole instruction, and as the steps of the state machine (43_decoder R163 to R167) -/

namespace Sys2Proof.Machine

variable {cap : Nat} {r : Reader} {s t : State}

/-! #### The tag -/

/-- Where eight bits are left the tag is read, and the answer is whether `need` bits are left after it (R131). -/
theorem takeTag_of_getBits {need v : Nat} {r' : Reader} (h7 : 7 < remainingBits r)
    (hget : getBits cap 1 r = .ok (v, r')) : takeTag cap need r = .ok (decide (need ≤ remainingBits r'), r') := by
  simp only [takeTag, if_neg (Nat.not_le.mpr h7), hget]

/-- A token's tag is read where eight bits are left; a positive answer says how many are left after it (R131). -/
theorem takeTag_total (hcap : 1 ≤ cap) (h : r.coherent cap) (need : Nat) :
    ∃ whole r', takeTag cap need r = .ok (whole, r') ∧ r'.coherent cap ∧ (whole = true → need ≤ r'.unread.length) := by
  have hrem := h.remainingBits_eq.1
  by_cases h7 : remainingBits r ≤ 7
  · exact ⟨false, r, by simp [takeTag, h7], h, nofun⟩
  · obtain ⟨r', hget, hm⟩ := getBits_spec hcap (n := 1) h (by omega)
    refine ⟨_, r', takeTag_of_getBits (by omega) hget, hm.coherent, fun hwhole => ?_⟩
    rw [← hm.coherent.remainingBits_eq.1]
    exact of_decide_eq_true hwhole

/-- AtBoundary and a token executed whole read the same tag, and both tell whether the rest of the token is there
(R131, R163). -/
theorem atBoundary_takeTag (hcap : 1 ≤ cap) (h : r.coherent cap) {tag : Bool} {rest : List Bool}
    (hbits : r.unread = tag :: rest) (h7 : 7 ≤ rest.length) (w l need : Nat) :
    ∃ r', Reader.Moved cap 1 r r' ∧ r'.unread = rest ∧ Reader.Kept cap r r' ∧
      takeTag cap need r = .ok (decide (need ≤ rest.length), r') ∧
      atBoundary cap w l r = .ok (if rest.length < (if tag then w + l else 8) then .truncated else .token tag, r') := by
  obtain ⟨r', hm, hrest, hat⟩ := atBoundary_tag hcap w l h hbits h7
  have hrem : remainingBits r = rest.length + 1 := by rw [h.remainingBits_eq.1, hbits, List.length_cons]
  have hrem' : remainingBits r' = rest.length := by rw [hm.coherent.remainingBits_eq.1, hrest]
  rcases atBoundary_cases hat with ⟨h0, -⟩ | ⟨-, hle, -⟩ | ⟨-, v, hget, -⟩
  · omega
  · omega
  · exact ⟨r', hm, hrest, atBoundary_kept hat, hrem' ▸ takeTag_of_getBits (by omega) hget, hat⟩

/-! #### A DECODE in progress at a token boundary -/

/-- During a DECODE the invariant gives what its steps rely on. -/
theorem State.Inv.decodeInv (h : s.Inv) (hq : s.dec.dstate ≠ .idle) : DecodeInv s := by
  obtain ⟨⟨-, -, hdecoder⟩, -, ⟨hmem, -⟩, -, -, hdec, -⟩ := h
  obtain ⟨hrole, -, hcoh, hwindow, -⟩ := hdec hq
  obtain ⟨hlegal, hcap, -⟩ := hdecoder hrole
  exact ⟨hlegal, hcap, hcoh, hmem, hwindow⟩

theorem State.Inv.atToken (h : s.Inv) (hat : s.atTokenBoundary = true) :
    AtToken s.reader.unread s.dec.out s := by
  have hq := (atTokenBoundary_iff.mp hat).2
  exact ⟨h.decodeInv (by simp [hq]), hq, rfl, rfl⟩

variable {tag : Bool} {bits rest : List Bool} {out : List Byte}

/-- A LIT with its bits there: executed whole it reads nine bits and appends its byte, whatever they hold; where they
are a LIT, the state machine reads the same in two steps (R163, R164). -/
theorem lit_whole (h : AtToken (tag :: rest) out s) (hat : s.atTokenBoundary = true) (h8 : 8 ≤ rest.length)
    (v : Byte) :
    ∃ r, Reader.Moved s.cfg.inbufCap 9 s.reader r ∧ Reader.Kept s.cfg.inbufCap s.reader r ∧
      exec (.lit v) s = .next (litEffect v { s with reader := r }) ∧
      (tag = false →
        DecodeRun 2 s (litEffect (BitVec.ofNat 8 (bitsToNat (rest.take 8))) { s with reader := r })) := by
  obtain ⟨r1, hm1, rfl, hk1, htag, hat1⟩ :=
    atBoundary_takeTag h.cap h.reader h.unread (by omega) s.cfg.wbits s.cfg.lbits 8
  obtain ⟨r2, hget, hm2⟩ := getBits_spec h.cap hm1.coherent h8
  refine ⟨r2, hm1.trans hm2, hk1.trans (getBits_kept hget), ?_, ?_⟩
  · simp only [exec, execLit, hat, if_true, htag, decide_eq_true h8, hget]
  · rintro rfl
    rw [if_neg (by simpa using h8)] at hat1
    have hstep1 : decodeStep s = .ok (setDState .readLit { s with reader := r1 }) := by
      simp only [decodeStep, h.boundary, awaitTagStep, hat1]
    exact .step hstep1 (.single (by simp [decodeStep, readLitStep, hget, litEffect, setDState, emit]))

/-- A REF with its bits there: executed whole it reads `1 + W + L` bits, whatever they hold; where they are a REF, the
state machine reads the same in two steps (R163, R165). -/
theorem ref_whole (h : AtToken (tag :: rest) out s) (hat : s.atTokenBoundary = true)
    (hle : s.cfg.wbits + s.cfg.lbits ≤ rest.length) (d n : Nat) :
    ∃ r, Reader.Moved s.cfg.inbufCap (1 + s.cfg.wbits + s.cfg.lbits) s.reader r ∧
      Reader.Kept s.cfg.inbufCap s.reader r ∧
      exec (.ref d n) s = runRef n (refEffect d n { s with reader := r }) ∧
      (tag = true →
        DecodeRun 2 s (refEffect (refOffset (bitsToNat (rest.take s.cfg.wbits)))
          (refLength (bitsToNat ((rest.drop s.cfg.wbits).take s.cfg.lbits))) { s with reader := r })) := by
  have hWL := seven_le_of_legalConfig h.legal
  obtain ⟨r1, hm1, rfl, hk1, htag, hat1⟩ :=
    atBoundary_takeTag h.cap h.reader h.unread (by omega) s.cfg.wbits s.cfg.lbits (s.cfg.wbits + s.cfg.lbits)
  obtain ⟨r2, hgetO, hm2⟩ := getBits_spec h.cap (n := s.cfg.wbits) hm1.coherent (by omega)
  obtain ⟨r3, hgetF, hm3⟩ := getBits_spec h.cap (n := s.cfg.lbits) hm2.coherent (by rw [hm2.unread]; simp; omega)
  refine ⟨r3, (hm1.trans hm2).trans hm3, hk1.trans ((getBits_kept hgetO).trans (getBits_kept hgetF)), ?_, ?_⟩
  · simp only [exec, execRef, hat, if_true, htag, decide_eq_true hle, hgetO, hgetF]
  · rintro rfl
    rw [if_neg (by simpa using hle)] at hat1
    have hstep1 : decodeStep s = .ok (setDState .readRef { s with reader := r1 }) := by
      simp only [decodeStep, h.boundary, awaitTagStep, hat1]
    rw [hm2.unread] at hgetF
    exact .step hstep1 (.single (by
      simp only [decodeStep, setDState, readRefStep, hgetO, hgetF]
      simp [refEffect, raise]))

/-! #### The copy of a REF -/

/-- The copy loop of a REF of `n` bytes is the next `n + 1` steps of the state machine (R167). -/
theorem copyLoop_of_run (hq : s.dec.dstate = .copy) {n : Nat} (hn : s.dec.refRem = n)
    (hrun : DecodeRun (n + 1) s t) : copyLoop (n + 1) s = .ok t := by
  induction n generalizing s with
  | zero =>
    cases hrun with
    | step hstep hrest =>
      cases hrest
      simp only [decodeStep, hq] at hstep
      obtain ⟨-, rfl⟩ | ⟨hne, -⟩ := copyStep_cases hstep
      · simp [copyLoop, hq, hstep]
      · exact absurd hn hne
  | succ n ih =>
    cases hrun with
    | step hstep hrest =>
      simp only [decodeStep, hq] at hstep
      rw [copyLoop, if_pos hq, hstep]
      obtain ⟨hzero, -⟩ | ⟨-, b, -, rfl⟩ := copyStep_cases hstep
      · omega
      · exact ih hq (by simp only [hn]; rfl) hrest

/-- A valid REF executed whole copies its bytes and stands at the next boundary (R165, R167). -/
theorem runRef_valid (h : DecodeInv s) {d n : Nat} (hd : 1 ≤ d) (hvalid : d ≤ s.hist.hcount) :
    ∃ t, runRef n (refEffect d n s) = .next t ∧ DecodeRun (n + 1) (refEffect d n s) t ∧
      AtToken s.reader.unread (copyBytes d n s.dec.out) t := by
  obtain ⟨hlt, -⟩ | ⟨-, heff⟩ := refEffect_cases d n s
  · omega
  · rw [heff]
    obtain ⟨t, hrun, ht⟩ := decodeRun_copy (n := n)
      (s := { s with dec := { s.dec with refOff := d, refRem := n, dstate := .copy } })
      ⟨h.legal, h.cap, h.reader, h.hbuf, h.window⟩ rfl hd hvalid rfl
    refine ⟨t, ?_, hrun, ht⟩
    simpa [runRef] using toOutcome_eq_next.mpr (copyLoop_of_run (by rfl) (by rfl) hrun)

/-- A dangling REF executed whole ends the DECODE (R168). -/
theorem runRef_dangling {d : Nat} (n : Nat) (hdangling : s.hist.hcount < d) :
    refEffect d n s = raise (.malformedStream .dangling) s ∧
      runRef n (refEffect d n s) = finishDecode (raise (.malformedStream .dangling) s) := by
  obtain ⟨-, heff⟩ | ⟨hle, -⟩ := refEffect_cases d n s
  · exact ⟨heff, by simp [heff, runRef]⟩
  · omega

end Sys2Proof.Machine
end

section
/-! ### No step reaches a model fault (20_memory R53, R58, 41_bit_io R121, R127, 42_encoder R144, 43_decoder R172) -/

namespace Sys2Proof.Machine

variable {s t : State}

theorem safe_next (t : State) : Safe (.next t) := trivial

theorem safe_toOutcome {e : Except Fault State} (h : ∃ t, e = .ok t) : Safe (toOutcome e) := by
  obtain ⟨t, rfl⟩ := h
  trivial

theorem finishEncode_safe (s : State) : Safe (finishEncode s) := by
  obtain ⟨-, heq⟩ | ⟨-, heq⟩ := finishEncode_cases s <;> rw [heq] <;> trivial

theorem finishDecode_safe (s : State) : Safe (finishDecode s) := by
  obtain ⟨-, -, heq⟩ | ⟨-, -, heq⟩ | ⟨-, heq⟩ := finishDecode_cases s <;> rw [heq] <;> trivial

/-! #### ENCODE -/

/-- During an ENCODE the invariant gives what an EncodeStep relies on. -/
theorem State.Inv.encodeInv (h : s.Inv) (hrun : s.enc.running = true) :
    EncodeInv s.enc.input s.enc.ipos s.writer.bits s := by
  obtain ⟨⟨-, hencoder, -⟩, -, ⟨hmem, -⟩, hwriter, -, -, henc⟩ := h
  obtain ⟨hrole, hpos, hwindow, -⟩ := henc hrun
  obtain ⟨-, -, hminm, -⟩ := hencoder hrole
  exact ⟨hminm, rfl, rfl, hpos, hmem, hwindow, hwriter, rfl⟩

/-- An EncodeStep with input left is taken: its REF or its LIT (R144). -/
theorem EncodeInv.encodeStep_ok {x : List Byte} {p : Nat} {bits : List Bool} (h : EncodeInv x p bits s)
    (hp : p < x.length) : ∃ t, encodeStep s = .ok t := by
  rcases Nat.lt_or_ge (longestMatch s.cfg.wbits s.cfg.lbits x p).2 s.cfg.minm with hm | hm
  · obtain ⟨t, hstep, -⟩ := encodeStep_lit h hp hm
    exact ⟨t, hstep⟩
  · obtain ⟨t, hstep, -⟩ := encodeStep_ref h hp hm
    exact ⟨t, hstep⟩

theorem continueEncode_safe (h : s.Inv) (hrun : s.enc.running = true) : Safe (continueEncode s) := by
  unfold continueEncode
  split
  · next hp => exact safe_toOutcome ((h.encodeInv hrun).encodeStep_ok hp)
  · exact finishEncode_safe s

theorem execEncode_safe (h : s.Inv) (x : List Byte) : Safe (execEncode x s) := by
  unfold execEncode
  split
  · trivial
  · next hbusy =>
    split
    · trivial
    · next hrole =>
      obtain ⟨t, hloop, -⟩ := encodeLoop_startEncode ⟨h, by simpa using hbusy, by simpa using hrole⟩ x
      rw [hloop]
      exact finishEncode_safe t

/-! #### DECODE -/

/-- Inside a token the state machine takes its step: the bits it reads are there, the offset it copies from is valid
(R164, R165, R167). -/
theorem decodeStep_ok (h : s.Inv)
    (hq : s.dec.dstate = .readLit ∨ s.dec.dstate = .readRef ∨ s.dec.dstate = .copy) : ∃ t, decodeStep s = .ok t := by
  have hne : s.dec.dstate ≠ .idle := by rcases hq with hq | hq | hq <;> simp [hq]
  have hinv := h.decodeInv hne
  have hrem := hinv.reader.remainingBits_eq.1
  obtain ⟨-, -, -, -, -, hdec, -⟩ := h
  obtain ⟨-, -, -, -, hlit, href, hcopy⟩ := hdec hne
  rcases hq with hq | hq | hq
  · obtain ⟨r, hget, -⟩ := getBits_spec hinv.cap hinv.reader (hrem ▸ hlit hq)
    simp only [decodeStep, hq, readLitStep, hget]
    exact ⟨_, rfl⟩
  · have hbits := href hq
    obtain ⟨r, hgetO, hm⟩ := getBits_spec hinv.cap (n := s.cfg.wbits) hinv.reader (by omega)
    obtain ⟨r', hgetF, -⟩ := getBits_spec hinv.cap (n := s.cfg.lbits) hm.coherent (by rw [hm.unread]; simp; omega)
    simp only [decodeStep, hq, readRefStep, hgetO, hgetF]
    exact ⟨_, rfl⟩
  · obtain ⟨hoff, hvalid, -⟩ := hcopy hq
    obtain ⟨b, hread, -⟩ := hinv.window.histRead_eq hoff hvalid
    simp only [decodeStep, hq, copyStep, hread]
    split <;> exact ⟨_, rfl⟩

theorem execDecode_safe (h : s.Inv) (y : List Byte) : Safe (execDecode y s) := by
  unfold execDecode
  split
  · trivial
  · next hbusy =>
    split
    · trivial
    · next hrole =>
      obtain ⟨t, hloop, -⟩ := decodeLoop_startDecode ⟨h, by simpa using hbusy, by simpa using hrole⟩ y
      rw [hloop]
      exact finishDecode_safe t

/-! #### The tokens -/

/-- A truncated boundary reads at most its tag (R131). -/
theorem truncatedFetch_safe (h : s.Inv) (hq : s.dec.dstate = .awaitTag) : Safe (truncatedFetch s) := by
  have hinv := h.decodeInv (by simp [hq])
  obtain ⟨whole, r, htag, -⟩ := takeTag_total hinv.cap hinv.reader 0
  rw [truncatedFetch, htag]
  exact finishDecode_safe _

theorem execLit_safe (h : s.Inv) (v : Byte) : Safe (execLit v s) := by
  unfold execLit
  split
  · next hat =>
    have hinv := (h.atToken hat).toDecodeInv
    obtain ⟨whole, r, htag, hcoh, hneed⟩ := takeTag_total hinv.cap hinv.reader 8
    rw [htag]
    cases whole with
    | false => exact finishDecode_safe _
    | true =>
      obtain ⟨r', hget, -⟩ := getBits_spec hinv.cap hcoh (hneed rfl)
      simp only [hget]
      trivial
  · trivial

/-- A REF of an offset from 1 up is truncated, dangles, or copies (R163, R165, R168). -/
theorem execRef_safe (h : s.Inv) {d : Nat} (hd : 1 ≤ d) (n : Nat) : Safe (execRef d n s) := by
  unfold execRef
  split
  · next hat =>
    have hinv := (h.atToken hat).toDecodeInv
    obtain ⟨whole, r, htag, hcoh, hneed⟩ := takeTag_total hinv.cap hinv.reader (s.cfg.wbits + s.cfg.lbits)
    rw [htag]
    cases whole with
    | false => exact finishDecode_safe _
    | true =>
      have hneed := hneed rfl
      obtain ⟨r1, hgetO, hm⟩ := getBits_spec hinv.cap (n := s.cfg.wbits) hcoh (by omega)
      obtain ⟨r2, hgetF, hm'⟩ :=
        getBits_spec hinv.cap (n := s.cfg.lbits) hm.coherent (by rw [hm.unread]; simp; omega)
      simp only [hgetO, hgetF]
      rcases Nat.lt_or_ge s.hist.hcount d with hlt | hle
      · rw [(runRef_dangling (s := { s with reader := r2 }) n hlt).2]
        exact finishDecode_safe _
      · obtain ⟨t, hnext, -⟩ := runRef_valid (s := { s with reader := r2 }) (n := n)
          ⟨hinv.legal, hinv.cap, hm'.coherent, hinv.hbuf, hinv.window⟩ hd hle
        exact hnext ▸ safe_next t
  · trivial

/-! #### The whole machine -/

theorem decoderConstruction_safe (cap w l : Int) (s : State) : Safe (decoderConstruction cap w l s) := by
  unfold decoderConstruction
  split
  · trivial
  · split <;> trivial

theorem execEncInit_safe (w l : Int) (s : State) : Safe (execEncInit w l s) := by
  unfold execEncInit
  split
  · trivial
  · split <;> trivial

/-- No well-formed instruction reaches a model fault. -/
theorem exec_safe (h : s.Inv) {i : Instr} (hwf : i.wf s.cfg.wbits s.cfg.lbits = true) :
    Safe (exec i s) := by
  cases i with
  | lit v => exact execLit_safe h v
  | ref d n =>
    simp only [Instr.wf, Bool.and_eq_true, decide_eq_true_eq] at hwf
    obtain ⟨⟨⟨hd, -⟩, -⟩, -⟩ := hwf
    exact execRef_safe h hd n
  | endOfStream =>
    show Safe (execEndOfStream s)
    unfold execEndOfStream
    split
    · exact finishDecode_safe _
    · trivial
  | encInit w l => exact execEncInit_safe w l s
  | decInit w l => exact decoderConstruction_safe _ w l s
  | decInitCap cap w l => exact decoderConstruction_safe cap w l s
  | encode x => exact execEncode_safe h x
  | decode y => exact execDecode_safe h y
  | reservedCmd code => trivial

/-- With nothing in progress a step runs the next request, refuses it, or waits (R204, R223). -/
theorem step_idle_safe (h : s.Inv) (hbusy : s.busy = false) : Safe (step s) := by
  match hreq : s.requests with
  | [] => exact step_waiting hbusy hreq ▸ safe_next s
  | r :: rest =>
    match hdecode : decodeRequest r with
    | .ok i =>
      rw [step_request hbusy hreq hdecode]
      exact exec_safe (s := { s with requests := rest }) h (decodeRequest_wf hdecode _ _)
    | .error e =>
      rw [step_badRequest hbusy hreq hdecode]
      trivial

/-- Settles O51: a step runs a well-formed instruction (`exec_safe`) or the next action of the operation in
progress, and each finds its preconditions in the invariant. -/
theorem stepNeverFaults : Obligations.StepNeverFaults := by
  intro s h
  match hq : s.dec.dstate with
  | .awaitTag =>
    match htok : decodeToken s.cfg.wbits s.cfg.lbits (pendingBits s.reader) with
    | .token i rest => exact step_token hq htok ▸ exec_safe h (decodeToken_wf htok)
    | .truncated => exact step_truncated hq htok ▸ truncatedFetch_safe h hq
  | .readLit => exact step_decodeStep (.inl hq) ▸ safe_toOutcome (decodeStep_ok h (.inl hq))
  | .readRef => exact step_decodeStep (.inr (.inl hq)) ▸ safe_toOutcome (decodeStep_ok h (.inr (.inl hq)))
  | .copy => exact step_decodeStep (.inr (.inr hq)) ▸ safe_toOutcome (decodeStep_ok h (.inr (.inr hq)))
  | .drained => exact step_finishDecode (.inl hq) ▸ finishDecode_safe s
  | .failed => exact step_finishDecode (.inr hq) ▸ finishDecode_safe s
  | .idle =>
    cases hrun : s.enc.running with
    | true => exact step_continueEncode hq hrun ▸ continueEncode_safe h hrun
    | false => exact step_idle_safe h (busy_eq_false.mpr ⟨hq, hrun⟩)

end Sys2Proof.Machine
end

section
/-! ### What a LIT and a REF write (43_decoder R164 to R167) -/

namespace Sys2Proof.Machine

variable {cap : Nat} {r r' : Reader} {s : State}

/-- Settles O30: a complete LIT reads nine bits (`lit_whole`), and HistPush writes at HEAD alone. -/
theorem litAppendsItsByte : Obligations.LitAppendsItsByte := by
  intro v s h hat h9
  have hatToken := h.atToken hat
  rw [hatToken.reader.remainingBits_eq.1] at h9
  obtain ⟨tag, rest, hbits⟩ := List.exists_cons_of_length_pos (show 0 < s.reader.unread.length by omega)
  rw [hbits] at hatToken h9
  rw [List.length_cons] at h9
  obtain ⟨r, hm, hk, hexec, -⟩ := lit_whole hatToken hat (by omega) v
  have hdec : { s.dec with out := s.dec.out ++ [v], dstate := .awaitTag } = { s.dec with out := s.dec.out ++ [v] } := by
    rw [← hatToken.boundary]
  exact ⟨_, hexec, hdec, rfl, rfl, Memory.read_write_self _ v hatToken.hbuf, fun _ ha => Memory.read_write_ne _ v ha,
    hm.cursor, hm.src, hk.beyond, rfl, rfl, rfl, rfl, rfl, rfl, rfl⟩

/-! #### The bytes of a copy -/

@[simp] theorem length_copyBytes (d n : Nat) (out : List Byte) : (copyBytes d n out).length = out.length + n := by
  induction n generalizing out with
  | zero => rfl
  | succ n ih => rw [copyBytes, ih, List.length_append, List.length_singleton]; omega

/-- A copy appends (R167). -/
theorem getElem?_copyBytes_of_lt (d n : Nat) {out : List Byte} {i : Nat} (hi : i < out.length) :
    (copyBytes d n out)[i]? = out[i]? := by
  induction n generalizing out with
  | zero => rfl
  | succ n ih => rw [copyBytes, ih (by simp; omega), List.getElem?_append_left hi]

theorem take_copyBytes (d n : Nat) (out : List Byte) : (copyBytes d n out).take out.length = out := by
  refine List.ext_getElem? fun i => ?_
  rcases Nat.lt_or_ge i out.length with hi | hi
  · rw [List.getElem?_take_of_lt hi, getElem?_copyBytes_of_lt d n hi]
  · rw [List.getElem?_take_eq_none hi, List.getElem?_eq_none hi]

/-- Each byte copied equals the byte `d` before it, copied or not (R167). -/
theorem getElem?_copyBytes {d n : Nat} {out : List Byte} (hd : 1 ≤ d) (hd' : d ≤ out.length) {k : Nat} (hk : k < n) :
    (copyBytes d n out)[out.length + k]? = (copyBytes d n out)[out.length - d + k]? := by
  induction n generalizing out k with
  | zero => omega
  | succ n ih =>
    set b := out.getD (out.length - d) 0 with hb
    have hlen : (out ++ [b]).length = out.length + 1 := by simp
    rw [copyBytes, ← hb]
    cases k with
    | zero =>
      have hsource : out[out.length - d]? = some b := by
        rw [hb, List.getD_eq_getElem?_getD, List.getElem?_eq_getElem (by omega), Option.getD_some]
      rw [Nat.add_zero, Nat.add_zero, getElem?_copyBytes_of_lt d n (by omega),
        getElem?_copyBytes_of_lt d n (by omega), List.getElem?_concat_length,
        List.getElem?_append_left (by omega), hsource]
    | succ k =>
      have hnext := ih (out := out ++ [b]) (k := k) (by omega) (by omega)
      rwa [hlen, show out.length + 1 + k = out.length + (k + 1) by omega,
        show out.length + 1 - d + k = out.length - d + (k + 1) by omega] at hnext

/-- The unread bits of a stream tell where the cursor of a coherent reader is (R125). -/
theorem Reader.Kept.readCursor_eq (h : Reader.Kept cap r r') (hcoh : r.coherent cap) (hunread : r'.unread = r.unread) :
    readCursor r' = readCursor r := by
  have hle := hcoh.remainingBits_eq.2
  have hle' := (h.coherent hcoh).remainingBits_eq.2
  have hlen := congrArg List.length hunread
  simp only [Reader.unread, List.length_drop, length_streamBits, h.src] at hlen hle'
  omega

/-- Settles O31: a complete REF reads its bits (`ref_whole`), and its copy is a run of the state machine
(`runRef_valid`) that appends `copyBytes` to the output and pushes what it appends. -/
theorem refCopiesByteSerially : Obligations.RefCopiesByteSerially := by
  intro d n s h hat hrem hd hvalid hn hn' p
  have hatToken := h.atToken hat
  rw [hatToken.reader.remainingBits_eq.1] at hrem
  obtain ⟨tag, rest, hbits⟩ := List.exists_cons_of_length_pos (show 0 < s.reader.unread.length by omega)
  rw [hbits] at hatToken hrem
  rw [List.length_cons] at hrem
  obtain ⟨r, hm, hk, hexec, -⟩ := ref_whole hatToken hat (by omega) d n
  have hinv : DecodeInv { s with reader := r } :=
    ⟨hatToken.legal, hatToken.cap, hm.coherent, hatToken.hbuf, hatToken.window⟩
  obtain ⟨t, hnext, hrun, ht⟩ := runRef_valid hinv (n := n) hd hvalid
  obtain ⟨hlt, -⟩ | ⟨-, heff⟩ := refEffect_cases d n { s with reader := r }
  · exact absurd hvalid (Nat.not_le.mpr hlt)
  rw [heff] at hrun
  obtain ⟨hcfg, hstatus, henc, hwriter, hreq, hreply, hplat⟩ := hrun.frame
  have hkept : Reader.Kept s.cfg.inbufCap r t.reader := hrun.moved.reader
  obtain ⟨bs, hpush, hout⟩ := hrun.moved.pushed
  have hlen : bs.length = n := by
    have := congrArg List.length (ht.out.symm.trans hout)
    simpa using this.symm
  have hwindow := ht.window
  rw [hcfg] at hwindow
  obtain ⟨-, -, ⟨-, -, hhead, -⟩, -⟩ := h
  have hdp : d ≤ p := (hatToken.window.le_hcount_iff.mp hvalid).1
  refine ⟨t, hexec.trans hnext, ?_, ?_, ?_, ht.boundary, hwindow, fun a ha => ?_, ?_, hkept.src.trans hm.src,
    fun a ha => (hkept.beyond a ha).trans (hk.beyond a ha), hcfg, hstatus, henc, hwriter, hreq, hreply, hplat⟩
  · rw [ht.out, length_copyBytes]
  · rw [ht.out]; exact take_copyBytes d n s.dec.out
  · rw [ht.out]; exact fun k hk => getElem?_copyBytes hd hdp hk
  · rw [hpush]
    exact read_histPushAll_ne _ bs (hlen ▸ ha) hhead
  · rw [hkept.readCursor_eq hm.coherent ht.unread, hm.cursor]

end Sys2Proof.Machine
end

section
/-! ### What the fetch sees is what the reader has not read (41_bit_io R125) -/

namespace Sys2Proof

/-- The stream bits from a byte on are those of the bytes from it on (R70). -/
theorem drop_streamBits {bs : List Byte} {k : Nat} (hk : k ≤ bs.length) :
    (streamBits bs).drop (8 * k) = streamBits (bs.drop k) := by
  conv_lhs => rw [← List.take_append_drop k bs, streamBits_append]
  exact List.drop_left' (by rw [length_streamBits, List.length_take_of_le hk])

end Sys2Proof

namespace Sys2Proof.Machine

variable {cap : Nat} {r : Reader}

theorem filterMap_range_getElem? (bs : List Byte) (n : Nat) :
    (List.range n).filterMap (fun i => bs[i]?) = bs.take n := by
  induction n with
  | zero => simp
  | succ n ih =>
    rw [List.range_succ, List.filterMap_append, ih, List.take_add_one]
    cases h : bs[n]? <;> simp [h]

/-- The staged bytes of a coherent reader not yet consumed are those of SRC before SRC_POS (R29, R125). -/
theorem Reader.coherent.stagedBytes_eq (h : r.coherent cap) :
    stagedBytes r = (r.src.drop (r.srcPos - r.fill + r.rd)).take (r.fill - r.rd) := by
  obtain ⟨-, hrd, -, -, -, -, hstage⟩ := h
  rw [stagedBytes, ← filterMap_range_getElem?]
  refine List.filterMap_congr fun i hi => ?_
  have hi := List.mem_range.mp hi
  rw [hstage _ (List.mem_range.mpr (by omega)), List.getElem?_drop, Nat.add_assoc]

/-- What the fetch decodes at a token boundary is what the reader has not read (R125). -/
theorem Reader.coherent.pendingBits_eq (h : r.coherent cap) : pendingBits r = r.unread := by
  have hstaged := h.stagedBytes_eq
  obtain ⟨hoff, hrd, -, hfill, hpos, hlt, -⟩ := h
  have hcut : r.src.drop r.srcPos = (r.src.drop (r.srcPos - r.fill + r.rd)).drop (r.fill - r.rd) := by
    rw [List.drop_drop]
    congr 1
    omega
  rw [pendingBits, hstaged, hcut, ← List.drop_append_of_le_length (by simp; omega), ← streamBits_append,
    List.take_append_drop, Reader.unread, readCursor, ← drop_streamBits (by omega), List.drop_drop]

end Sys2Proof.Machine
end

section
/-! ### A whole operation and its steps one by one (20_memory R63, R64) -/

namespace Sys2Proof.Machine

variable {s t u : State}

/-! #### Steps of the machine -/

theorem run_core_succ {n : Nat} (h : step s = .next t) :
    Host.Core.run core (n + 1) s = Host.Core.run core n t := by
  have hstep : core.step s = .next t := h
  simp only [Host.Core.run, hstep]

theorem run_core_one (s : State) : Host.Core.run core 1 s = step s := by
  have hstep : core.step s = step s := rfl
  simp only [Host.Core.run, hstep]
  cases step s <;> rfl

/-! #### DECODE -/

/-- The state machine is deterministic: two runs to an ended state end in the same one (R161). -/
theorem DecodeRun.eq_of_ended {j k : Nat} (h : DecodeRun j s t) (ht : t.decodeEnded = true) (h' : DecodeRun k s u)
    (hu : u.decodeEnded = true) : t = u := by
  have hloop := h.decodeLoop_eq k
  rw [Nat.add_comm, h'.decodeLoop_eq j, decodeLoop_of_ended ht, decodeLoop_of_ended hu] at hloop
  exact (Except.ok.inj hloop).symm

variable {tag : Bool} {bits rest : List Bool} {out : List Byte}

/-- After a LIT's nine bits and its byte the DECODE stands at the next boundary (R164). -/
theorem AtToken.litEffect (h : AtToken bits out s) {r : Reader} (hm : Reader.Moved s.cfg.inbufCap 9 s.reader r)
    (v : Byte) : AtToken (bits.drop 9) (out ++ [v]) (litEffect v { s with reader := r }) := by
  have hemit := h.toDecodeInv.emit v
  exact ⟨⟨h.legal, h.cap, hm.coherent, hemit.hbuf, hemit.window⟩, rfl, h.unread ▸ hm.unread, by simp [h.out]⟩

/-- A step at a truncated boundary is the failing step of the state machine and Finish (R131, R163). -/
theorem step_truncated_run (h : AtToken bits out s)
    (htok : decodeToken s.cfg.wbits s.cfg.lbits bits = .truncated) :
    ∃ u, DecodeRun 1 s u ∧ u.decodeEnded = true ∧ step s = finishDecode u := by
  have hfetch : step s = truncatedFetch s :=
    step_truncated h.boundary (by rw [h.reader.pendingBits_eq, h.unread, htok])
  rcases decodeToken_cases s.cfg.wbits s.cfg.lbits bits with
    ⟨-, -, hne⟩ | ⟨h7, hz, -⟩ | ⟨tag, rest, rfl, h7, ⟨hlt, -⟩ | ⟨-, -, hne⟩ | ⟨-, -, hne⟩⟩
  · cases htok.symm.trans hne
  · refine ⟨_, .single (decodeStep_tail h h7 hz), rfl, hfetch.trans ?_⟩
    have hrem : remainingBits s.reader ≤ 7 := by rwa [h.reader.remainingBits_eq.1, h.unread]
    simp only [truncatedFetch, takeTag, if_pos hrem, truncatedToken]
  · obtain ⟨r, -, -, -, htag, hat⟩ := atBoundary_takeTag h.cap h.reader h.unread h7 s.cfg.wbits s.cfg.lbits 0
    rw [if_pos hlt] at hat
    refine ⟨raise (.malformedStream .truncated) { s with reader := r }, .single ?_, rfl, hfetch.trans ?_⟩
    · simp only [decodeStep, h.boundary, awaitTagStep, hat]
    · simp only [truncatedFetch, htag, truncatedToken]
  · cases htok.symm.trans hne
  · cases htok.symm.trans hne

/-- A step at a token boundary is a run of the state machine: to its end, and Finish, or to the next boundary (R163). -/
theorem step_token_run (h : AtToken bits out s) (hrole : s.cfg.role = .decoder) :
    (∃ k u, DecodeRun k s u ∧ u.decodeEnded = true ∧ step s = finishDecode u) ∨
      ∃ k u rest out', DecodeRun k s u ∧ step s = .next u ∧ AtToken rest out' u ∧ rest.length < bits.length := by
  have hat := atTokenBoundary_iff.mpr ⟨hrole, h.boundary⟩
  have hpending : pendingBits s.reader = bits := h.reader.pendingBits_eq.trans h.unread
  rcases decodeToken_cases s.cfg.wbits s.cfg.lbits bits with
    ⟨h7, hz, htok⟩ | ⟨-, -, htok⟩ | ⟨tag, rest, rfl, -, ⟨-, htok⟩ | ⟨rfl, h8, htok⟩ | ⟨rfl, hle, htok⟩⟩
  · refine .inl ⟨1, _, .single (decodeStep_end h h7 hz), rfl, ?_⟩
    rw [step_token h.boundary (hpending ▸ htok)]
    simp only [exec, execEndOfStream, hat, if_true]
  · exact .inl ⟨1, step_truncated_run h htok⟩
  · exact .inl ⟨1, step_truncated_run h htok⟩
  · obtain ⟨r, hm, -, hexec, hrun⟩ := lit_whole h hat h8 (BitVec.ofNat 8 (bitsToNat (rest.take 8)))
    exact .inr ⟨2, _, _, _, hrun rfl, (step_token h.boundary (hpending ▸ htok)).trans hexec, h.litEffect hm _,
      by simp⟩
  · obtain ⟨r, hm, -, hexec, hrun⟩ := ref_whole h hat hle (refOffset (bitsToNat (rest.take s.cfg.wbits)))
      (refLength (bitsToNat ((rest.drop s.cfg.wbits).take s.cfg.lbits)))
    have hstep := (step_token h.boundary (hpending ▸ htok)).trans hexec
    have hrun := hrun rfl
    rcases Nat.lt_or_ge s.hist.hcount (refOffset (bitsToNat (rest.take s.cfg.wbits))) with hlt | hvalid
    · obtain ⟨heff, hend⟩ := runRef_dangling (s := { s with reader := r }) _ hlt
      rw [heff] at hrun
      exact .inl ⟨2, _, hrun, rfl, hstep.trans hend⟩
    · have hinv : DecodeInv { s with reader := r } := ⟨h.legal, h.cap, hm.coherent, h.hbuf, h.window⟩
      obtain ⟨u, hnext, hcopy, hu⟩ := runRef_valid hinv (Nat.le_add_left 1 _) hvalid
      refine .inr ⟨_, u, _, _, hrun.trans hcopy, hstep.trans hnext, hu, ?_⟩
      simp only [hm.unread, h.unread, List.length_drop, List.length_cons]
      omega

/-- From a token boundary the machine's steps end as the state machine's run does, with Finish (R161, R163). -/
theorem run_core_decode (h : AtToken bits out s) (hrole : s.cfg.role = .decoder) :
    ∃ n k u, DecodeRun k s u ∧ u.decodeEnded = true ∧ Host.Core.run core n s = finishDecode u := by
  induction hlen : bits.length using Nat.strong_induction_on generalizing s bits out with
  | _ m ih =>
    rcases step_token_run h hrole with ⟨k, u, hrun, hend, hstep⟩ | ⟨k, v, rest, out', hrun, hstep, hv, hlt⟩
    · exact ⟨1, k, u, hrun, hend, (run_core_one s).trans hstep⟩
    · obtain ⟨n, j, u, hrun', hend, hsteps⟩ := ih _ (hlen ▸ hlt) hv (hrun.frame.1 ▸ hrole) rfl
      exact ⟨n + 1, j + k, u, hrun.trans hrun', hend, (run_core_succ hstep).trans hsteps⟩

/-- A whole DECODE has the outcome of its steps (R64). -/
theorem run_core_startDecode (h : s.readyToDecode) (y : List Byte) :
    ∃ n, Host.Core.run core n (startDecode y s) = exec (.decode y) s := by
  obtain ⟨t, hloop, -⟩ := decodeLoop_startDecode h y
  obtain ⟨k, hrun, hend⟩ := decodeLoop_run hloop
  obtain ⟨-, -, hrole⟩ := id h
  obtain ⟨n, j, u, hrun', hend', hsteps⟩ := run_core_decode (startDecode_atToken h y) hrole
  exact ⟨n, by rw [hsteps, exec_decode_eq h hloop, hrun.eq_of_ended hend hrun' hend']⟩

/-! #### ENCODE -/

/-- At the end of its input an ENCODE's next step ends it (R141). -/
theorem run_core_endEncode (hq : s.dec.dstate = .idle) (hrun : s.enc.running = true)
    (hend : ¬s.enc.ipos < s.enc.input.length) : Host.Core.run core 1 s = finishEncode s := by
  rw [run_core_one, step_continueEncode hq hrun, continueEncode, if_neg hend]

/-- With input left an ENCODE's next step is an EncodeStep, after which it is still in progress (R141, R144). -/
theorem step_encodeStep (hq : s.dec.dstate = .idle) (hrun : s.enc.running = true)
    (hlt : s.enc.ipos < s.enc.input.length) (h : encodeStep s = .ok t) :
    step s = .next t ∧ t.dec.dstate = .idle ∧ t.enc.running = true := by
  refine ⟨by rw [step_continueEncode hq hrun, continueEncode, if_pos hlt, h, toOutcome], ?_⟩
  obtain ⟨b, off, len, -, -, ⟨-, w, -, rfl⟩ | ⟨-, w, -, rfl⟩⟩ := encodeStep_cases h <;> exact ⟨hq, hrun⟩

/-- ENCODE's loop is taken EncodeStep by EncodeStep, and the last step ends the operation (R141). -/
theorem run_core_encodeLoop (hq : s.dec.dstate = .idle) (hrun : s.enc.running = true) {fuel : Nat}
    (h : encodeLoop fuel s = .ok t) : ∃ n, Host.Core.run core n s = finishEncode t := by
  induction fuel generalizing s with
  | zero =>
    rw [encodeLoop] at h
    split at h
    · cases h
    · next hend => cases h; exact ⟨1, run_core_endEncode hq hrun hend⟩
  | succ fuel ih =>
    rw [encodeLoop] at h
    split at h
    · next hlt =>
      split at h
      · cases h
      · next u hu =>
        obtain ⟨hstep, hq', hrun'⟩ := step_encodeStep hq hrun hlt hu
        obtain ⟨n, hsteps⟩ := ih hq' hrun' h
        exact ⟨n + 1, (run_core_succ hstep).trans hsteps⟩
    · next hend => cases h; exact ⟨1, run_core_endEncode hq hrun hend⟩

/-- Settles O46: a DECODE's tokens and an ENCODE's EncodeSteps, one by one, follow the loop of the whole operation
(`run_core_startDecode`, `run_core_encodeLoop`), and each answers where its output fits OUT_CAP. -/
theorem operationsAreTheirSteps : Obligations.OperationsAreTheirSteps := by
  refine ⟨fun y s h => ⟨run_core_startDecode h y, fun hfits => ?_⟩, fun x s h => ⟨?_, fun hadmits => ?_⟩⟩
  · rcases exec_decode_outcome h y with ⟨out, hout, ⟨hexceeds, -⟩ | ⟨-, t, ht, -⟩⟩ | ⟨c, -, t, ht, -⟩
    · have hadmits : s.platform.admits out := hfits out (by rw [hout]; rfl)
      cases (exceedsOutCap_eq_false.mpr hadmits).symm.trans hexceeds
    · exact ⟨t, ht⟩
    · exact ⟨t, ht⟩
  · obtain ⟨t, hloop, -⟩ := encodeLoop_startEncode h x
    obtain ⟨-, hbusy, -⟩ := id h
    rw [exec_encode_eq h hloop]
    exact run_core_encodeLoop (busy_eq_false.mp hbusy).1 rfl hloop
  · obtain ⟨t, ht, -⟩ := exec_encode_reply h hadmits
    exact ⟨t, ht⟩

end Sys2Proof.Machine
end

section
/-! ### Decoding and encoding agree, and the order of the bits (30_encoding R70 to R80) -/

namespace Sys2Proof

variable {W L : Nat} {bits rest : List Bool}

/-- Settles O1: seven closed words, computed. -/
theorem specWordsDecode : Obligations.SpecWordsDecode :=
  ⟨rfl, rfl, rfl, rfl, rfl, rfl, rfl⟩

/-! #### Bits and bytes -/

/-- Bit `i` of a field of width `n` is bit `n - 1 - i` of its value (R70). -/
theorem getElem?_fieldBits (v : Nat) {n i : Nat} (hi : i < n) : (fieldBits v n)[i]? = some (v.testBit (n - 1 - i)) := by
  induction n generalizing i with
  | zero => omega
  | succ n ih =>
    cases i with
    | zero => simp [fieldBits]
    | succ i => rw [fieldBits, List.getElem?_cons_succ, ih (by omega), show n + 1 - 1 - (i + 1) = n - 1 - i by omega]

/-- Settles O6, for bytes (`getElem?_streamBits`) and for fields (`getElem?_fieldBits`). -/
theorem streamBitOrder : Obligations.StreamBitOrder :=
  ⟨fun bs k _ => getElem?_streamBits bs k, fun v _ _ hi => getElem?_fieldBits v hi⟩

/-- Settles O7: packing is the framing (`streamBits_pack`), and eight times the byte length is the bit length. -/
theorem streamFraming : Obligations.StreamFraming := by
  intro W L toks T
  have hbits := streamBits_pack (tokensBits W L toks)
  have hlen := congrArg List.length hbits
  simp only [length_streamBits, List.length_append, List.length_replicate] at hlen
  refine ⟨hbits, ?_, rfl⟩
  show (pack (tokensBits W L toks)).length = (T + 7) / 8
  omega

/-! #### Tokens -/

/-- Settles O2: a legal configuration's REF has the eight bits that keep it apart from END (`decodeToken_tokenBits`). -/
theorem tokenDecodeOfEncode : Obligations.TokenDecodeOfEncode :=
  fun _ _ _ rest hlegal ht hwf => decodeToken_tokenBits (Machine.seven_le_of_legalConfig hlegal) ht hwf rest

/-- A field as wide as the bits it was read from is these bits (R70). -/
theorem fieldBits_bitsToNat_of_length {n : Nat} (h : bits.length = n) : fieldBits (bitsToNat bits) n = bits :=
  h ▸ fieldBits_bitsToNat bits

/-- The encoding of the LIT read from eight bits is the tag 0 and these bits (R71). -/
theorem tokenBits_lit_bitsToNat (h : bits.length = 8) :
    tokenBits W L (.lit (BitVec.ofNat 8 (bitsToNat bits))) = false :: bits := by
  rw [tokenBits, fieldBits_toNat, byteBits_ofNat, fieldBits_bitsToNat_of_length h]

/-- The encoding of the REF read from `W` and `L` bits is the tag 1 and these bits (R72, R73). -/
theorem tokenBits_ref_bitsToNat {offset length : List Bool} (hO : offset.length = W) (hF : length.length = L) :
    tokenBits W L (.ref (refOffset (bitsToNat offset)) (refLength (bitsToNat length))) = true :: (offset ++ length) := by
  simp only [tokenBits, offsetField, refOffset, lengthField, refLength, Nat.add_sub_cancel,
    fieldBits_bitsToNat_of_length hO, fieldBits_bitsToNat_of_length hF]

/-- The bits a LIT or REF was read from are its encoding and the rest (R71 to R73). -/
theorem eq_tokenBits_append_of_decodeToken {i : Instr} (ht : i.isToken = true)
    (h : decodeToken W L bits = .token i rest) : bits = tokenBits W L i ++ rest := by
  rcases decodeToken_cases W L bits with
    ⟨-, -, htok⟩ | ⟨-, -, htok⟩ | ⟨tag, bits', rfl, -, ⟨-, htok⟩ | ⟨rfl, h8, htok⟩ | ⟨rfl, hle, htok⟩⟩ <;>
    rw [htok] at h <;> cases h
  · cases ht
  · rw [tokenBits_lit_bitsToNat (List.length_take_of_le h8), List.cons_append, List.take_append_drop]
  · have hF : ((bits'.drop W).take L).length = L := List.length_take_of_le (by simp; omega)
    rw [tokenBits_ref_bitsToNat (List.length_take_of_le (by omega)) hF, ← List.drop_drop]
    simp

/-- Settles O4: what is read is well-formed (`decodeToken_wf`), from its encoding
(`eq_tokenBits_append_of_decodeToken`). -/
theorem tokenEncodeOfDecode : Obligations.TokenEncodeOfDecode :=
  fun _ _ _ _ _ ht htok => ⟨Machine.decodeToken_wf htok, eq_tokenBits_append_of_decodeToken ht htok⟩

/-- END is read exactly at a tail of at most seven zeros, and takes none of them (R76). -/
theorem decodeToken_eq_endOfStream :
    decodeToken W L bits = .token .endOfStream rest ↔ rest = bits ∧ bits.length ≤ 7 ∧ ∀ b ∈ bits, b = false := by
  constructor
  · intro h
    rcases decodeToken_cases W L bits with
      ⟨h7, hz, htok⟩ | ⟨-, -, htok⟩ | ⟨tag, bits', -, -, ⟨-, htok⟩ | ⟨-, -, htok⟩ | ⟨-, -, htok⟩⟩ <;>
      rw [htok] at h <;> cases h
    exact ⟨rfl, h7, hz⟩
  · rintro ⟨rfl, h7, hz⟩
    rw [List.eq_replicate_of_mem hz]
    exact decodeToken_zeros W L h7

/-- Settles O5: the tail END is read at (`decodeToken_eq_endOfStream`) has no bit, or one to seven. -/
theorem endOfStreamCondition : Obligations.EndOfStreamCondition := by
  intro W L bits rest
  rw [decodeToken_eq_endOfStream, and_congr_right_iff]
  rintro rfl
  constructor
  · rintro ⟨h7, hz⟩
    rcases Nat.eq_zero_or_pos rest.length with h0 | hpos
    exacts [.inl h0, .inr ⟨hpos, h7, hz⟩]
  · rintro (h0 | ⟨-, h7, hz⟩)
    · simp [List.eq_nil_of_length_eq_zero h0]
    · exact ⟨h7, hz⟩

/-- At most seven bits that hold a 1, or eight and more that are fewer than their tag's token takes, are truncated
(R77, R131). -/
theorem decodeToken_truncated
    (h : (bits.length ≤ 7 ∧ ∃ b ∈ bits, b = true) ∨
      (8 ≤ bits.length ∧
        ((bits.head? = some false ∧ bits.length < 9) ∨ (bits.head? = some true ∧ bits.length < 1 + W + L)))) :
    decodeToken W L bits = .truncated := by
  rcases decodeToken_cases W L bits with
    ⟨h7, hz, -⟩ | ⟨-, -, htok⟩ | ⟨tag, rest, rfl, h7, ⟨-, htok⟩ | ⟨rfl, h8, -⟩ | ⟨rfl, hle, -⟩⟩
  · rcases h with ⟨-, b, hb, rfl⟩ | ⟨h8, -⟩
    · cases hz _ hb
    · omega
  · exact htok
  · exact htok
  · simp at h; omega
  · simp at h; omega

/-! #### Commands -/

/-- A reserved code is RESERVED_CMD, whatever its operands (R80). -/
theorem decodeRequest_reserved {r : Request} (h : r.cmd.toNat = 0 ∨ 6 ≤ r.cmd.toNat) :
    decodeRequest r = .ok (.reservedCmd r.cmd) := by
  unfold decodeRequest
  split
  case h_6 => rw [if_pos h]
  all_goals omega

/-- Settles O21: the request is RESERVED_CMD (`decodeRequest_reserved`), whose meaning is its refusal. -/
theorem reservedCommandIsRefused : Obligations.ReservedCommandIsRefused :=
  fun _ _ h => ⟨decodeRequest_reserved (h.imp_right And.left), rfl⟩

/-- A token's bits by themselves decode to it (R71 to R73). -/
theorem decode_tokenBits {i : Instr} (hlegal : LegalConfig W L) (ht : i.isToken = true) (hwf : i.wf W L = true) :
    decode W L (.bits (tokenBits W L i)) = .ok i := by
  have htok := decodeToken_tokenBits (Machine.seven_le_of_legalConfig hlegal) ht hwf []
  rw [List.append_nil] at htok
  simp only [decode, htok]

/-- Settles O3: tokens by their bits (`decode_tokenBits`), END by its empty tail (`decodeToken_zeros`), the commands by
their codes, the reserved ones by `decodeRequest_reserved`. -/
theorem decodeOfEncode : Obligations.DecodeOfEncode := by
  intro W L i hlegal hwf
  cases i with
  | lit v => exact decode_tokenBits hlegal rfl hwf
  | ref d n => exact decode_tokenBits hlegal rfl hwf
  | endOfStream =>
    have hend : decodeToken W L [] = .token .endOfStream [] := decodeToken_zeros W L (Nat.zero_le 7)
    simp only [encode, decode, hend]
  | encInit w l => rfl
  | decInit w l => rfl
  | decInitCap cap w l => rfl
  | encode x => rfl
  | decode y => rfl
  | reservedCmd code => exact decodeRequest_reserved (by simpa [Instr.wf] using hwf)

end Sys2Proof
end

section
/-! ### The token boundary: AtBoundary, END and the truncated tail (43_decoder R131, R163, R170, R171) -/

namespace Sys2Proof.Machine

variable {s : State} {bits : List Bool} {out : List Byte}

/-- Settles O12, case by case of what stands at the boundary (`decodeToken_cases`). -/
theorem atBoundaryClassifies : Obligations.AtBoundaryClassifies := by
  intro cap W L r hcap hcoh
  rw [← Reader.unread]
  rcases decodeToken_cases W L r.unread with
    ⟨h7, hz, htok⟩ | ⟨h7, hz, htok⟩ | ⟨tag, rest, hbits, h7, hcase⟩
  · rw [htok]
    exact atBoundary_zeros cap W L hcoh h7 hz
  · rw [htok]
    exact ⟨r, atBoundary_tail cap W L hcoh h7 hz⟩
  · obtain ⟨r', hm, -, hat⟩ := atBoundary_tag hcap W L hcoh hbits h7
    rcases hcase with ⟨hlt, htok⟩ | ⟨rfl, h8, htok⟩ | ⟨rfl, hle, htok⟩ <;> rw [htok]
    · exact ⟨r', by rw [hat, if_pos hlt]⟩
    · exact ⟨r', by rw [hat, if_neg (by simpa using h8)], hm.cursor, hm.coherent⟩
    · exact ⟨r', by rw [hat, if_neg (by simpa using hle)], hm.cursor, hm.coherent⟩

/-- Finish from DRAINED, where the platform admits the output (R162, R170). -/
theorem finishDecode_drained (hadmits : s.platform.admits s.dec.out) :
    finishDecode (setDState .drained s) =
      .next { s with dec := { s.dec with dstate := .idle }, status := 0, reply := .okBytes s.dec.out } := by
  rcases finishDecode_cases (setDState .drained s) with ⟨-, hexceeds, -⟩ | ⟨-, -, heq⟩ | ⟨hne, -⟩
  · cases (exceedsOutCap_eq_false.mpr hadmits).symm.trans hexceeds
  · exact heq
  · exact absurd rfl hne

/-- Settles O34: END drains the DECODE, and Finish returns its output (`finishDecode_drained`); the tail is one at which
END is fetched (`decodeToken_eq_endOfStream`). -/
theorem endReturnsTheOutput : Obligations.EndReturnsTheOutput := by
  intro s hinv hat unread h7 hz hadmits t
  have hend : exec .endOfStream s = .next t := by
    simp only [exec, execEndOfStream, hat, if_true]
    exact finishDecode_drained hadmits
  have hatToken := hinv.atToken hat
  have htok : decodeToken s.cfg.wbits s.cfg.lbits (pendingBits s.reader) = .token .endOfStream unread := by
    rw [hatToken.reader.pendingBits_eq]
    exact decodeToken_eq_endOfStream.mpr ⟨rfl, h7, hz⟩
  exact ⟨hend, (step_token hatToken.boundary htok).trans hend⟩

/-- Finish after a MalformedStream raise: its cause, and nothing of the output (R162, R193). -/
theorem finishDecode_raise (c : MalformedCause) (s : State) :
    finishDecode (raise (.malformedStream c) s) = .next { s with
      dec := { s.dec with dstate := .idle, out := [], cause := c }
      status := statusOf (.malformedStream c)
      reply := .err (.malformedStream c) } := by
  rcases finishDecode_cases (raise (.malformedStream c) s) with ⟨hq, -⟩ | ⟨hq, -⟩ | ⟨-, heq⟩
  · cases hq
  · cases hq
  · exact heq

/-- At a boundary without a token the step reads at most the tag and ends the DECODE with TRUNCATED (R131, R162, R163). -/
theorem step_truncated_eq (h : AtToken bits out s) (htok : decodeToken s.cfg.wbits s.cfg.lbits bits = .truncated) :
    ∃ r, step s = .next { s with
      reader := r
      dec := { s.dec with dstate := .idle, out := [], cause := .truncated }
      status := 0x0A
      reply := .err (.malformedStream .truncated) } := by
  obtain ⟨whole, r, htag, -⟩ := takeTag_total h.cap h.reader 0
  refine ⟨r, ?_⟩
  rw [step_truncated h.boundary (by rw [h.reader.pendingBits_eq, h.unread, htok]), truncatedFetch, htag]
  exact finishDecode_raise .truncated { s with reader := r }

/-- Settles O53: the bits left are truncated (`decodeToken_truncated`), and the step fails there (`step_truncated_eq`). -/
theorem truncatedBoundaryFails : Obligations.TruncatedBoundaryFails := by
  intro s hinv hat unread hunread
  obtain ⟨r, hstep⟩ := step_truncated_eq (hinv.atToken hat) (decodeToken_truncated hunread)
  exact ⟨_, hstep, rfl, rfl, rfl, rfl, rfl, rfl, rfl, rfl⟩

end Sys2Proof.Machine
end

section
/-! ### The pseudo-instructions (30_encoding R83) -/

namespace Sys2Proof.Machine

variable {W L d : Nat} {out : List Byte} {toks : List Instr}

/-! #### What the expansions make of the output -/

/-- Two copies of one offset are one copy of both lengths (R167). -/
theorem copyBytes_copyBytes (d m n : Nat) (out : List Byte) :
    copyBytes d n (copyBytes d m out) = copyBytes d (m + n) out := by
  induction m generalizing out with
  | zero => rw [Nat.zero_add, copyBytes]
  | succ m ih => rw [Nat.add_right_comm, copyBytes, copyBytes, ih]

/-- A copy from one position back repeats the last byte (R83, R167). -/
theorem copyBytes_one_replicate (b : Byte) (k n : Nat) :
    copyBytes 1 n (List.replicate (k + 1) b) = List.replicate (k + 1 + n) b := by
  induction n generalizing k with
  | zero => rfl
  | succ n ih =>
    have hlast : (List.replicate (k + 1) b).getD ((List.replicate (k + 1) b).length - 1) 0 = b := by simp
    rw [copyBytes, hlast, ← List.replicate_succ', ih, Nat.add_right_comm, Nat.add_assoc]

/-- The literals of a text append it (R164). -/
theorem tokensOutput_expandStr_append (text : List Byte) (toks : List Instr) (out : List Byte) :
    tokensOutput (expandStr text ++ toks) out = tokensOutput toks (out ++ text) := by
  induction text generalizing out with
  | nil => simp [expandStr]
  | cons v text ih =>
    simp only [expandStr, List.map_cons, List.cons_append, tokensOutput_lit] at ih ⊢
    rw [ih, List.append_assoc, List.singleton_append]

/-- A REF that reaches no further back than the output copies its bytes (R165). -/
theorem tokensOutput_ref_of_le (hd : d ≤ out.length) (n : Nat) (toks : List Instr) :
    tokensOutput (.ref d n :: toks) out = tokensOutput toks (copyBytes d n out) := by
  rw [tokensOutput_ref, if_neg (Nat.not_lt.mpr hd)]

/-- A REF repeated copies as many times its bytes. -/
theorem tokensOutput_replicate_ref_append (hd : d ≤ out.length) (n k : Nat) (toks : List Instr) :
    tokensOutput (List.replicate k (.ref d n) ++ toks) out = tokensOutput toks (copyBytes d (k * n) out) := by
  induction k generalizing out with
  | zero => rw [List.replicate_zero, List.nil_append, Nat.zero_mul, copyBytes]
  | succ k ih =>
    rw [List.replicate_succ, List.cons_append, tokensOutput_ref_of_le hd, ih (by simp; omega), copyBytes_copyBytes,
      Nat.succ_mul, Nat.add_comm n]

/-- The expansion of COPY copies its bytes (R83). -/
theorem tokensOutput_expandCopy (L : Nat) (hd : d ≤ out.length) (n : Nat) :
    tokensOutput (expandCopy L d n) out = .ok (copyBytes d n out) := by
  have hdiv : n / 2 ^ L * 2 ^ L + n % 2 ^ L = n := Nat.div_add_mod' n (2 ^ L)
  rw [expandCopy, tokensOutput_replicate_ref_append hd]
  split
  · next hzero => rw [tokensOutput_nil, show n / 2 ^ L * 2 ^ L = n by omega]
  · rw [tokensOutput_ref_of_le (by simp; omega), tokensOutput_nil, copyBytes_copyBytes, hdiv]

/-! #### The expansions are tokens with an encoding -/

theorem expandStr_wf (W L : Nat) (text : List Byte) : ∀ i ∈ expandStr text, i.isToken = true ∧ i.wf W L = true := by
  intro i hi
  obtain ⟨v, -, rfl⟩ := List.mem_map.mp hi
  exact ⟨rfl, rfl⟩

/-- The REFs of a COPY have LMAX bytes, or the remainder, which is less (R73, R83). -/
theorem expandCopy_wf (h1 : 1 ≤ d) (hd : d ≤ 2 ^ W) (n : Nat) :
    ∀ i ∈ expandCopy L d n, i.isToken = true ∧ i.wf W L = true := by
  have hwf {m : Nat} (hm : 1 ≤ m) (hm' : m ≤ 2 ^ L) : (Instr.ref d m).isToken = true ∧ (Instr.ref d m).wf W L = true :=
    ⟨rfl, by simp [Instr.wf, h1, hd, hm, hm']⟩
  have hpos : 0 < 2 ^ L := Nat.two_pow_pos L
  have hlt : n % 2 ^ L < 2 ^ L := Nat.mod_lt n hpos
  intro i hi
  rcases List.mem_append.mp hi with hi | hi
  · rw [List.eq_of_mem_replicate hi]
    exact hwf hpos le_rfl
  · split at hi
    · cases hi
    · next hne =>
      rw [List.mem_singleton.mp hi]
      exact hwf (Nat.pos_of_ne_zero hne) hlt.le

/-! #### Their streams, decoded -/

/-- DECODE of the stream of well-formed tokens, on an idle Decoder whose platform admits what they make, returns it
(R75, R161). -/
theorem exec_decode_assemble {s : State} (h : s.readyToDecode)
    (ht : ∀ i ∈ toks, i.isToken = true ∧ i.wf s.cfg.wbits s.cfg.lbits = true) (hout : tokensOutput toks [] = .ok out)
    (hadmits : s.platform.admits out) :
    ∃ t, exec (.decode (assemble s.cfg.wbits s.cfg.lbits toks)) s = .next t ∧ t.reply = .okBytes out :=
  exec_decode_of_decodeStream h
    ((decodeStream_assemble (seven_le_of_legalConfig h.config.1) ht).trans hout) hadmits

/-- Settles O41: the expansions are well-formed, and make of the output what they stand for (`tokensOutput_expandCopy`);
RUN is a literal and a copy of offset 1 (`copyBytes_one_replicate`). -/
theorem pseudoInstructionsExpand : Obligations.PseudoInstructionsExpand := by
  intro s hready
  constructor
  · intro b n hn hadmits
    have hwf : ∀ i ∈ expandRun s.cfg.lbits b n, i.isToken = true ∧ i.wf s.cfg.wbits s.cfg.lbits = true :=
      List.forall_mem_cons.mpr ⟨⟨rfl, rfl⟩, expandCopy_wf le_rfl Nat.one_le_two_pow (n - 1)⟩
    refine exec_decode_assemble hready hwf ?_ hadmits
    have hrun := copyBytes_one_replicate b 0 (n - 1)
    rw [show 0 + 1 + (n - 1) = n by omega] at hrun
    rw [expandRun, tokensOutput_lit, tokensOutput_expandCopy _ (by simp)]
    exact congrArg _ hrun
  · intro text d n h1 hd hdW _ hadmits
    have hwf : ∀ i ∈ expandStr text ++ expandCopy s.cfg.lbits d n,
        i.isToken = true ∧ i.wf s.cfg.wbits s.cfg.lbits = true :=
      List.forall_mem_append.mpr ⟨expandStr_wf _ _ text, expandCopy_wf h1 hdW n⟩
    refine exec_decode_assemble hready hwf ?_ hadmits
    rw [tokensOutput_expandStr_append, List.nil_append, tokensOutput_expandCopy _ hd]

end Sys2Proof.Machine
end

section
/-! ### What the constructions do (40_config R101 to R105, 42_encoder R143) -/

namespace Sys2Proof.Machine

variable {s : State} {cap w l : Int} {c : InvalidCause}

/-! #### The tests, in their order (R101, R104) -/

theorem checkConfig_eq_wRange (hw : w < 4 ∨ 15 < w) : checkConfig w l = some .wRange :=
  if_pos (by simp only [Config.wMin, Config.wMax]; omega)

/-- Past W_RANGE the test is L_RANGE, then L_NOT_LESS. -/
theorem checkConfig_of_wRange_passed (hw : 4 ≤ w) (hw' : w ≤ 15) :
    checkConfig w l = if ¬(3 ≤ l ∧ l ≤ 14) then some .lRange else if ¬(l < w) then some .lNotLess else none :=
  if_neg (not_not.mpr ⟨hw, hw'⟩)

theorem checkConfig_eq_lRange (hw : 4 ≤ w) (hw' : w ≤ 15) (hl : l < 3 ∨ 14 < l) : checkConfig w l = some .lRange := by
  rw [checkConfig_of_wRange_passed hw hw', if_pos (by omega)]

theorem checkConfig_eq_lNotLess (hw : 4 ≤ w) (hw' : w ≤ 15) (hl : 3 ≤ l) (hl' : l ≤ 14) (hle : w ≤ l) :
    checkConfig w l = some .lNotLess := by
  rw [checkConfig_of_wRange_passed hw hw', if_neg (not_not.mpr ⟨hl, hl'⟩), if_pos (Int.not_lt.mpr hle)]

theorem checkConfig_eq_none (hw : 4 ≤ w) (hw' : w ≤ 15) (hl : 3 ≤ l) (hl' : l ≤ 14) (hlt : l < w) :
    checkConfig w l = none := by
  rw [checkConfig_of_wRange_passed hw hw', if_neg (not_not.mpr ⟨hl, hl'⟩), if_neg (not_not.mpr hlt)]

theorem checkConfig_of_legalConfig {w l : Nat} (h : LegalConfig w l) : checkConfig w l = none := by
  obtain ⟨hw, hw', hl, hl', hlt⟩ := h
  exact checkConfig_eq_none (Int.ofNat_le.mpr hw) (Int.ofNat_le.mpr hw') (Int.ofNat_le.mpr hl) (Int.ofNat_le.mpr hl')
    (Int.ofNat_lt.mpr hlt)

theorem checkDecoder_of_checkConfig (h : checkConfig w l = some c) (cap : Int) : checkDecoder cap w l = some c := by
  simp only [checkDecoder, h]

/-- Once the bit widths pass, the capacity is tested (R104). -/
theorem checkDecoder_of_widths_passed (h : checkConfig w l = none) (cap : Int) :
    checkDecoder cap w l = if ¬(1 ≤ cap ∧ cap ≤ 65535) then some .capRange else none := by
  simp [checkDecoder, h, Config.capMax]

/-! #### The outcomes of the constructions -/

/-- ENC_INIT with a legal configuration (R102). -/
theorem exec_encInit_of_legalConfig {w l : Nat} (hbusy : s.busy = false) (h : LegalConfig w l) :
    exec (.encInit w l) s = .next (constructEncoder w l s) := by
  simp [exec, execEncInit, hbusy, checkConfig_of_legalConfig h]

/-- DEC_INIT_CAP with a legal configuration and capacity (R104). -/
theorem exec_decInitCap_of_legalConfig {cap w l : Nat} (hbusy : s.busy = false) (h : LegalConfig w l) (hcap : 1 ≤ cap)
    (hcap' : cap ≤ 65535) : exec (.decInitCap cap w l) s = .next (constructDecoder cap w l s) := by
  have hcheck : checkDecoder cap w l = none := by
    rw [checkDecoder_of_widths_passed (checkConfig_of_legalConfig h), if_neg (by omega)]
  simp [exec, execDecInitCap, decoderConstruction, hbusy, hcheck]

/-- DEC_INIT is DEC_INIT_CAP of the default capacity (R103). -/
theorem exec_decInit_eq_decInitCap (w l : Int) (s : State) :
    exec (.decInit w l) s = exec (.decInitCap (Config.defaultInbuf : Int) w l) s := rfl

/-- ENC_INIT with bit widths that fail a test (R105). -/
theorem exec_encInit_of_checkConfig (hbusy : s.busy = false) (h : checkConfig w l = some c) :
    exec (.encInit w l) s = .next (raise (.invalidParameter c) s) := by
  simp [exec, execEncInit, hbusy, h]

/-- DEC_INIT_CAP with operands that fail a test (R105). -/
theorem exec_decInitCap_of_checkDecoder (hbusy : s.busy = false) (h : checkDecoder cap w l = some c) :
    exec (.decInitCap cap w l) s = .next (raise (.invalidParameter c) s) := by
  simp [exec, execDecInitCap, decoderConstruction, hbusy, h]

/-- Bit widths that fail a test fail all three constructions (R101, R105). -/
theorem exec_constructions_of_checkConfig (hbusy : s.busy = false) (h : checkConfig w l = some c) (cap : Int) :
    exec (.encInit w l) s = .next (raise (.invalidParameter c) s) ∧
      exec (.decInit w l) s = .next (raise (.invalidParameter c) s) ∧
      exec (.decInitCap cap w l) s = .next (raise (.invalidParameter c) s) :=
  ⟨exec_encInit_of_checkConfig hbusy h, exec_decInitCap_of_checkDecoder hbusy (checkDecoder_of_checkConfig h _),
    exec_decInitCap_of_checkDecoder hbusy (checkDecoder_of_checkConfig h cap)⟩

/-! #### What a construction leaves -/

/-- HBUF is zero-filled by a construction (R102, R104). -/
theorem read_histConstructed (a : Nat) : Memory.read hbufUnlisted histConstructed.hbuf a = some 0 := rfl

/-- Settles O14: ENC_INIT is `constructEncoder` (`exec_encInit_of_legalConfig`), whose writes are read off. -/
theorem encInitMakesAnEncoder : Obligations.EncInitMakesAnEncoder :=
  fun _ _ _ hlegal hbusy => ⟨_, exec_encInit_of_legalConfig hbusy hlegal, rfl, read_histConstructed, rfl, rfl, rfl, rfl,
    rfl, rfl, rfl⟩

/-- Settles O15: both are `constructDecoder` (`exec_decInitCap_of_legalConfig`), DEC_INIT with the default capacity
(`exec_decInit_eq_decInitCap`). -/
theorem decInitMakesADecoder : Obligations.DecInitMakesADecoder := by
  intro cap w l s hlegal hcap hcap' hbusy
  have hdefault : exec (.decInit w l) s = .next (constructDecoder Config.defaultInbuf w l s) :=
    (exec_decInit_eq_decInitCap w l s).trans (exec_decInitCap_of_legalConfig hbusy hlegal (by decide) (by decide))
  exact ⟨⟨_, exec_decInitCap_of_legalConfig hbusy hlegal hcap hcap', rfl, read_histConstructed, rfl, rfl, rfl, rfl, rfl,
    rfl, rfl⟩, _, hdefault, rfl, read_histConstructed, rfl, rfl, rfl, rfl, rfl, rfl, rfl⟩

/-- Settles O17: the first failing test gives the cause (`checkConfig_eq_wRange` and the others), and the construction
raises it (`exec_constructions_of_checkConfig`), which writes the cause's word. -/
theorem failedConstructionChangesOnlyStatus : Obligations.FailedConstructionChangesOnlyStatus := by
  intro cap w l s hbusy
  refine ⟨fun hw => ?_, fun ⟨hw, hw', hl⟩ => ?_, fun ⟨hw, hw', hl, hl', hle⟩ => ?_,
    fun ⟨hw, hw', hl, hl', hlt, hcap⟩ => ?_⟩
  · exact exec_constructions_of_checkConfig hbusy (checkConfig_eq_wRange hw) cap
  · exact exec_constructions_of_checkConfig hbusy (checkConfig_eq_lRange hw hw' hl) cap
  · exact exec_constructions_of_checkConfig hbusy (checkConfig_eq_lNotLess hw hw' hl hl' hle) cap
  · have hcheck : checkDecoder cap w l = some .capRange := by
      rw [checkDecoder_of_widths_passed (checkConfig_eq_none hw hw' hl hl' hlt), if_pos (by omega)]
    exact exec_decInitCap_of_checkDecoder hbusy hcheck

/-! #### The threshold (R143) -/

variable {p : Platform}

theorem minMatch_of_default (h : p.minMatch = none) (w l : Nat) : minMatch p w l = (1 + w + l) / 9 + 1 := by
  simp only [minMatch, h, defaultMinMatch]

theorem minMatch_of_own {m w l : Nat} (h : p.minMatch = some m) (hm : 1 ≤ m) (hm' : m ≤ 2 ^ l) :
    minMatch p w l = m := by
  simp only [minMatch, h, hm, hm', and_self, if_true]

/-- The default MIN_MATCH is the least number of literals longer than a REF (R143). -/
theorem minMatch_le_iff_of_default (h : p.minMatch = none) (w l k : Nat) : minMatch p w l ≤ k ↔ 1 + w + l < 9 * k := by
  rw [minMatch_of_default h]
  omega

/-- Settles O18: MINM is MIN_MATCH of the platform: its own threshold (`minMatch_of_own`), or the default, the least
length whose REF is shorter (`minMatch_le_iff_of_default`). -/
theorem encInitSetsTheThreshold : Obligations.EncInitSetsTheThreshold := by
  intro w l s hlegal hbusy
  refine ⟨_, exec_encInit_of_legalConfig hbusy hlegal, fun hdefault => ?_, fun _ hown hm hm' =>
    minMatch_of_own hown hm hm'⟩
  have hleast := minMatch_le_iff_of_default hdefault w l
  obtain ⟨hpositive, -⟩ := minMatch_range hlegal s.platform
  exact ⟨hpositive, (hleast _).mp le_rfl, fun k _ hk => (hleast k).mpr hk, minMatch_of_default hdefault w l⟩

end Sys2Proof.Machine
end

section
/-! ### What raises InvalidParameter (40_config R108) -/

namespace Sys2Proof.Machine

variable {s t : State}

/-- The state reports no InvalidParameter: neither STATUS nor the reply is one (R108). -/
def State.NoInvalidParameter (t : State) : Prop :=
  statusErr t.status ≠ 1 ∧ ∀ c, t.reply ≠ .err (.invalidParameter c)

/-- STATUS after Ok has ERR 0 (R24). -/
theorem statusErr_statusOk : statusErr statusOk = 0 := rfl

theorem finishEncode_noInvalidParameter (h : finishEncode s = .next t) : t.NoInvalidParameter := by
  cases finishEncode_eq_next h
  exact ⟨by simp [statusErr_statusOk], nofun⟩

/-- Finish answers Ok or MalformedStream (R162). -/
theorem finishDecode_noInvalidParameter (h : finishDecode s = .next t) : t.NoInvalidParameter := by
  rcases finishDecode_cases s with ⟨-, -, heq⟩ | ⟨-, -, heq⟩ | ⟨-, heq⟩ <;> rw [heq] at h <;> cases h
  · exact ⟨by simp [statusErr_statusOk], nofun⟩
  · obtain ⟨herr, -, -⟩ := statusOf_fields (.malformedStream s.dec.cause)
    exact ⟨by simp [herr, Failure.errCode], nofun⟩

/-- Settles O44, instruction by instruction: an operation ends in Finish or in the end of an ENCODE, which answer no
InvalidParameter; a token that ends no DECODE writes neither STATUS nor the reply (`DecodeRun.frame`). -/
theorem onlyConstructionsRaiseInvalidParameter : Obligations.OnlyConstructionsRaiseInvalidParameter := by
  intro i s t hencInit hdecInit hdecInitCap h
  cases i with
  | lit v =>
    obtain ⟨-, r, -, htruncated | rfl⟩ := execLit_cases h
    · exact .inr (finishDecode_noInvalidParameter htruncated)
    · exact .inl ⟨rfl, rfl, rfl⟩
  | ref d n =>
    obtain ⟨-, r, -, htruncated | hdangling | ⟨-, k, hrun⟩⟩ := execRef_cases h
    · exact .inr (finishDecode_noInvalidParameter htruncated)
    · exact .inr (finishDecode_noInvalidParameter hdangling)
    · obtain ⟨-, hstatus, -, -, -, hreply, -⟩ := hrun.frame
      exact .inl ⟨rfl, hstatus, hreply⟩
  | endOfStream => exact .inr (finishDecode_noInvalidParameter (execEndOfStream_cases h).2)
  | encInit w l => exact absurd rfl (hencInit w l)
  | decInit w l => exact absurd rfl (hdecInit w l)
  | decInitCap cap w l => exact absurd rfl (hdecInitCap cap w l)
  | encode x =>
    obtain ⟨-, -, u, -, hend⟩ := execEncode_cases h
    exact .inr (finishEncode_noInvalidParameter hend)
  | decode y =>
    obtain ⟨-, -, k, u, -, -, hend⟩ := execDecode_cases h
    exact .inr (finishDecode_noInvalidParameter hend)
  | reservedCmd code => cases h

end Sys2Proof.Machine
end

section
/-! ### The bit writer frames, and the bit reader reads the stream (41_bit_io R123 to R130) -/

namespace Sys2Proof

/-- The framing of R75 takes whole bytes, the last one for the bits left over. -/
theorem length_pack (bs : List Bool) : (pack bs).length = (bs.length + 7) / 8 := by
  have hlen := congrArg List.length (streamBits_pack bs)
  simp only [length_streamBits, List.length_append, List.length_replicate] at hlen
  omega

end Sys2Proof

namespace Sys2Proof.Machine

/-- PutBits calls whose values fit append their fields in order (R121). -/
theorem foldlM_putBits {w : Writer} (h : w.wf) {fields : List (Nat × Nat)} (hfit : ∀ f ∈ fields, f.1 < 2 ^ f.2) :
    ∃ w', fields.foldlM (fun w f => putBits f.1 f.2 w) w = .ok w' ∧ w'.wf ∧
      w'.bits = w.bits ++ fields.flatMap (fun f => fieldBits f.1 f.2) := by
  induction fields generalizing w with
  | nil => exact ⟨w, rfl, h, by simp⟩
  | cons f fields ih =>
    obtain ⟨hf, hfit⟩ := List.forall_mem_cons.mp hfit
    obtain ⟨hwf, hbits⟩ := putBitsLoop_spec h f.1 f.2
    obtain ⟨w', hfold, hwf', hbits'⟩ := ih hwf hfit
    refine ⟨w', ?_, hwf', by rw [hbits', hbits, List.flatMap_cons, List.append_assoc]⟩
    rw [List.foldlM_cons, putBits_eq_ok.mpr ⟨hf, rfl⟩]
    exact hfold

/-- Settles O10: the calls append the fields (`foldlM_putBits`), and FlushBits leaves them packed (`flushBits_out`),
which is the framing (`streamBits_pack`, `length_pack`). -/
theorem writerFraming : Obligations.WriterFraming := by
  intro fields hfit B
  obtain ⟨w, hfold, hwf, hbits⟩ := foldlM_putBits writerCleared_wf hfit
  have hout : (flushBits w).out = pack B := by rw [flushBits_out hwf, hbits, writerCleared_bits, List.nil_append]
  refine ⟨w, hfold, ?_⟩
  rw [hout, streamBits_pack, List.take_left, List.drop_left]
  exact ⟨length_pack B, rfl, fun b hb => List.eq_of_mem_replicate hb⟩

/-- Settles O11: GetBits reads the bits after the cursor and moves it past them (`getBits_spec`), and RemainingBits
counts them (`remainingBits_eq`). -/
theorem getBitsReadsTheStream : Obligations.GetBitsReadsTheStream := by
  intro cap n r hcap hcoh hn
  obtain ⟨hrem, hcursor⟩ := hcoh.remainingBits_eq
  obtain ⟨r', hget, hm⟩ := getBits_spec hcap hcoh (hrem ▸ hn)
  exact ⟨hrem.trans List.length_drop, by rwa [length_streamBits], r', hget, hm.cursor, hm.src, hm.coherent⟩

/-- Settles O13: the rest of STAGE and then of SRC are the bits the reader has not read (`pendingBits_eq`). -/
theorem fetchSeesTheStream : Obligations.FetchSeesTheStream :=
  fun _ _ hcoh => hcoh.pendingBits_eq

/-! #### A token with bits missing (43_decoder R163 to R165) -/

/-- Where a token's tag or a bit after it is missing, the tag's read tells so (R131, R163). -/
theorem takeTag_incomplete {cap need : Nat} {r : Reader} (hcap : 1 ≤ cap) (h : r.coherent cap)
    (hlt : remainingBits r < 1 + need) : ∃ r', takeTag cap need r = .ok (false, r') := by
  have hrem := h.remainingBits_eq.1
  by_cases h7 : remainingBits r ≤ 7
  · exact ⟨r, by simp [takeTag, h7]⟩
  · obtain ⟨r', hget, hm⟩ := getBits_spec hcap (n := 1) h (by omega)
    have hrem' : remainingBits r' = remainingBits r - 1 := by
      rw [hm.coherent.remainingBits_eq.1, hm.unread, List.length_drop, hrem]
    exact ⟨r', by rw [takeTag_of_getBits (by omega) hget, decide_eq_false (by omega)]⟩

/-- A LIT or REF with bits missing is a truncated token: it reads at most its tag and no field (R163 to R165). -/
theorem exec_incomplete {s : State} {i : Instr} (h : DecodeInv s) (hat : s.atTokenBoundary = true)
    (ht : i.isToken = true) (hlt : remainingBits s.reader < tokenSize s.cfg.wbits s.cfg.lbits i) :
    ∃ r, exec i s = truncatedToken { s with reader := r } := by
  match i, ht with
  | .lit v, _ =>
    obtain ⟨r, htag⟩ := takeTag_incomplete (need := 8) h.cap h.reader hlt
    exact ⟨r, by simp only [exec, execLit, hat, if_true, htag]⟩
  | .ref d n, _ =>
    obtain ⟨r, htag⟩ := takeTag_incomplete (need := s.cfg.wbits + s.cfg.lbits) h.cap h.reader
      (by simpa only [tokenSize, Nat.add_assoc] using hlt)
    exact ⟨r, by simp only [exec, execRef, hat, if_true, htag]⟩

/-- Settles O33: the token is truncated (`exec_incomplete`), which ends the DECODE with its cause
(`finishDecode_raise`). -/
theorem incompleteTokenFails : Obligations.IncompleteTokenFails := by
  intro i s hinv hat ht hlt
  obtain ⟨r, hexec⟩ := exec_incomplete (hinv.atToken hat).toDecodeInv hat ht hlt
  exact ⟨_, hexec.trans (finishDecode_raise .truncated { s with reader := r }), rfl, rfl, rfl, rfl, rfl, rfl⟩

end Sys2Proof.Machine
end

section
/-! ### What ENCODE finds, emits and returns (42_encoder R143 to R151) -/

namespace Sys2Proof.Machine

variable {x : List Byte} {p d m maxlen fuel len count W L : Nat} {best : Nat × Nat} {s : State}

/-! #### FindMatch (R145) -/

/-- No match at an offset is longer than what the inner loop measures there, up to its fuel (R145). -/
theorem IsMatch.le_matchLength (h : IsMatch x p d m) (hm : m ≤ len + fuel) : m ≤ matchLength x p d fuel len := by
  induction fuel generalizing len with
  | zero => exact hm
  | succ fuel ih =>
    rw [matchLength]
    split
    · exact ih (by omega)
    · next hne => exact Nat.le_of_not_lt fun hlt => hne (h len hlt)

/-- A choice that no offset in `1..d-1` betters: none has a longer match, and none below the chosen one has one as long
(R145). -/
def LongestNearest (x : List Byte) (p maxlen d : Nat) (best : Nat × Nat) : Prop :=
  (∀ d' m, 1 ≤ d' → d' < d → m ≤ maxlen → IsMatch x p d' m → m ≤ best.2) ∧
    ∀ d', 1 ≤ d' → d' < best.1 → ¬ IsMatch x p d' best.2

/-- Trying one more offset keeps the choice the longest and nearest: only a longer match replaces it, which no offset
before it has (R145). -/
theorem LongestNearest.succ (h : LongestNearest x p maxlen d best) :
    LongestNearest x p maxlen (d + 1)
      (if best.2 < matchLength x p d maxlen 0 then (d, matchLength x p d maxlen 0) else best) := by
  obtain ⟨hlongest, hnearest⟩ := h
  have hbound {d' m : Nat} (hd' : 1 ≤ d') (hlt : d' < d + 1) (hm : m ≤ maxlen) (hmatch : IsMatch x p d' m) :
      m ≤ best.2 ∨ m ≤ matchLength x p d maxlen 0 := by
    rcases Nat.lt_succ_iff_lt_or_eq.mp hlt with hlt | rfl
    · exact .inl (hlongest d' m hd' hlt hm hmatch)
    · exact .inr (hmatch.le_matchLength (by omega))
  split
  · next hlonger =>
    have hlen : matchLength x p d maxlen 0 ≤ maxlen := by simpa using (matchLength_spec (isMatch_zero x p d)).2
    exact ⟨fun d' m hd' hlt hm hmatch => (hbound hd' hlt hm hmatch).elim hlonger.le.trans' id,
      fun d' hd' hlt hmatch => hlonger.not_ge (hlongest d' _ hd' hlt hlen hmatch)⟩
  · next hkept =>
    exact ⟨fun d' m hd' hlt hm hmatch => (hbound hd' hlt hm hmatch).elim id (Nat.le_of_not_lt hkept).trans', hnearest⟩

/-- The outer loop's choice is the longest and nearest over the offsets tried before it and by it (R145). -/
theorem bestMatch_longestNearest (h : LongestNearest x p maxlen d best) :
    LongestNearest x p maxlen (d + count) (bestMatch x p maxlen count d best) := by
  induction count generalizing d best with
  | zero => exact h
  | succ count ih =>
    rw [← Nat.add_assoc, Nat.add_right_comm]
    exact ih h.succ

/-- The search from offset 1 finds the longest and nearest match of the window (R145). -/
theorem longestMatch_longestNearest (W L : Nat) (x : List Byte) (p : Nat) :
    LongestNearest x p (min (2 ^ L) (x.length - p)) (1 + min p (2 ^ W)) (longestMatch W L x p) :=
  bestMatch_longestNearest ⟨fun _ _ _ _ => by omega, fun _ _ hlt => absurd hlt (Nat.not_lt_zero _)⟩

/-- Settles O23: FindMatch is the plain search (`findMatch_eq`), whose choice is a match in its ranges
(`longestMatch_choice`) and the longest and nearest (`longestMatch_longestNearest`). -/
theorem findMatchIsLongestNearest : Obligations.FindMatchIsLongestNearest := by
  intro W L h e hpos hwindow
  obtain ⟨hcount, -⟩ := id hwindow
  rw [List.length_take_of_le hpos] at hcount
  obtain ⟨hmatch, hlen, hoff, hzero⟩ := longestMatch_choice W L e.input e.ipos
  obtain ⟨hlongest, hnearest⟩ := longestMatch_longestNearest W L e.input e.ipos
  exact ⟨_, _, findMatch_eq hwindow hpos, hlen, hoff.trans hcount.ge, hzero, hmatch,
    fun d m hd hd' => hlongest d m hd (by omega), hnearest⟩

/-! #### The size of an ENCODE's output (R143, R150) -/

/-- The default threshold is a length from which a REF is no longer than its bytes as LITs (R143). -/
theorem tokenSize_ref_le_of_defaultMinMatch_le {n : Nat} (h : defaultMinMatch W L ≤ n) (d : Nat) :
    tokenSize W L (.ref d n) ≤ 9 * n := by
  simp only [defaultMinMatch, tokenSize] at h ⊢
  omega

/-- With the default threshold the greedy parse takes at most nine bits for each byte left (R150). -/
theorem length_tokensBits_greedyFrom_le (W L : Nat) (x : List Byte) (fuel p : Nat) :
    (tokensBits W L (greedyFrom W L (defaultMinMatch W L) x fuel p)).length ≤ 9 * (x.length - p) := by
  induction fuel generalizing p with
  | zero => simp [greedyFrom]
  | succ fuel ih =>
    rcases greedyFrom_succ_cases W L (defaultMinMatch W L) x fuel p with ⟨-, heq⟩ | ⟨hp, ⟨hm, heq⟩ | ⟨-, heq⟩⟩ <;>
      rw [heq]
    · simp
    · obtain ⟨-, -, -, -, hin⟩ := longestMatch_ranges ((Nat.le_add_left 1 _).trans hm)
      have hsize := tokenSize_ref_le_of_defaultMinMatch_le hm (longestMatch W L x p).1
      have hrest := ih (p + (longestMatch W L x p).2)
      rw [tokensBits_cons, List.length_append, Laws.EncodedSize.ref]
      omega
    · have hrest := ih (p + 1)
      rw [tokensBits_cons, List.length_append, Laws.EncodedSize.lit, tokenSize]
      omega

/-- R150 for the stream. -/
theorem State.length_greedyStream_le (hminm : s.cfg.minm = defaultMinMatch s.cfg.wbits s.cfg.lbits) (x : List Byte) :
    (s.greedyStream x).length ≤ (9 * x.length + 7) / 8 := by
  rw [State.greedyStream, assemble, length_pack, hminm, greedyTokens]
  have hbits := length_tokensBits_greedyFrom_le s.cfg.wbits s.cfg.lbits x x.length 0
  omega

/-- Settles O26: the stream is within the bound (`State.length_greedyStream_le`), so either hypothesis has the platform
admit it, and ENCODE returns it (`encodeEmitsTheGreedyParse`). -/
theorem encodeOutputBound : Obligations.EncodeOutputBound := by
  intro x s hready hminm bound
  have hle : (s.greedyStream x).length ≤ bound := State.length_greedyStream_le hminm x
  refine ⟨hle, fun hcap => ?_⟩
  have hadmits : s.platform.admits (s.greedyStream x) :=
    hcap.elim (fun hcap cap hmem => hle.trans (hcap cap hmem)) id
  obtain ⟨t, hexec, -, hout, -⟩ := encodeEmitsTheGreedyParse x s hready hadmits
  exact ⟨t, hexec, hout ▸ hle⟩

/-! #### What the result depends on (R149, R151, R199) -/

/-- An ENCODE whose stream exceeds OUT_CAP is refused (R199). -/
theorem exec_encode_refused (h : s.readyToEncode) (hexceeds : ¬ s.platform.admits (s.greedyStream x)) :
    exec (.encode x) s = .refused .outCapExceeded := by
  obtain ⟨u, hloop, -, hplat, -, hout⟩ := encodeLoop_startEncode h x
  rw [exec_encode_eq h hloop]
  rcases finishEncode_cases u with ⟨-, hend⟩ | ⟨hfits, -⟩
  · exact hend
  · rw [hplat, hout, exceedsOutCap_eq_false] at hfits
    exact absurd hfits hexceeds

/-- Settles O27: both Encoders make one stream of `X` and have one OUT_CAP, so both return it
(`encodeEmitsTheGreedyParse`) or both refuse (`exec_encode_refused`). -/
theorem encodeDependsOnConfigAlone : Obligations.EncodeDependsOnConfigAlone := by
  intro x s s' h h' hW hL hminm hcap
  have hstream : s'.greedyStream x = s.greedyStream x := by simp only [State.greedyStream, hW, hL, hminm]
  have hadmits_iff : s'.platform.admits (s'.greedyStream x) ↔ s.platform.admits (s.greedyStream x) := by
    rw [Platform.admits, Platform.admits, hstream, hcap]
  by_cases hadmits : s.platform.admits (s.greedyStream x)
  · obtain ⟨t, hexec, hreply, -, hstatus, -⟩ := encodeEmitsTheGreedyParse x s h hadmits
    obtain ⟨t', hexec', hreply', -, hstatus', -⟩ := encodeEmitsTheGreedyParse x s' h' (hadmits_iff.mpr hadmits)
    exact .inr ⟨t, t', hexec, hexec', by rw [hreply, hreply', hstream], hstatus.trans hstatus'.symm⟩
  · exact .inl ⟨exec_encode_refused h hadmits, exec_encode_refused h' (mt hadmits_iff.mp hadmits)⟩

/-- Settles O25: the loop runs no step, FlushBits adds nothing, and no OUT_CAP is below the empty output. -/
theorem encodeOfEmptyIsEmpty : Obligations.EncodeOfEmptyIsEmpty := by
  intro s hbusy hrole
  have hexec : exec (.encode []) s = finishEncode (startEncode [] s) := by
    simp [exec, execEncode, hbusy, hrole, encodeLoop, startEncode]
  rcases finishEncode_cases (startEncode [] s) with ⟨hexceeds, -⟩ | ⟨-, hend⟩
  · have hfits : exceedsOutCap s.platform [] = false := exceedsOutCap_eq_false.mpr fun _ _ => Nat.zero_le _
    cases hexceeds.symm.trans hfits
  · exact ⟨_, hexec.trans hend, rfl, rfl⟩

end Sys2Proof.Machine
end

section
/-! ### What the decoder's steps, its failures and a whole DECODE end in (43_decoder R160 to R173) -/

namespace Sys2Proof.Machine

variable {s t : State} {y : List Byte} {out : List Byte} {c : MalformedCause}

/-! #### Where a token is refused (R163) -/

/-- Settles O22: off a token boundary each token's first test refuses it. -/
theorem tokensNeedARunningDecode : Obligations.TokensNeedARunningDecode := by
  intro s v d n h
  have hat : ¬ s.atTokenBoundary = true := by
    rw [atTokenBoundary_iff]
    exact not_and_or.mpr h
  exact ⟨if_neg hat, if_neg hat, if_neg hat⟩

/-! #### The transitions of the state machine (R160) -/

theorem awaitTagStep_dstate (h : awaitTagStep s = .ok t) :
    t.dec.dstate = .drained ∨ (t.dec.dstate = .failed ∧ t.dec.cause = .truncated) ∨ t.dec.dstate = .readLit ∨
      t.dec.dstate = .readRef := by
  obtain ⟨a, r, -, ⟨-, rfl⟩ | ⟨-, rfl⟩ | ⟨-, rfl⟩ | ⟨-, rfl⟩⟩ := awaitTagStep_cases h
  · exact .inl rfl
  · exact .inr (.inl ⟨rfl, rfl⟩)
  · exact .inr (.inr (.inl rfl))
  · exact .inr (.inr (.inr rfl))

theorem readLitStep_dstate (h : readLitStep s = .ok t) : t.dec.dstate = .awaitTag := by
  obtain ⟨v, r, -, rfl⟩ := readLitStep_cases h
  rfl

theorem readRefStep_dstate (h : readRefStep s = .ok t) :
    (t.dec.dstate = .failed ∧ t.dec.cause = .dangling) ∨ t.dec.dstate = .copy := by
  obtain ⟨o, len, r1, r2, -, -, rfl⟩ := readRefStep_cases h
  obtain ⟨-, heff⟩ | ⟨-, heff⟩ := refEffect_cases (refOffset o) (refLength len) { s with reader := r2 } <;> rw [heff]
  · exact .inl ⟨rfl, rfl⟩
  · exact .inr rfl

theorem copyStep_dstate (hq : s.dec.dstate = .copy) (h : copyStep s = .ok t) :
    t.dec.dstate = if s.dec.refRem = 0 then .awaitTag else .copy := by
  obtain ⟨hzero, rfl⟩ | ⟨hne, b, -, rfl⟩ := copyStep_cases h
  · rw [if_pos hzero, setDState]
  · rw [if_neg hne]
    exact hq

theorem finishDecode_dstate (h : finishDecode s = .next t) : t.dec.dstate = .idle := by
  rcases finishDecode_cases s with ⟨-, -, heq⟩ | ⟨-, -, heq⟩ | ⟨-, heq⟩ <;> rw [heq] at h <;> cases h <;> rfl

/-- Settles O29: in each DSTATE the machine runs the step of its row (`awaitTagStep_dstate` to `copyStep_dstate`); from
DRAINED and FAILED it runs Finish (`finishDecode_dstate`). -/
theorem decoderTransitions : Obligations.DecoderTransitions := by
  refine ⟨fun s t h => ⟨fun hq => ?_, fun hq => ?_, fun hq => ?_, fun hq => ?_⟩, fun _ _ => rfl, fun s t hq h => ?_⟩
  · exact awaitTagStep_dstate (by simpa only [decodeStep, hq] using h)
  · exact readLitStep_dstate (by simpa only [decodeStep, hq] using h)
  · exact readRefStep_dstate (by simpa only [decodeStep, hq] using h)
  · exact copyStep_dstate hq (by simpa only [decodeStep, hq] using h)
  · exact finishDecode_dstate (step_finishDecode hq ▸ h)

/-! #### The dangling REF (R165, R168) -/

/-- A boundary with a tag and `n` more bits left stands before that tag (R163). -/
theorem State.Inv.atToken_cons (h : s.Inv) (hat : s.atTokenBoundary = true) {n : Nat}
    (hn : 1 + n ≤ remainingBits s.reader) :
    ∃ tag rest, AtToken (tag :: rest) s.dec.out s ∧ n ≤ rest.length := by
  have hatToken := h.atToken hat
  rw [hatToken.reader.remainingBits_eq.1] at hn
  obtain ⟨tag, rest, hbits⟩ := List.exists_cons_of_length_pos (show 0 < s.reader.unread.length by omega)
  rw [hbits] at hatToken hn
  exact ⟨tag, rest, hatToken, by rw [List.length_cons] at hn; omega⟩

/-- Settles O32: up to `N` the window has as many bytes as the output (`le_hcount_iff`); a REF whose bits are there
(`ref_whole`) and that reaches beyond them raises (`runRef_dangling`), and Finish reports it (`finishDecode_raise`). -/
theorem danglingRefFails : Obligations.DanglingRefFails := by
  intro d n s h hat hrem hdN
  have hiff : s.hist.hcount < d ↔ s.dec.out.length < d := by
    rw [← Nat.not_le, (h.atToken hat).window.le_hcount_iff, and_iff_left (show d ≤ s.cfg.window from hdN), Nat.not_le]
  refine ⟨hiff, fun hdangling => ?_⟩
  obtain ⟨tag, rest, htag, hle⟩ := h.atToken_cons hat (Nat.add_assoc 1 _ _ ▸ hrem)
  obtain ⟨r, -, -, hexec, -⟩ := ref_whole htag hat hle d n
  have hraise := (runRef_dangling (s := { s with reader := r }) n (hiff.mpr hdangling)).2
  exact ⟨_, hexec.trans (hraise.trans (finishDecode_raise .dangling _)), rfl, rfl, rfl, rfl, rfl, rfl⟩

/-! #### A whole DECODE (R161, R162) -/

theorem State.EndsAs.setDState_drained (h : t.EndsAs (.ok out)) : setDState .drained t = t := by
  obtain ⟨hq, -⟩ := h
  rw [setDState, ← hq]

theorem State.EndsAs.raise_malformedStream (h : t.EndsAs (.error c)) : raise (.malformedStream c) t = t := by
  obtain ⟨hq, hcause⟩ := h
  rw [raise, ← hq, ← hcause]

/-- DECODE of a stream that means `out`, on a platform that admits it, ends as its END does (`finishDecode_drained`). -/
theorem exec_decode_ok (h : s.readyToDecode) (hmeaning : decodeStream s.cfg.wbits s.cfg.lbits y = .ok out)
    (hadmits : s.platform.admits out) :
    ∃ t, exec (.decode y) s = .next t ∧ t.dec.dstate = .idle ∧ t.reply = .okBytes out ∧ t.dec.out = out ∧
      t.status = 0 := by
  obtain ⟨u, hloop, hends, -, hplat⟩ := decodeLoop_startDecode h y
  rw [hmeaning] at hends
  obtain ⟨-, rfl⟩ := id hends
  have hfinish := finishDecode_drained (s := u) (hplat ▸ hadmits)
  rw [hends.setDState_drained] at hfinish
  exact ⟨_, (exec_decode_eq h hloop).trans hfinish, rfl, rfl, rfl, rfl⟩

/-- DECODE of a stream with a malformation ends as its raise does (`finishDecode_raise`). -/
theorem exec_decode_error (h : s.readyToDecode) (hmeaning : decodeStream s.cfg.wbits s.cfg.lbits y = .error c) :
    ∃ t, exec (.decode y) s = .next t ∧ t.dec.dstate = .idle ∧ t.reply = .err (.malformedStream c) ∧ t.dec.out = [] ∧
      t.status = statusOf (.malformedStream c) := by
  obtain ⟨u, hloop, hends, -⟩ := decodeLoop_startDecode h y
  rw [hmeaning] at hends
  have hfinish := finishDecode_raise c u
  rw [hends.raise_malformedStream] at hfinish
  exact ⟨_, (exec_decode_eq h hloop).trans hfinish, rfl, rfl, rfl, rfl⟩

/-- Settles O35: by what the stream means, DECODE returns its output (`exec_decode_ok`) or fails with its malformation
(`exec_decode_error`). -/
theorem decodeReturnsTheStreamsMeaning : Obligations.DecodeReturnsTheStreamsMeaning := by
  intro y s hready hfits
  match hmeaning : decodeStream s.cfg.wbits s.cfg.lbits y with
  | .ok out => exact exec_decode_ok hready hmeaning (hfits out (by rw [hmeaning]; rfl))
  | .error .dangling => exact exec_decode_error hready hmeaning
  | .error .truncated => exact exec_decode_error hready hmeaning

/-! #### Literal streams (R173) -/

/-- A stream of literals is the same bytes under every configuration, for a LIT's bits have no field of `W` or `L` (R71,
R173). -/
theorem assemble_expandStr_congr (W L W' L' : Nat) (text : List Byte) :
    assemble W L (expandStr text) = assemble W' L' (expandStr text) := by
  have hbits : tokensBits W L (expandStr text) = tokensBits W' L' (expandStr text) := by
    induction text with
    | nil => rfl
    | cons v text ih => exact congrArg (tokenBits W L (.lit v) ++ ·) ih
  rw [assemble, hbits, assemble]

/-- Settles O40: the stream is the one the Decoder's own configuration makes of the literals
(`assemble_expandStr_congr`), and these append the text (`tokensOutput_expandStr_append`). -/
theorem literalStreamsDecodeEverywhere : Obligations.LiteralStreamsDecodeEverywhere := by
  intro text W L s hready hadmits
  have hout : tokensOutput (expandStr text) [] = .ok text := by
    simpa using tokensOutput_expandStr_append text [] []
  rw [assemble_expandStr_congr W L s.cfg.wbits s.cfg.lbits]
  exact exec_decode_assemble hready (expandStr_wf _ _ text) hout hadmits

end Sys2Proof.Machine
end

section
/-! ### The requests without a meaning (60_exceptions R199) -/

namespace Sys2Proof.Machine

variable {s : State}

/-- Each command's first test is that no operation is in progress (R64). -/
theorem exec_commands_of_busy (hbusy : s.busy = true) (cap w l : Int) (x : List Byte) :
    exec (.encInit w l) s = .refused .busy ∧ exec (.decInit w l) s = .refused .busy ∧
      exec (.decInitCap cap w l) s = .refused .busy ∧ exec (.encode x) s = .refused .busy ∧
      exec (.decode x) s = .refused .busy :=
  ⟨if_pos hbusy, if_pos hbusy, if_pos hbusy, if_pos hbusy, if_pos hbusy⟩

theorem exec_encode_notEncoder (hbusy : s.busy = false) (hrole : s.cfg.role ≠ .encoder) (x : List Byte) :
    exec (.encode x) s = .refused .notEncoder := by
  simp [exec, execEncode, hbusy, hrole]

theorem exec_decode_notDecoder (hbusy : s.busy = false) (hrole : s.cfg.role ≠ .decoder) (y : List Byte) :
    exec (.decode y) s = .refused .notDecoder := by
  simp [exec, execDecode, hbusy, hrole]

/-- A DECODE of a stream whose meaning exceeds OUT_CAP is refused: of its outcomes (`exec_decode_outcome`) the others
are for an output the platform admits and for a malformed stream. -/
theorem exec_decode_refused {y out : List Byte} (h : s.readyToDecode)
    (hmeaning : decodeStream s.cfg.wbits s.cfg.lbits y = .ok out) (hexceeds : ¬ s.platform.admits out) :
    exec (.decode y) s = .refused .outCapExceeded := by
  rcases exec_decode_outcome h y with ⟨out', hout, ⟨-, hrefused⟩ | ⟨hfits, -⟩⟩ | ⟨c, herror, -⟩
  · exact hrefused
  · cases hmeaning.symm.trans hout
    exact absurd (exceedsOutCap_eq_false.mp hfits) hexceeds
  · cases hmeaning.symm.trans herror

/-- Settles O20, row by row of R199: the step runs a reserved request as RESERVED_CMD (`decodeRequest_reserved`), a
command tests busy and then the role first, and the end of an operation tests OUT_CAP. -/
theorem refusedRequests : Obligations.RefusedRequests :=
  ⟨fun _ _ _ hcode hbusy hreq => step_request hbusy hreq (decodeRequest_reserved hcode),
    fun _ cap w l x hbusy => exec_commands_of_busy hbusy cap w l x,
    fun _ x hbusy => ⟨(exec_encode_notEncoder hbusy · x), (exec_decode_notDecoder hbusy · x)⟩,
    fun _ _ => ⟨exec_encode_refused, fun hready _ => exec_decode_refused hready⟩⟩

end Sys2Proof.Machine
end

section
/-! ### Streams that need no padding concatenate (70_reset_and_hazards R232) -/

namespace Sys2Proof

/-- Bits that fill whole bytes are packed by themselves, whatever is packed after them (R75). -/
theorem pack_append {bits : List Bool} (h : bits.length % 8 = 0) (rest : List Bool) :
    pack (bits ++ rest) = pack bits ++ pack rest := by
  have hbits : streamBits (pack bits) = bits := by rw [streamBits_pack, h]; exact List.append_nil bits
  rw [← pack_streamBits_append, hbits]

/-- Where the first token list needs no padding, the two streams together are the stream of both lists (R75). -/
theorem assemble_append {W L : Nat} {toks : List Instr} (h : (tokensBits W L toks).length % 8 = 0)
    (toks' : List Instr) : assemble W L (toks ++ toks') = assemble W L toks ++ assemble W L toks' := by
  rw [assemble, tokensBits, List.flatMap_append]
  exact pack_append h _

end Sys2Proof

namespace Sys2Proof.Machine

variable {toks : List Instr} {out out' : List Byte}

/-- A copy from inside the output reads nothing of what stands before it (R167). -/
theorem copyBytes_append_left {d : Nat} (hd : d ≤ out.length) (n : Nat) (pre : List Byte) :
    copyBytes d n (pre ++ out) = pre ++ copyBytes d n out := by
  induction n generalizing out with
  | zero => rfl
  | succ n ih =>
    have hbyte : (pre ++ out).getD ((pre ++ out).length - d) 0 = out.getD (out.length - d) 0 := by
      rw [List.length_append, Nat.add_sub_assoc hd, List.getD_append_right _ _ _ _ (Nat.le_add_right _ _),
        Nat.add_sub_cancel_left]
    rw [copyBytes, copyBytes, hbyte, List.append_assoc, ih (by simp; omega)]

/-- What a token list makes of an output, it makes behind any bytes `pre`, since its REFs stay inside that output, and a
second list continues from there (R164, R165). -/
theorem tokensOutput_append_of_ok (ht : ∀ i ∈ toks, i.isToken = true) (h : tokensOutput toks out = .ok out')
    (pre : List Byte) (toks' : List Instr) :
    tokensOutput (toks ++ toks') (pre ++ out) = tokensOutput toks' (pre ++ out') := by
  induction toks generalizing out with
  | nil => cases h; rfl
  | cons i toks ih =>
    obtain ⟨hi, htail⟩ := List.forall_mem_cons.mp ht
    match i, hi with
    | .lit v, _ =>
      rw [List.cons_append, tokensOutput_lit, List.append_assoc]
      exact ih htail h
    | .ref d n, _ =>
      rw [tokensOutput_ref] at h
      split at h
      · cases h
      · next hlt =>
        have hd : d ≤ out.length := Nat.not_lt.mp hlt
        rw [List.cons_append, tokensOutput_ref_of_le (by simp; omega), copyBytes_append_left hd]
        exact ih htail h

/-- The greedy parse makes its input of an empty output (R153). -/
theorem tokensOutput_greedyTokens {m : Nat} (hm : 1 ≤ m) (W L : Nat) (x : List Byte) :
    tokensOutput (greedyTokens W L m x) [] = .ok x :=
  tokensOutput_greedyFrom hm (Nat.zero_le _) le_rfl

/-- Settles O42: the two streams are the stream of both parses (`assemble_append`). The second parse, which makes `b` of an
empty output, makes `a ++ b` of the first one's output `a` (`tokensOutput_append_of_ok`). -/
theorem unpaddedStreamsConcatenate : Obligations.UnpaddedStreamsConcatenate := by
  intro a b m s hready hm hadmits parse haligned
  have hwf (x : List Byte) : ∀ i ∈ parse x, i.isToken = true ∧ i.wf s.cfg.wbits s.cfg.lbits = true :=
    greedyFrom_wf hm x x.length 0
  have htok (x : List Byte) : ∀ i ∈ parse x, i.isToken = true := fun i hi => (hwf x i hi).1
  have hparse (x : List Byte) : tokensOutput (parse x) [] = .ok x := tokensOutput_greedyTokens hm _ _ x
  have hout : tokensOutput (parse a ++ parse b) [] = .ok (a ++ b) :=
    calc tokensOutput (parse a ++ parse b) []
      _ = tokensOutput (parse b) a := tokensOutput_append_of_ok (htok a) (hparse a) [] (parse b)
      _ = .ok (a ++ b) := by simpa using tokensOutput_append_of_ok (htok b) (hparse b) a []
  rw [← assemble_append haligned]
  exact exec_decode_assemble hready (List.forall_mem_append.mpr ⟨hwf a, hwf b⟩) hout hadmits

end Sys2Proof.Machine
end

section
/-! ### Power-on (70_reset_and_hazards R220, R221) -/

namespace Sys2Proof.Machine

variable {s : State}

/-- With no operation in progress ENC_INIT ends, whether or not its operands are legal (R102). -/
theorem exec_encInit_next (hbusy : s.busy = false) (w l : Int) : ∃ t, exec (.encInit w l) s = .next t := by
  cases hc : checkConfig w l with
  | none => exact ⟨constructEncoder w.toNat l.toNat s, by simp [exec, execEncInit, hbusy, hc]⟩
  | some c => exact ⟨_, exec_encInit_of_checkConfig hbusy hc⟩

/-- The same of DEC_INIT_CAP (R104). -/
theorem exec_decInitCap_next (hbusy : s.busy = false) (cap w l : Int) :
    ∃ t, exec (.decInitCap cap w l) s = .next t := by
  cases hc : checkDecoder cap w l with
  | none => exact ⟨constructDecoder cap.toNat w.toNat l.toNat s,
      by simp [exec, execDecInitCap, decoderConstruction, hbusy, hc]⟩
  | some c => exact ⟨_, exec_decInitCap_of_checkDecoder hbusy hc⟩

/-- Settles O47: no operation is in progress at power-on, so the constructions end, and the slot is empty, so ENCODE and
DECODE fail the test of the role. -/
theorem powerOnIsAnEmptySlot : Obligations.PowerOnIsAnEmptySlot := by
  have hbusy : State.reset.busy = false := rfl
  have hnone : State.reset.cfg.role = .none := rfl
  refine ⟨hnone, rfl, rfl, fun x => ⟨exec_encode_notEncoder hbusy ?_ x, exec_decode_notDecoder hbusy ?_ x⟩,
    fun cap w l => ⟨exec_encInit_next hbusy w l, ?_, exec_decInitCap_next hbusy cap w l⟩⟩
  · rw [hnone]; decide
  · rw [hnone]; decide
  · rw [exec_decInit_eq_decInitCap]
    exact exec_decInitCap_next hbusy _ w l

end Sys2Proof.Machine
end

section
/-! ### What the constructions leave unchanged (40_config R102 to R105, 70_reset_and_hazards R220) -/

namespace Sys2Proof.Machine

variable {s t : State} {i : Instr}

/-- A construction that goes on fails with InvalidParameter, or makes an Encoder or a Decoder (R102 to R105). -/
theorem exec_construction_cases
    (hi : (∃ w l, i = .encInit w l) ∨ (∃ w l, i = .decInit w l) ∨ ∃ cap w l, i = .decInitCap cap w l)
    (h : exec i s = .next t) :
    (∃ c, t = raise (.invalidParameter c) s) ∨ (∃ w l, t = constructEncoder w l s) ∨
      ∃ cap w l, t = constructDecoder cap w l s := by
  have hdecoder {cap w l : Int} (h : decoderConstruction cap w l s = .next t) :
      (∃ c, t = raise (.invalidParameter c) s) ∨ ∃ cap w l, t = constructDecoder cap w l s :=
    (decoderConstruction_cases h).2.imp_right fun ⟨_, _, _, ht⟩ => ⟨_, _, _, ht⟩
  obtain ⟨w, l, rfl⟩ | ⟨w, l, rfl⟩ | ⟨cap, w, l, rfl⟩ := hi
  · obtain ⟨-, hfailed | ⟨-, hmade⟩⟩ := execEncInit_cases h
    · exact .inl hfailed
    · exact .inr (.inl ⟨_, _, hmade⟩)
  · exact (hdecoder h).imp_right .inr
  · exact (hdecoder h).imp_right .inr

/-- Settles O16: the state after a construction is one of three (`exec_construction_cases`), and none of them writes these
registers. -/
theorem constructionKeepsTheRest : Obligations.ConstructionKeepsTheRest := by
  intro i s t hi h
  obtain ⟨c, rfl⟩ | ⟨w, l, rfl⟩ | ⟨cap, w, l, rfl⟩ := exec_construction_cases hi h <;>
    exact ⟨rfl, rfl, rfl, rfl, rfl, rfl, rfl, rfl, rfl, rfl, rfl⟩

end Sys2Proof.Machine
end
